-- ==== Sys2Proof/Word.lean ====
section
/-! DEFINITION. The machine's word and register-index types: every register, memory word, address, the
program counter and every instruction are 32 bits wide (00_scope.md R5, R8), and a register field of an
instruction is 4 bits (30_encoding.md R91, R92). -/

namespace Sys2Proof

/-- `XLEN` = 32: a register, a memory word, an address, the pc, an instruction (R5). All arithmetic on it
is modulo 2^32 (R8). -/
abbrev Word := BitVec 32

/-- A 4-bit register field; it names R0 .. R15 (R20, R92). -/
abbrev RegIdx := BitVec 4

end Sys2Proof
end

