-- ==== Sys2Proof/Config.lean ====
section
/-! DEFINITION. The configuration of 00_scope.md R5: what is fixed when the machine is built, the test that
says which configurations are legal (R6), and the fixed parameters `HALT_WORD` (R102) and the reference
configurations of R7. Nothing of the spec is left without a value, so this file holds no free value. -/

namespace Sys2Proof

/-- The construction-time parameters of R5. The two mode flags are not here: they are latched at every
reset (R231) and are fields of the state. -/
structure Config where
  /-- `NREGS`: number of register-file entries, 16 or 32. -/
  nregs : Nat
  /-- `RAM_WORDS`: number of words of RAM; the valid addresses are `0 .. ramWords - 1`. -/
  ramWords : Nat
  /-- `CACHE_LINES`: number of cache lines. -/
  cacheLines : Nat
  /-- `WORDS_PER_LINE`: words in a cache line. -/
  wordsPerLine : Nat
  /-- `CACHE_LATENCY`: WAIT cycles charged to a cache hit. -/
  cacheLatency : Nat
  /-- `RAM_LATENCY`: WAIT cycles charged to a cache miss. -/
  ramLatency : Nat
  deriving DecidableEq, Repr

/-- The legal values of R5. The latencies are any natural numbers (R6). -/
def Config.legal (c : Config) : Bool :=
  (c.nregs == 16 || c.nregs == 32) &&
  decide (1 ≤ c.ramWords) && decide (c.ramWords ≤ 4294967296) &&
  decide (1 ≤ c.cacheLines) && decide (1 ≤ c.wordsPerLine) &&
  (c.ramWords % c.wordsPerLine == 0)

/-- `HALT_WORD`, the reserved instruction word that stops the processor (R5, R102). -/
def haltWord : Word := 0

/-- The sizes shared by the four reference configurations of R7, with the given latencies. -/
def Config.sized (cacheLatency ramLatency : Nat) : Config :=
  { nregs := 16, ramWords := 256, cacheLines := 4, wordsPerLine := 4,
    cacheLatency := cacheLatency, ramLatency := ramLatency }

/-- `REF1` of R7; `REF0` and `REF3`, which do not use the latencies, share it. DESIGN CHOICE (log 1): the
configuration of `State.reset`; the source gives none. -/
def Config.reference : Config := Config.sized 0 2

/-- `REF2` of R7. -/
def Config.reference2 : Config := Config.sized 1 3

end Sys2Proof
end

