-- ==== Sys2Proof/Syntax.lean ====
section
/-! DEFINITION. The instructions: one constructor per row of spec/opcode_table.json (30_encoding.md R100), with
every field of its format (R92). Bits the instruction ignores (R104, R124) are kept as fields named `ign`, so that
an instruction and its word determine each other (log 9). -/

namespace Sys2Proof

/-- The condition codes of Class C (R98): 0 equal, 1 less-than, 2 greater-or-equal, 3 not-equal. -/
inductive Cond where
  | eq | lt | ge | ne
  deriving DecidableEq, Repr

/-- The 535 ISA. -/
inductive Instr where
  /-- The HALT sentinel, the whole word 0 (R144). -/
  | halt
  /-- ADD Rd,Rs1,Rs2 (R120). -/
  | add (rd rs1 rs2 : RegIdx) (ign : BitVec 15)
  /-- SUB Rd,Rs1,Rs2 (R121). -/
  | sub (rd rs1 rs2 : RegIdx) (ign : BitVec 15)
  /-- ADDI Rd,Rs1,imm (R122). -/
  | addi (rd rs1 : RegIdx) (imm : BitVec 19)
  /-- LDI Rd,imm (R123). -/
  | ldi (rd : RegIdx) (imm : BitVec 23)
  /-- LOAD Rd,[Rs1+imm] (R130); `ign` is the ignored field f3. -/
  | load (rd rs1 ign : RegIdx) (imm : BitVec 15)
  /-- STR Rsd,[Rs1+imm] (R131); `ign` is the ignored field f3. -/
  | str (rsd rs1 ign : RegIdx) (imm : BitVec 15)
  /-- BC cc,Ra,Rb,disp (R141). -/
  | bc (cc : Cond) (ra rb : RegIdx) (disp : BitVec 17)
  /-- J disp (R142); `ign` is the ignored field f1. -/
  | j (ign : RegIdx) (disp : BitVec 23)
  /-- NOP, the reserved opcode 9 (R124, R106). -/
  | nop (ign : BitVec 27)
  /-- The unassigned opcode 0, for a word other than 0 (R124, R102). -/
  | nopOp0 (ign : BitVec 27)
  /-- The unassigned opcode 10 (R124). -/
  | nopOp10 (ign : BitVec 27)
  /-- The unassigned opcode 11 (R124). -/
  | nopOp11 (ign : BitVec 27)
  /-- The unassigned opcode 12 (R124). -/
  | nopOp12 (ign : BitVec 27)
  /-- The unassigned opcode 13 (R124). -/
  | nopOp13 (ign : BitVec 27)
  /-- The unassigned opcode 14 (R124). -/
  | nopOp14 (ign : BitVec 27)
  /-- The unassigned opcode 15 (R124). -/
  | nopOp15 (ign : BitVec 27)
  /-- The unassigned opcode 16 (R124). -/
  | nopOp16 (ign : BitVec 27)
  /-- The unassigned opcode 17 (R124). -/
  | nopOp17 (ign : BitVec 27)
  /-- The unassigned opcode 18 (R124). -/
  | nopOp18 (ign : BitVec 27)
  /-- The unassigned opcode 19 (R124). -/
  | nopOp19 (ign : BitVec 27)
  /-- The unassigned opcode 20 (R124). -/
  | nopOp20 (ign : BitVec 27)
  /-- The unassigned opcode 21 (R124). -/
  | nopOp21 (ign : BitVec 27)
  /-- The unassigned opcode 22 (R124). -/
  | nopOp22 (ign : BitVec 27)
  /-- The unassigned opcode 23 (R124). -/
  | nopOp23 (ign : BitVec 27)
  /-- The unassigned opcode 24 (R124). -/
  | nopOp24 (ign : BitVec 27)
  /-- The unassigned opcode 25 (R124). -/
  | nopOp25 (ign : BitVec 27)
  /-- The unassigned opcode 26 (R124). -/
  | nopOp26 (ign : BitVec 27)
  /-- The unassigned opcode 27 (R124). -/
  | nopOp27 (ign : BitVec 27)
  /-- The unassigned opcode 28 (R124). -/
  | nopOp28 (ign : BitVec 27)
  /-- The unassigned opcode 29 (R124). -/
  | nopOp29 (ign : BitVec 27)
  /-- The unassigned opcode 30 (R124). -/
  | nopOp30 (ign : BitVec 27)
  /-- The unassigned opcode 31 (R124). -/
  | nopOp31 (ign : BitVec 27)
  deriving DecidableEq, Repr

end Sys2Proof
end

