-- ==== Sys2Proof/WellFormed.lean ====
section
/-! DEFINITION. Which instruction terms have an encoding. Every field has exactly the width of its place in the
word (R92), so the one term without a word of its own is opcode 0 with all other bits 0: that word is the HALT
sentinel and not a NOP (30_encoding.md R102). -/

namespace Sys2Proof

/-- `nopOp0 0` would be the word 0x00000000, which is HALT (R102); every other term is well formed. -/
def Instr.wellFormed : Instr → Bool
  | .nopOp0 ign => ign != 0
  | .halt | .add .. | .sub .. | .addi .. | .ldi .. | .load .. | .str .. | .bc .. | .j .. | .nop .. => true
  | .nopOp10 .. | .nopOp11 .. | .nopOp12 .. | .nopOp13 .. | .nopOp14 .. | .nopOp15 .. | .nopOp16 .. | .nopOp17 .. | .nopOp18 .. | .nopOp19 ..
  | .nopOp20 .. | .nopOp21 .. | .nopOp22 .. | .nopOp23 .. | .nopOp24 .. | .nopOp25 .. | .nopOp26 .. | .nopOp27 .. | .nopOp28 .. | .nopOp29 .. | .nopOp30 .. | .nopOp31 .. => true

end Sys2Proof
end

