-- ==== Sys2Proof/Decode.lean ====
section
/-! DEFINITION. The decoder (30_encoding.md R91, R92, R99, R100, R105) and, after it, the encoder (R110). Decoding
a word never fails (R107): what can be refused, by name, is a missing word. -/

namespace Sys2Proof

/-- Bits `lo + n - 1` down to `lo` of a word (R8). -/
def bits (w : Word) (lo n : Nat) : BitVec n := w.extractLsb' lo n

/-- `w[31:27]` (R91). -/
def opcodeOf (w : Word) : BitVec 5 := bits w 27 5
/-- `f1 = w[26:23]` (R91). -/
def f1Of (w : Word) : RegIdx := bits w 23 4
/-- `f2 = w[22:19]` (R91). -/
def f2Of (w : Word) : RegIdx := bits w 19 4
/-- `f3 = w[18:15]` (R91). -/
def f3Of (w : Word) : RegIdx := bits w 15 4
/-- `cnd = w[18:17]` (R91). -/
def cndOf (w : Word) : BitVec 2 := bits w 17 2
/-- `imm15 = w[14:0]` (R91). -/
def imm15Of (w : Word) : BitVec 15 := bits w 0 15
/-- `imm17 = w[16:0]` (R91). -/
def imm17Of (w : Word) : BitVec 17 := bits w 0 17
/-- `imm19 = w[18:0]` (R91). -/
def imm19Of (w : Word) : BitVec 19 := bits w 0 19
/-- `imm23 = w[22:0]` (R91). -/
def imm23Of (w : Word) : BitVec 23 := bits w 0 23
/-- The low 27 bits, which a NOP ignores (R124). -/
def low27Of (w : Word) : BitVec 27 := bits w 0 27

/-- The condition a 2-bit code names (R98). -/
def Cond.ofBits (c : BitVec 2) : Cond :=
  match c.toNat with
  | 0 => .eq
  | 1 => .lt
  | 2 => .ge
  | _ => .ne

/-- The 2-bit code of a condition (R98). -/
def Cond.toBits : Cond → BitVec 2
  | .eq => 0
  | .lt => 1
  | .ge => 2
  | .ne => 3

/-- The lookup `OPMAP` of R100 with the fields of the word filled in (R105): total, by the opcode alone, and never
HALT. It is what Decode applies to a word it holds. -/
def decodeOp (w : Word) : Instr :=
  match (opcodeOf w).toNat with
  | 0 => .nopOp0 (low27Of w)
  | 1 => .add (f1Of w) (f2Of w) (f3Of w) (imm15Of w)
  | 2 => .sub (f1Of w) (f2Of w) (f3Of w) (imm15Of w)
  | 3 => .addi (f1Of w) (f2Of w) (imm19Of w)
  | 4 => .ldi (f1Of w) (imm23Of w)
  | 5 => .load (f1Of w) (f2Of w) (f3Of w) (imm15Of w)
  | 6 => .str (f1Of w) (f2Of w) (f3Of w) (imm15Of w)
  | 7 => .bc (Cond.ofBits (cndOf w)) (f1Of w) (f2Of w) (imm17Of w)
  | 8 => .j (f1Of w) (imm23Of w)
  | 9 => .nop (low27Of w)
  | 10 => .nopOp10 (low27Of w)
  | 11 => .nopOp11 (low27Of w)
  | 12 => .nopOp12 (low27Of w)
  | 13 => .nopOp13 (low27Of w)
  | 14 => .nopOp14 (low27Of w)
  | 15 => .nopOp15 (low27Of w)
  | 16 => .nopOp16 (low27Of w)
  | 17 => .nopOp17 (low27Of w)
  | 18 => .nopOp18 (low27Of w)
  | 19 => .nopOp19 (low27Of w)
  | 20 => .nopOp20 (low27Of w)
  | 21 => .nopOp21 (low27Of w)
  | 22 => .nopOp22 (low27Of w)
  | 23 => .nopOp23 (low27Of w)
  | 24 => .nopOp24 (low27Of w)
  | 25 => .nopOp25 (low27Of w)
  | 26 => .nopOp26 (low27Of w)
  | 27 => .nopOp27 (low27Of w)
  | 28 => .nopOp28 (low27Of w)
  | 29 => .nopOp29 (low27Of w)
  | 30 => .nopOp30 (low27Of w)
  | _ => .nopOp31 (low27Of w)

/-- The instruction a word is: the HALT sentinel is tested on the whole word first (R102, R205 a), then the opcode is
looked up. -/
def decodeWord (w : Word) : Instr := if w = haltWord then .halt else decodeOp w

/-- Why a sequence of words gives no instruction. -/
inductive DecodeError where
  /-- There is no word to decode. Raised by `decodeWords` only. Safe. -/
  | missingWord
  deriving DecidableEq, Repr

/-- The decoder on a sequence of words: every instruction is one word (R90). -/
def decodeWords : List Word → Except DecodeError (Instr × List Word)
  | [] => .error .missingWord
  | w :: rest => .ok (decodeWord w, rest)

/-- The instruction read from the bits `w` of a table row of `nbits` bits (bit 0 the least significant; an
instruction is one 32-bit word, R90; a row longer than that is no instruction of this machine). -/
def decodeTableWord (nbits w : Nat) : Option Instr :=
  if nbits ≤ 32 then
    match decodeWords [BitVec.ofNat 32 (w % 2 ^ nbits)] with
    | .ok (i, _) => some i
    | .error _ => none
  else none

/-- Class A word: opcode, f1, f2, f3, imm15 (R92, R110). -/
def classA (op : BitVec 5) (f1 f2 f3 : RegIdx) (imm : BitVec 15) : Word := op ++ f1 ++ f2 ++ f3 ++ imm
/-- Class B word: opcode, f1, f2, imm19 (R92, R110). -/
def classB (op : BitVec 5) (f1 f2 : RegIdx) (imm : BitVec 19) : Word := op ++ f1 ++ f2 ++ imm
/-- Class C word: opcode, f1, f2, cnd, imm17 (R92, R110). -/
def classC (op : BitVec 5) (f1 f2 : RegIdx) (cnd : BitVec 2) (imm : BitVec 17) : Word := op ++ f1 ++ f2 ++ cnd ++ imm
/-- Class D word: opcode, f1, imm23 (R92, R110). -/
def classD (op : BitVec 5) (f1 : RegIdx) (imm : BitVec 23) : Word := op ++ f1 ++ imm
/-- The word of an unassigned opcode: opcode and 27 ignored bits (R124). -/
def classNone (op : BitVec 5) (low : BitVec 27) : Word := op ++ low

/-- The word of an instruction (R110). -/
def encode : Instr → Word
  | .halt => haltWord
  | .add rd rs1 rs2 ign => classA 1 rd rs1 rs2 ign
  | .sub rd rs1 rs2 ign => classA 2 rd rs1 rs2 ign
  | .addi rd rs1 imm => classB 3 rd rs1 imm
  | .ldi rd imm => classD 4 rd imm
  | .load rd rs1 ign imm => classA 5 rd rs1 ign imm
  | .str rsd rs1 ign imm => classA 6 rsd rs1 ign imm
  | .bc cc ra rb disp => classC 7 ra rb cc.toBits disp
  | .j ign disp => classD 8 ign disp
  | .nop ign => classNone 9 ign
  | .nopOp0 ign => classNone 0 ign
  | .nopOp10 ign => classNone 10 ign
  | .nopOp11 ign => classNone 11 ign
  | .nopOp12 ign => classNone 12 ign
  | .nopOp13 ign => classNone 13 ign
  | .nopOp14 ign => classNone 14 ign
  | .nopOp15 ign => classNone 15 ign
  | .nopOp16 ign => classNone 16 ign
  | .nopOp17 ign => classNone 17 ign
  | .nopOp18 ign => classNone 18 ign
  | .nopOp19 ign => classNone 19 ign
  | .nopOp20 ign => classNone 20 ign
  | .nopOp21 ign => classNone 21 ign
  | .nopOp22 ign => classNone 22 ign
  | .nopOp23 ign => classNone 23 ign
  | .nopOp24 ign => classNone 24 ign
  | .nopOp25 ign => classNone 25 ign
  | .nopOp26 ign => classNone 26 ign
  | .nopOp27 ign => classNone 27 ign
  | .nopOp28 ign => classNone 28 ign
  | .nopOp29 ign => classNone 29 ign
  | .nopOp30 ign => classNone 30 ign
  | .nopOp31 ign => classNone 31 ign

end Sys2Proof
end

