-- ==== Sys2Proof/Machine/Flags.lean ====
section
/-! DEFINITION. Conditions. The machine has no flags, condition codes or predicate registers (10_state.md R24): no
instruction sets or reads one. What stands in their place is the comparison a conditional branch makes itself, under
its 2-bit condition code (30_encoding.md R98; 42_control.md R141). -/

namespace Sys2Proof.Machine

/-- `cond(cc, p, q)` of R141 on two register values: EQ `p = q`, LT `p < q`, GE `p >= q`, NE `p != q`, the order being
that of signed 32-bit integers. -/
def condHolds (cc : Cond) (p q : Word) : Bool :=
  match cc with
  | .eq => p == q
  | .lt => decide (p.toInt < q.toInt)
  | .ge => decide (p.toInt ≥ q.toInt)
  | .ne => p != q

/-- The same, of the 2-bit `cond` field of a record (R98, R160): every value of the field has a meaning. -/
def condCodeHolds (c : BitVec 2) (p q : Word) : Bool := condHolds (Cond.ofBits c) p q

end Sys2Proof.Machine
end

