-- ==== Sys2Proof/Machine/State.lean ====
section
/-! DEFINITION. Everything the machine holds (10_state.md R20 to R37) as plain data, the stops a step can make,
and the state after power-on. -/

namespace Sys2Proof.Machine

/-- Why the machine could stop with a fault. There is no constructor: the machine raises no exception, and a model's
step function has no fault outcome (60_exceptions.md R200). Nobody raises it. Safe. -/
inductive Fault where
  deriving DecidableEq, Repr

/-- Why the model gives no next state. -/
inductive Refusal where
  /-- An instruction with no meaning yet, by its mnemonic in the opcode table. Raised by no arm of `exec`. Safe. -/
  | notModelled (mnemonic : String)
  /-- The configuration is outside the legal values of R5: no machine exists and a model must refuse it (R6, R207).
  Raised by `construct` and, for a state that carries such a configuration, by `step`. Safe. -/
  | illegalConfiguration
  deriving DecidableEq, Repr

/-- The two stage identities the hierarchy sees (R40). -/
inductive Requester where
  | fetch | mem
  deriving DecidableEq, Repr

/-- `kind` of a request to the hierarchy (R34, R71). -/
inductive AccessKind where
  | read | write
  deriving DecidableEq, Repr

/-- A request to the hierarchy: `(kind, address, value)`, the value 0 for a read (R34). -/
structure Request where
  kind : AccessKind
  addr : Nat
  value : Word
  deriving DecidableEq, Repr

/-- The access the arbiter is counting down (R34): its owner, the WAIT cycles still to be charged, and the request.
`owner = none` of the spec is the absence of this record. -/
structure Access where
  owner : Requester
  count : Nat
  pending : Request
  deriving DecidableEq, Repr

/-- A cache line (R33). -/
structure Line where
  valid : Bool
  dirty : Bool
  tag : Nat
  data : List Word
  deriving DecidableEq, Repr

/-- A RAM word at its word address; the smallest addressable unit is the word (R52; log 6). -/
abbrev WordCell := Nat × Word

/-- RAM, as the list of its words that differ from what an unlisted address reads as (log 6). -/
abbrev Memory := List WordCell

/-- What an unlisted RAM address reads as: every word of RAM is 0 at power-on (R37). -/
def Memory.unlisted : Word := 0

/-- The canonical form: addresses strictly rising, and no entry equal to what an unlisted address reads as. -/
def Memory.wf (m : Memory) : Bool :=
  decide (m.Pairwise fun c d => c.1 < d.1) && m.all fun c => c.2 != Memory.unlisted

/-- `status` of an occupied slot (R29). -/
inductive Status where
  | normal | stalled | hazarded
  deriving DecidableEq, Repr

/-- `type` of a Decoded Instruction (R28). -/
inductive IType where
  | alu | control | memory
  deriving DecidableEq, Repr

/-- `kind` of a Decoded Instruction: the instruction `OPMAP` selects (R28). -/
inductive Kind where
  | add | sub | addi | ldi | load | str | bc | j | nop
  deriving DecidableEq, Repr

/-- The Decoded Instruction record (R28). -/
structure Decoded where
  addr : Word
  raw : Word
  itype : IType
  opcode : BitVec 5
  kind : Kind
  rd : RegIdx
  rs1 : RegIdx
  rs2 : RegIdx
  rsd : RegIdx
  cond : BitVec 2
  imm : Word
  op1 : Word
  op2 : Word
  op3 : Word
  result : Word
  writebackVal : Word
  hasWriteback : Bool
  status : Status
  deriving DecidableEq, Repr

/-- What the Fetch slot has latched (R27). -/
inductive Latched where
  /-- `None`: the read is outstanding. -/
  | outstanding
  /-- `Word(raw)`: the read returned a word other than `HALT_WORD`. -/
  | word (raw : Word)
  /-- `Halt`: the read returned `HALT_WORD`, or the address was out of range. -/
  | halt
  deriving DecidableEq, Repr

/-- The occupant of the Fetch slot (R27). -/
structure FetchEntry where
  addr : Word
  latched : Latched
  status : Status
  deriving DecidableEq, Repr

/-- The occupant of the Decode slot (R27). -/
structure DecodeEntry where
  addr : Word
  raw : Word
  status : Status
  deriving DecidableEq, Repr

/-- What a slot other than Fetch holds (R27). -/
inductive Slot (α : Type) where
  | empty
  | haltMarker
  | inFlight (r : α)
  deriving DecidableEq, Repr

/-- THE MODEL'S OWN (log 4): what an instruction's meaning is asked for. Between steps it is `program`; while part
`p` of the step of R152 runs it names that part. -/
inductive Phase where
  /-- The architectural effect, instructions executed one at a time in program order (R10, level 1). -/
  | program
  /-- The stage behaviour in part 5 (R10, level 2; R168). -/
  | fetch
  /-- The stage behaviour in part 4 (R165). -/
  | decode
  /-- The stage behaviour in part 3 (R160). -/
  | execute
  /-- The stage behaviour in part 2 (R156). -/
  | memory
  /-- The stage behaviour in part 1 (R153). -/
  | writeback
  deriving DecidableEq, Repr

/-- Everything the machine holds. -/
structure State where
  /-- The construction-time configuration, immutable (R5, R40). -/
  cfg : Config
  /-- `PIPELINE_ENABLED`, latched at reset (R25, R231). -/
  pipelineEnabled : Bool
  /-- `CACHE_ENABLED`, latched at reset (R25, R231). -/
  cacheEnabled : Bool
  /-- The register file; entries `cfg.nregs` and above are not registers of the machine (R20; log 10). -/
  x : Vector Word 32
  /-- The program counter, a word address (R22). -/
  pc : Word
  /-- "halted (no further fetches)" (R25). -/
  fetchStopped : Bool
  /-- True once a step has returned HALT (R25). -/
  stopped : Bool
  /-- Executed steps (R25, R150). -/
  cycles : Nat
  /-- Completed instructions (R25, R153, R161). -/
  instrs : Nat
  /-- Accepted requests that hit (R25, R66). -/
  hits : Nat
  /-- Accepted requests that missed (R25, R67). -/
  misses : Nat
  /-- The Fetch slot (R27). -/
  slotF : Option FetchEntry
  /-- The Decode slot (R27). -/
  slotD : Slot DecodeEntry
  /-- The Execute slot (R27). -/
  slotX : Slot Decoded
  /-- The Memory slot (R27). -/
  slotM : Slot Decoded
  /-- The Writeback slot (R27). -/
  slotW : Slot Decoded
  /-- RAM (R32). -/
  ram : Memory
  /-- The cache lines (R33). -/
  lines : List Line
  /-- The port arbiter (R34). -/
  port : Option Access
  /-- The model's own field (log 4). -/
  phase : Phase
  deriving DecidableEq, Repr

/-- A cache line as reset leaves it (R36). -/
def Line.reset (wordsPerLine : Nat) : Line :=
  { valid := false, dirty := false, tag := 0, data := List.replicate wordsPerLine 0 }

/-- The state at power-on of a machine with configuration `c` and the given mode flags (R37, R232). -/
def State.powerOn (c : Config) (pipelineEnabled cacheEnabled : Bool) : State :=
  { cfg := c
    pipelineEnabled := pipelineEnabled
    cacheEnabled := cacheEnabled
    x := Vector.replicate 32 0
    pc := 0
    fetchStopped := false
    stopped := false
    cycles := 0
    instrs := 0
    hits := 0
    misses := 0
    slotF := none
    slotD := .empty
    slotX := .empty
    slotM := .empty
    slotW := .empty
    ram := []
    lines := List.replicate c.cacheLines (Line.reset c.wordsPerLine)
    port := none
    phase := .program }

/-- The machine right after power-on in the reference configuration `REF0` of R7: pipelined, cache disabled
(DESIGN CHOICE of the configuration, log 1; every value is R36's and R37's). -/
def State.reset : State := State.powerOn Config.reference true false

end Sys2Proof.Machine
end

