-- ==== Sys2Proof/Machine/Operands.lean ====
section
/-! DEFINITION. Operand forms: the registers (10_state.md R20, R21), the immediates (30_encoding.md R93 to R97), the
fields decode populates for each instruction and its source registers (R103), the decode function of R105, and the
base-plus-offset address (41_memory_ops.md R133). -/

namespace Sys2Proof.Machine

/-- `x[i]` for an index an instruction can name (R9, R20). -/
def readReg (s : State) (r : RegIdx) : Word := s.x[r.toNat]'(by have := r.isLt; omega)

/-- `x[i] <- v` (R9); the register file is written nowhere else but at reset and by the test bench (R21). -/
def writeReg (s : State) (r : RegIdx) (v : Word) : State :=
  { s with x := s.x.set r.toNat v (by have := r.isLt; omega) }

/-- `sext_N(v)`: bits 31 down to `N` all equal bit `N-1` (R8, R93 to R96). Immediates are never scaled (R97). -/
def sext {n : Nat} (v : BitVec n) : Word := v.signExtend 32

/-- The effective address, modulo 2^32 (R133). -/
def effectiveAddr (base : Word) (imm : BitVec 15) : Word := base + sext imm

/-- The target of a control instruction at `addr` with sign-extended displacement `imm` (R140). -/
def controlTarget (addr imm : Word) : Word := addr + imm

/-- What decode says of an instruction: one row of the table of R103. -/
structure Fields where
  kind : Kind
  itype : IType
  hasWriteback : Bool
  rd : RegIdx
  rs1 : RegIdx
  rs2 : RegIdx
  rsd : RegIdx
  cond : BitVec 2
  imm : Word
  /-- The registers the instruction reads, which hazard detection compares (R103, R165). -/
  srcs : List RegIdx
  deriving DecidableEq, Repr

/-- The row of NOP: every field zero, no sources, no writeback (R101, R103). -/
def nopFields : Fields :=
  { kind := .nop, itype := .alu, hasWriteback := false, rd := 0, rs1 := 0, rs2 := 0, rsd := 0, cond := 0, imm := 0,
    srcs := [] }

/-- The row of ADD (R103). -/
def addFields (rd rs1 rs2 : RegIdx) (imm : BitVec 15) : Fields :=
  { nopFields with kind := .add, hasWriteback := true, rd := rd, rs1 := rs1, rs2 := rs2, imm := sext imm,
                   srcs := [rs1, rs2] }

/-- The row of SUB (R103). -/
def subFields (rd rs1 rs2 : RegIdx) (imm : BitVec 15) : Fields :=
  { nopFields with kind := .sub, hasWriteback := true, rd := rd, rs1 := rs1, rs2 := rs2, imm := sext imm,
                   srcs := [rs1, rs2] }

/-- The row of ADDI (R103). -/
def addiFields (rd rs1 : RegIdx) (imm : BitVec 19) : Fields :=
  { nopFields with kind := .addi, hasWriteback := true, rd := rd, rs1 := rs1, imm := sext imm, srcs := [rs1] }

/-- The row of LDI (R103). -/
def ldiFields (rd : RegIdx) (imm : BitVec 23) : Fields :=
  { nopFields with kind := .ldi, hasWriteback := true, rd := rd, imm := sext imm }

/-- The row of LOAD (R103); f3 is not a source (R104). -/
def loadFields (rd rs1 : RegIdx) (imm : BitVec 15) : Fields :=
  { nopFields with kind := .load, itype := .memory, hasWriteback := true, rd := rd, rs1 := rs1, imm := sext imm,
                   srcs := [rs1] }

/-- The row of STR (R103): the base and the stored register are its sources; f3 is not (R104). -/
def strFields (rsd rs1 : RegIdx) (imm : BitVec 15) : Fields :=
  { nopFields with kind := .str, itype := .memory, rs1 := rs1, rsd := rsd, imm := sext imm, srcs := [rs1, rsd] }

/-- The row of BC (R103). -/
def bcFields (cc : Cond) (ra rb : RegIdx) (disp : BitVec 17) : Fields :=
  { nopFields with kind := .bc, itype := .control, rs1 := ra, rs2 := rb, cond := cc.toBits, imm := sext disp,
                   srcs := [ra, rb] }

/-- The row of J (R103); f1 is ignored (R104). -/
def jFields (disp : BitVec 23) : Fields :=
  { nopFields with kind := .j, itype := .control, imm := sext disp }

/-- The row of an instruction in the table of R103. HALT has none: decode is never applied to it (R102). -/
def fieldsOf : Instr → Fields
  | .halt => nopFields
  | .add rd rs1 rs2 ign => addFields rd rs1 rs2 ign
  | .sub rd rs1 rs2 ign => subFields rd rs1 rs2 ign
  | .addi rd rs1 imm => addiFields rd rs1 imm
  | .ldi rd imm => ldiFields rd imm
  | .load rd rs1 _ imm => loadFields rd rs1 imm
  | .str rsd rs1 _ imm => strFields rsd rs1 imm
  | .bc cc ra rb disp => bcFields cc ra rb disp
  | .j _ disp => jFields disp
  | .nop _ | .nopOp0 _ | .nopOp10 _ | .nopOp11 _ | .nopOp12 _ | .nopOp13 _ | .nopOp14 _ | .nopOp15 _ => nopFields
  | .nopOp16 _ | .nopOp17 _ | .nopOp18 _ | .nopOp19 _ | .nopOp20 _ | .nopOp21 _ | .nopOp22 _ | .nopOp23 _ => nopFields
  | .nopOp24 _ | .nopOp25 _ | .nopOp26 _ | .nopOp27 _ | .nopOp28 _ | .nopOp29 _ | .nopOp30 _ | .nopOp31 _ => nopFields

/-- The Decoded Instruction with the given fields, every other field 0 and status normal (R105, R111). -/
def recordOf (f : Fields) (raw addr : Word) : Decoded :=
  { addr := addr, raw := raw, itype := f.itype, opcode := opcodeOf raw, kind := f.kind, rd := f.rd, rs1 := f.rs1,
    rs2 := f.rs2, rsd := f.rsd, cond := f.cond, imm := f.imm, op1 := 0, op2 := 0, op3 := 0, result := 0,
    writebackVal := 0, hasWriteback := f.hasWriteback, status := .normal }

/-- `decode(raw, addr)` (R105): total, for every word. -/
def decodeRecord (raw addr : Word) : Decoded := recordOf (fieldsOf (decodeOp raw)) raw addr

/-- The record with its operands read from the register file: `op1 <- x[rs1]`, `op2 <- x[rs2]`, `op3 <- x[rsd]` (R166). -/
def withOperands (s : State) (r : Decoded) : Decoded :=
  { r with op1 := readReg s r.rs1, op2 := readReg s r.rs2, op3 := readReg s r.rsd }

end Sys2Proof.Machine
end

