-- ==== Sys2Proof/Machine/Ops.lean ====
section
/-! DEFINITION. The named operations: RAM and its canonical form, the cache, the port arbiter and the hierarchy's
access algorithm (20_memory.md R60 to R80), what each pipeline stage does with an instruction (50_pipeline.md R152 to
R173), and the end of an instruction in program order (00_scope.md R10). The machine takes no exception and returns
from none (60_exceptions.md R200, R203, R204); its one terminating event, the HALT signal, is `signalHalt` and the
halt-marker operations. A stage operation whose slot holds no instruction does nothing (log 19). -/

namespace Sys2Proof.Machine

/-- The state asked for an instruction's meaning in phase `p` (log 4). -/
def inPhase (s : State) (p : Phase) : State := { s with phase := p }

/-! ### RAM -/

/-- `ram[a]` (R32). -/
def Memory.read : Memory → Nat → Word
  | [], _ => Memory.unlisted
  | (b, w) :: rest, a => if a = b then w else Memory.read rest a

/-- `ram[a] <- v`, keeping the canonical form: writing what an unlisted address reads as removes the entry. -/
def Memory.write : Memory → Nat → Word → Memory
  | [], a, v => if v = Memory.unlisted then [] else [(a, v)]
  | (b, w) :: rest, a, v =>
    if a < b then (if v = Memory.unlisted then (b, w) :: rest else (a, v) :: (b, w) :: rest)
    else if a = b then (if v = Memory.unlisted then rest else (a, v) :: rest)
    else (b, w) :: Memory.write rest a v

/-- `ram[base + i] <- ws[i]` for every `i`, in rising order (R68). -/
def Memory.writeBlock : Memory → Nat → List Word → Memory
  | m, _, [] => m
  | m, base, w :: ws => Memory.writeBlock (m.write base w) (base + 1) ws

/-- `ram[base + i]` for `i` in `0 .. n-1` (R67, R247). -/
def Memory.readBlock (m : Memory) (base n : Nat) : List Word := (List.range n).map fun i => m.read (base + i)

/-- `forceWrite(a, w)`: RAM directly, behind the cache and the timing; nothing outside RAM (R76). -/
def forceWrite (s : State) (a : Nat) (w : Word) : State :=
  if a < s.cfg.ramWords then { s with ram := s.ram.write a w } else s

/-- `forceRead(a)`: RAM directly; 0 outside RAM (R76). -/
def forceRead (s : State) (a : Nat) : Word :=
  if a < s.cfg.ramWords then s.ram.read a else 0

/-! ### The cache -/

/-- `line_index(a)` (R62). -/
def lineIndex (c : Config) (a : Nat) : Nat := (a / c.wordsPerLine) % c.cacheLines

/-- `tag(a)` (R62). -/
def tagOf (c : Config) (a : Nat) : Nat := a / (c.cacheLines * c.wordsPerLine)

/-- `offset(a)` (R62). -/
def offsetOf (c : Config) (a : Nat) : Nat := a % c.wordsPerLine

/-- `base(a)`, the first address of the memory block of `a` (R62). -/
def baseOf (c : Config) (a : Nat) : Nat := a - offsetOf c a

/-- The first address of the block a line `k` with tag `t` holds (R68, R77 a). -/
def blockBase (c : Config) (t k : Nat) : Nat := t * c.cacheLines * c.wordsPerLine + k * c.wordsPerLine

/-- `line[k]` (R33); beyond the list of lines, a line as reset leaves it (log 20). -/
def lineAt (s : State) (k : Nat) : Line := s.lines.getD k (Line.reset s.cfg.wordsPerLine)

/-- `line[k] <- l`. -/
def setLine (s : State) (k : Nat) (l : Line) : State := { s with lines := s.lines.set k l }

/-- An access to `a` hits (R63). -/
def hitAt (s : State) (a : Nat) : Bool :=
  (lineAt s (lineIndex s.cfg a)).valid && (lineAt s (lineIndex s.cfg a)).tag == tagOf s.cfg a

/-- The flush of line `k`: its words go to RAM at its old address and it becomes clean, staying valid with its old tag
and data (R68). -/
def flushLine (s : State) (k : Nat) : State :=
  setLine { s with ram := s.ram.writeBlock (blockBase s.cfg (lineAt s k).tag k) (lineAt s k).data } k
    { lineAt s k with dirty := false }

/-- The fill of the line of `a` from RAM at the new address (R67). -/
def fillLine (s : State) (a : Nat) : State :=
  setLine s (lineIndex s.cfg a)
    { valid := true, dirty := false, tag := tagOf s.cfg a,
      data := s.ram.readBlock (baseOf s.cfg a) s.cfg.wordsPerLine }

/-- The word of `a` in its line (R66). -/
def cachedWord (s : State) (a : Nat) : Word := (lineAt s (lineIndex s.cfg a)).data.getD (offsetOf s.cfg a) 0

/-- The word of `a` in its line becomes `v`, and the line dirty (R66). -/
def writeCachedWord (s : State) (a : Nat) (v : Word) : State :=
  setLine s (lineIndex s.cfg a)
    { lineAt s (lineIndex s.cfg a) with
      dirty := true
      data := (lineAt s (lineIndex s.cfg a)).data.set (offsetOf s.cfg a) v }

/-! ### The hierarchy (R60 to R75) -/

/-- An Outcome of the hierarchy (R35): WAIT, or DONE with the word read (0 for a write). -/
inductive Reply where
  | wait
  | done (value : Word)
  deriving DecidableEq, Repr

/-- `abort(stage)` (R74): the owner's pending access is dropped; another stage's is not touched. -/
def abort (s : State) (stage : Requester) : State :=
  match s.port with
  | none => s
  | some p => if p.owner = stage then { s with port := none } else s

/-- `complete(kind, a, v)` of R71: fill after a miss, then service the word. -/
def completeAccess (s : State) (q : Request) : State × Reply :=
  let s1 := if hitAt s q.addr then s else fillLine s q.addr
  match q.kind with
  | .write => (writeCachedWord s1 q.addr q.value, .done 0)
  | .read => (s1, .done (cachedWord s1 q.addr))

/-- The line of `a` is valid and dirty: a miss on `a` must flush it (R68). -/
def dirtyVictim (s : State) (a : Nat) : Bool :=
  (lineAt s (lineIndex s.cfg a)).valid && (lineAt s (lineIndex s.cfg a)).dirty

/-- What accepting a request to `a` does at once: `hits` or `misses` moves, once per request, and a miss flushes a valid
dirty victim (R66, R67, R68). -/
def countAccess (s : State) (a : Nat) : State :=
  if hitAt s a then { s with hits := s.hits + 1 }
  else if dirtyVictim s a then { flushLine s (lineIndex s.cfg a) with misses := s.misses + 1 }
  else { s with misses := s.misses + 1 }

/-- The delay charged to a request to `a` (R66, R67). -/
def delayOf (s : State) (a : Nat) : Nat := if hitAt s a then s.cfg.cacheLatency else s.cfg.ramLatency

/-- A new request is accepted: it is counted and its delay charged; a delay of 0 completes at once and never owns the
port (R64). -/
def acceptRequest (s : State) (q : Request) (stage : Requester) : State × Reply :=
  if delayOf s q.addr = 0 then completeAccess (countAccess s q.addr) q
  else ({ countAccess s q.addr with port := some { owner := stage, count := delayOf s q.addr, pending := q } }, .wait)

/-- The whole access algorithm (R71). -/
def access (s : State) (q : Request) (stage : Requester) : State × Reply :=
  if s.cacheEnabled then
    match s.port with
    | none => acceptRequest s q stage
    | some p =>
      if p.owner ≠ stage then (s, .wait)
      else if p.pending ≠ q then acceptRequest (abort s stage) q stage
      else if p.count - 1 = 0 then completeAccess { s with port := none } q
      else ({ s with port := some { p with count := p.count - 1 } }, .wait)
  else
    match q.kind with
    | .write => ({ s with ram := s.ram.write q.addr q.value }, .done 0)
    | .read => (s, .done (s.ram.read q.addr))

/-- `HRead(a, stage)` (R60). -/
def hRead (s : State) (a : Nat) (stage : Requester) : State × Reply :=
  access s { kind := .read, addr := a, value := 0 } stage

/-- `HWrite(a, v, stage)` (R61). -/
def hWrite (s : State) (a : Nat) (v : Word) (stage : Requester) : State × Reply :=
  access s { kind := .write, addr := a, value := v } stage

/-! ### The architectural memory view -/

/-- `AMem(a)` (R80), which is `MemRead(a, 1)` of the instruction rules (R9). -/
def amem (s : State) (a : Nat) : Word :=
  if s.cacheEnabled && hitAt s a then cachedWord s a else s.ram.read a

/-- `MemWrite(a, 1, v)` (R9): replaces `AMem(a)`, in the cache's copy where the cache holds the word, else in RAM. -/
def memWrite (s : State) (a : Nat) (v : Word) : State :=
  if s.cacheEnabled && hitAt s a then writeCachedWord s a v else { s with ram := s.ram.write a v }

/-- The range test of every access, on the unsigned reading of the address (R55). -/
def inRange (s : State) (a : Word) : Bool := decide (a.toNat < s.cfg.ramWords)

/-! ### The end of an instruction in program order (R10, level 1) -/

/-- The instruction is counted and `pc` advances to the next one. -/
def retire (s : State) : State := { s with pc := s.pc + 1, instrs := s.instrs + 1 }

/-- The instruction is counted and `pc` goes to the target. -/
def retireTo (s : State) (target : Word) : State := { s with pc := target, instrs := s.instrs + 1 }

/-- `signal HALT` (R144): the machine is stopped; `pc` stays and the HALT is not counted. `fetchStopped` is true
whenever `stopped` is (R31 c). -/
def signalHalt (s : State) : State := { s with stopped := true, fetchStopped := true }

/-! ### Decode: part 4 -/

/-- A slot holds an instruction that will write one of the given registers: one whose `has_writeback` is true at that
moment (R165). A halt marker is no producer (R164). DESIGN CHOICE (log 22), where the spec's files disagree: a LOAD whose
address was out of range has had its `has_writeback` cleared when it enters W, so it holds no consumer there and one is
released in that step (R152, R165, P7 step 8), not a step later, when it leaves W (R132, last sentence). -/
def producesFor (srcs : List RegIdx) (slot : Slot Decoded) : Bool :=
  match slot with
  | .inFlight p => p.hasWriteback && srcs.contains p.rd
  | .empty | .haltMarker => false

/-- The hazard scan of X, M and W (R165). -/
def hazard (s : State) (srcs : List RegIdx) : Bool :=
  producesFor srcs s.slotX || producesFor srcs s.slotM || producesFor srcs s.slotW

/-- Decode's part for an instruction with the given fields: held by a hazard; else its operands are read and it moves
to X if X is free; else it stalls (R165 to R167). -/
def issueDecode (f : Fields) (s : State) : State :=
  match s.slotD with
  | .inFlight q =>
    if hazard s f.srcs then { s with slotD := .inFlight { q with status := .hazarded } }
    else
      match s.slotX with
      | .empty => { s with slotX := .inFlight (withOperands s (recordOf f q.raw q.addr)), slotD := .empty }
      | .haltMarker | .inFlight _ => { s with slotD := .inFlight { q with status := .stalled } }
  | .empty | .haltMarker => s

/-! ### Execute: part 3 -/

/-- An instruction that is not a taken control instruction leaves X for M if M is free, else stalls (R163). -/
def leaveExecute (r : Decoded) (s : State) : State :=
  match s.slotM with
  | .empty => { s with slotM := .inFlight { r with status := .normal }, slotX := .empty }
  | .haltMarker | .inFlight _ => { s with slotX := .inFlight { r with status := .stalled } }

/-- Execute's part for an instruction that computes `f` (R160, R163). -/
def executeResult (f : Decoded → Word) (s : State) : State :=
  match s.slotX with
  | .inFlight r => leaveExecute { r with result := f r } s
  | .empty | .haltMarker => s

/-- The squash (R162): F, D and X emptied, the fetch in progress aborted, fetching allowed again. -/
def squash (s : State) : State :=
  { abort { s with slotF := none, slotD := .empty, slotX := .empty } .fetch with fetchStopped := false }

/-- A taken control instruction with target `t` (R161): it goes with the Execute slot and is counted here. -/
def takeControl (t : Word) (s : State) : State :=
  { squash { s with pc := t } with instrs := s.instrs + 1 }

/-- Execute's part for a control instruction whose condition is `taken` (R160, R161, R163). -/
def executeControl (taken : Decoded → Bool) (s : State) : State :=
  match s.slotX with
  | .inFlight r =>
    if taken r then takeControl (controlTarget r.addr r.imm) s
    else leaveExecute { r with result := controlTarget r.addr r.imm } s
  | .empty | .haltMarker => s

/-! ### Memory: part 2 -/

/-- The instruction leaves M for W, which part 1 has just cleared (R156). -/
def leaveMemory (r : Decoded) (s : State) : State :=
  { s with slotW := .inFlight { r with status := .normal }, slotM := .empty }

/-- Memory's part for an instruction whose type is not MEMORY: `writeback_val <- result` (R157). -/
def passMemory (s : State) : State :=
  match s.slotM with
  | .inFlight r => leaveMemory { r with writebackVal := r.result } s
  | .empty | .haltMarker => s

/-- Memory's part for a LOAD (R130, R132, R157, R158). Out of range, `has_writeback` is cleared as it moves to W, which
releases a consumer held in D in this same step (log 22). -/
def loadMemory (s : State) : State :=
  match s.slotM with
  | .inFlight r =>
    if inRange s r.result then
      match hRead s r.result.toNat .mem with
      | (s', .done w) => leaveMemory { r with writebackVal := w } s'
      | (s', .wait) => { s' with slotM := .inFlight { r with status := .stalled } }
    else leaveMemory { r with hasWriteback := false } s
  | .empty | .haltMarker => s

/-- Memory's part for a STR (R131, R132, R157, R158). -/
def storeMemory (s : State) : State :=
  match s.slotM with
  | .inFlight r =>
    if inRange s r.result then
      match hWrite s r.result.toNat r.op3 .mem with
      | (s', .done _) => leaveMemory r s'
      | (s', .wait) => { s' with slotM := .inFlight { r with status := .stalled } }
    else leaveMemory { r with hasWriteback := false } s
  | .empty | .haltMarker => s

/-! ### Writeback: part 1 -/

/-- Writeback's part for an instruction: the register is written if the record says so, the instruction is counted, and
the slot is cleared (R153). -/
def commit (s : State) : State :=
  match s.slotW with
  | .inFlight r =>
    let s' := if r.hasWriteback then writeReg s r.rd r.writebackVal else s
    { s' with instrs := s'.instrs + 1, slotW := .empty }
  | .empty | .haltMarker => s

/-! ### HALT in the pipeline (R144, R154, R164, R169) -/

/-- Fetch's part for the sentinel, or for an address out of range: `Halt` is latched and fetching stops (R169). -/
def latchHalt (s : State) : State :=
  match s.slotF with
  | some f => { s with slotF := some { f with latched := .halt }, fetchStopped := true }
  | none => s

/-- The halt marker leaves D for X if X is free (R164). -/
def moveMarkerFromDecode (s : State) : State :=
  match s.slotD, s.slotX with
  | .haltMarker, .empty => { s with slotX := .haltMarker, slotD := .empty }
  | _, _ => s

/-- The halt marker leaves X for M if M is free (R164). -/
def moveMarkerFromExecute (s : State) : State :=
  match s.slotX, s.slotM with
  | .haltMarker, .empty => { s with slotM := .haltMarker, slotX := .empty }
  | _, _ => s

/-- The halt marker leaves M for W unconditionally (R156). -/
def moveMarkerFromMemory (s : State) : State :=
  match s.slotM with
  | .haltMarker => { s with slotW := .haltMarker, slotM := .empty }
  | .empty | .inFlight _ => s

/-- Writeback processes the halt marker: the machine is stopped (R154). -/
def commitMarker (s : State) : State :=
  match s.slotW with
  | .haltMarker => { s with stopped := true, slotW := .empty }
  | .empty | .inFlight _ => s

end Sys2Proof.Machine
end

