-- ==== Sys2Proof/Machine/Alu.lean ====
section
/-! DEFINITION. The meanings of ADD, SUB, ADDI and LDI (40_alu.md R120 to R123, R125, R126): the architectural effect
in phase `program`, the stage behaviour in the others (00_scope.md R10). -/

namespace Sys2Proof.Machine

/-- ADD (R120). -/
def execAdd (rd rs1 rs2 : RegIdx) (ign : BitVec 15) (s : State) : Host.Outcome State Fault Refusal :=
  match s.phase with
  | .program => .next (retire (writeReg s rd (readReg s rs1 + readReg s rs2)))
  | .fetch => .next s
  | .decode => .next (issueDecode (addFields rd rs1 rs2 ign) s)
  | .execute => .next (executeResult (fun r => r.op1 + r.op2) s)
  | .memory => .next (passMemory s)
  | .writeback => .next (commit s)

/-- SUB (R121). -/
def execSub (rd rs1 rs2 : RegIdx) (ign : BitVec 15) (s : State) : Host.Outcome State Fault Refusal :=
  match s.phase with
  | .program => .next (retire (writeReg s rd (readReg s rs1 - readReg s rs2)))
  | .fetch => .next s
  | .decode => .next (issueDecode (subFields rd rs1 rs2 ign) s)
  | .execute => .next (executeResult (fun r => r.op1 - r.op2) s)
  | .memory => .next (passMemory s)
  | .writeback => .next (commit s)

/-- ADDI (R122). -/
def execAddi (rd rs1 : RegIdx) (imm : BitVec 19) (s : State) : Host.Outcome State Fault Refusal :=
  match s.phase with
  | .program => .next (retire (writeReg s rd (readReg s rs1 + sext imm)))
  | .fetch => .next s
  | .decode => .next (issueDecode (addiFields rd rs1 imm) s)
  | .execute => .next (executeResult (fun r => r.op1 + r.imm) s)
  | .memory => .next (passMemory s)
  | .writeback => .next (commit s)

/-- LDI (R123). -/
def execLdi (rd : RegIdx) (imm : BitVec 23) (s : State) : Host.Outcome State Fault Refusal :=
  match s.phase with
  | .program => .next (retire (writeReg s rd (sext imm)))
  | .fetch => .next s
  | .decode => .next (issueDecode (ldiFields rd imm) s)
  | .execute => .next (executeResult (fun r => r.imm) s)
  | .memory => .next (passMemory s)
  | .writeback => .next (commit s)

end Sys2Proof.Machine
end

