-- ==== Sys2Proof/Machine/Control.lean ====
section
/-! DEFINITION. The meanings of BC, J and HALT (42_control.md R140 to R145): the architectural effect in phase
`program`, where the instruction's own fetch address is `pc`, and the stage behaviour in the others (00_scope.md R10). -/

namespace Sys2Proof.Machine

/-- BC (R141). A taken BC leaves the pipeline at Execute; one that is not taken passes Memory and Writeback. -/
def execBc (cc : Cond) (ra rb : RegIdx) (disp : BitVec 17) (s : State) : Host.Outcome State Fault Refusal :=
  match s.phase with
  | .program =>
    .next (if condHolds cc (readReg s ra) (readReg s rb) then retireTo s (controlTarget s.pc (sext disp)) else retire s)
  | .fetch => .next s
  | .decode => .next (issueDecode (bcFields cc ra rb disp) s)
  | .execute => .next (executeControl (fun r => condCodeHolds r.cond r.op1 r.op2) s)
  | .memory => .next (passMemory s)
  | .writeback => .next (commit s)

/-- J (R142): always taken. `ign` is the ignored field f1 (R104). -/
def execJ (_ign : RegIdx) (disp : BitVec 23) (s : State) : Host.Outcome State Fault Refusal :=
  match s.phase with
  | .program => .next (retireTo s (controlTarget s.pc (sext disp)))
  | .fetch => .next s
  | .decode => .next (issueDecode (jFields disp) s)
  | .execute => .next (executeControl (fun _ => true) s)
  | .memory => .next (passMemory s)
  | .writeback => .next (commit s)

/-- HALT (R144): recognised at Fetch, then a marker that queues behind the older instructions (R164) and stops the
machine when Writeback processes it (R154). -/
def execHalt (s : State) : Host.Outcome State Fault Refusal :=
  match s.phase with
  | .program => .next (signalHalt s)
  | .fetch => .next (latchHalt s)
  | .decode => .next (moveMarkerFromDecode s)
  | .execute => .next (moveMarkerFromExecute s)
  | .memory => .next (moveMarkerFromMemory s)
  | .writeback => .next (commitMarker s)

end Sys2Proof.Machine
end

