-- ==== Sys2Proof/Machine/LoadStore.lean ====
section
/-! DEFINITION. The meanings of LOAD and STR (41_memory_ops.md R130 to R133): the architectural effect in phase
`program`, the stage behaviour in the others (00_scope.md R10). -/

namespace Sys2Proof.Machine

/-- LOAD (R130): out of range it writes nothing (R132). `ign` is the ignored field f3 (R104). -/
def execLoad (rd rs1 _ign : RegIdx) (imm : BitVec 15) (s : State) : Host.Outcome State Fault Refusal :=
  match s.phase with
  | .program =>
    let ea := effectiveAddr (readReg s rs1) imm
    .next (retire (if inRange s ea then writeReg s rd (amem s ea.toNat) else s))
  | .fetch => .next s
  | .decode => .next (issueDecode (loadFields rd rs1 imm) s)
  | .execute => .next (executeResult (fun r => r.op1 + r.imm) s)
  | .memory => .next (loadMemory s)
  | .writeback => .next (commit s)

/-- STR (R131): out of range it stores nothing (R132). `ign` is the ignored field f3 (R104). -/
def execStr (rsd rs1 _ign : RegIdx) (imm : BitVec 15) (s : State) : Host.Outcome State Fault Refusal :=
  match s.phase with
  | .program =>
    let ea := effectiveAddr (readReg s rs1) imm
    .next (retire (if inRange s ea then memWrite s ea.toNat (readReg s rsd) else s))
  | .fetch => .next s
  | .decode => .next (issueDecode (strFields rsd rs1 imm) s)
  | .execute => .next (executeResult (fun r => r.op1 + r.imm) s)
  | .memory => .next (storeMemory s)
  | .writeback => .next (commit s)

end Sys2Proof.Machine
end

