-- ==== Sys2Proof/Machine/Nop.lean ====
section
/-! DEFINITION. The meanings of NOP (40_alu.md R124): the reserved opcode 9 and every unassigned opcode (30_encoding.md
R101). The low 27 bits are ignored. -/

namespace Sys2Proof.Machine

/-- What every unassigned opcode does (R124): in program order only the count and the `pc` move; in the pipeline it has
no sources, computes 0, makes no request and writes nothing. -/
def performNop (s : State) : State :=
  match s.phase with
  | .program => retire s
  | .fetch => s
  | .decode => issueDecode nopFields s
  | .execute => executeResult (fun _ => 0) s
  | .memory => passMemory s
  | .writeback => commit s

/-- NOP, the reserved opcode 9 (R124, R106). -/
def execNop (_ign : BitVec 27) (s : State) : Host.Outcome State Fault Refusal := .next (performNop s)

/-- The unassigned opcode 0 (a word other than 0, R102) (R124). -/
def execNopOp0 (_ign : BitVec 27) (s : State) : Host.Outcome State Fault Refusal := .next (performNop s)

/-- The unassigned opcode 10 (R124). -/
def execNopOp10 (_ign : BitVec 27) (s : State) : Host.Outcome State Fault Refusal := .next (performNop s)

/-- The unassigned opcode 11 (R124). -/
def execNopOp11 (_ign : BitVec 27) (s : State) : Host.Outcome State Fault Refusal := .next (performNop s)

/-- The unassigned opcode 12 (R124). -/
def execNopOp12 (_ign : BitVec 27) (s : State) : Host.Outcome State Fault Refusal := .next (performNop s)

/-- The unassigned opcode 13 (R124). -/
def execNopOp13 (_ign : BitVec 27) (s : State) : Host.Outcome State Fault Refusal := .next (performNop s)

/-- The unassigned opcode 14 (R124). -/
def execNopOp14 (_ign : BitVec 27) (s : State) : Host.Outcome State Fault Refusal := .next (performNop s)

/-- The unassigned opcode 15 (R124). -/
def execNopOp15 (_ign : BitVec 27) (s : State) : Host.Outcome State Fault Refusal := .next (performNop s)

/-- The unassigned opcode 16 (R124). -/
def execNopOp16 (_ign : BitVec 27) (s : State) : Host.Outcome State Fault Refusal := .next (performNop s)

/-- The unassigned opcode 17 (R124). -/
def execNopOp17 (_ign : BitVec 27) (s : State) : Host.Outcome State Fault Refusal := .next (performNop s)

/-- The unassigned opcode 18 (R124). -/
def execNopOp18 (_ign : BitVec 27) (s : State) : Host.Outcome State Fault Refusal := .next (performNop s)

/-- The unassigned opcode 19 (R124). -/
def execNopOp19 (_ign : BitVec 27) (s : State) : Host.Outcome State Fault Refusal := .next (performNop s)

/-- The unassigned opcode 20 (R124). -/
def execNopOp20 (_ign : BitVec 27) (s : State) : Host.Outcome State Fault Refusal := .next (performNop s)

/-- The unassigned opcode 21 (R124). -/
def execNopOp21 (_ign : BitVec 27) (s : State) : Host.Outcome State Fault Refusal := .next (performNop s)

/-- The unassigned opcode 22 (R124). -/
def execNopOp22 (_ign : BitVec 27) (s : State) : Host.Outcome State Fault Refusal := .next (performNop s)

/-- The unassigned opcode 23 (R124). -/
def execNopOp23 (_ign : BitVec 27) (s : State) : Host.Outcome State Fault Refusal := .next (performNop s)

/-- The unassigned opcode 24 (R124). -/
def execNopOp24 (_ign : BitVec 27) (s : State) : Host.Outcome State Fault Refusal := .next (performNop s)

/-- The unassigned opcode 25 (R124). -/
def execNopOp25 (_ign : BitVec 27) (s : State) : Host.Outcome State Fault Refusal := .next (performNop s)

/-- The unassigned opcode 26 (R124). -/
def execNopOp26 (_ign : BitVec 27) (s : State) : Host.Outcome State Fault Refusal := .next (performNop s)

/-- The unassigned opcode 27 (R124). -/
def execNopOp27 (_ign : BitVec 27) (s : State) : Host.Outcome State Fault Refusal := .next (performNop s)

/-- The unassigned opcode 28 (R124). -/
def execNopOp28 (_ign : BitVec 27) (s : State) : Host.Outcome State Fault Refusal := .next (performNop s)

/-- The unassigned opcode 29 (R124). -/
def execNopOp29 (_ign : BitVec 27) (s : State) : Host.Outcome State Fault Refusal := .next (performNop s)

/-- The unassigned opcode 30 (R124). -/
def execNopOp30 (_ign : BitVec 27) (s : State) : Host.Outcome State Fault Refusal := .next (performNop s)

/-- The unassigned opcode 31 (R124). -/
def execNopOp31 (_ign : BitVec 27) (s : State) : Host.Outcome State Fault Refusal := .next (performNop s)

end Sys2Proof.Machine
end

