-- ==== Sys2Proof/Machine/Dispatch.lean ====
section
/-! DEFINITION. One arm per instruction: its meaning. -/

namespace Sys2Proof.Machine

def exec (i : Instr) (s : State) : Host.Outcome State Fault Refusal :=
  match i with
  | .halt => Sys2Proof.Machine.execHalt s
  | .add rd rs1 rs2 ign => Sys2Proof.Machine.execAdd rd rs1 rs2 ign s
  | .sub rd rs1 rs2 ign => Sys2Proof.Machine.execSub rd rs1 rs2 ign s
  | .addi rd rs1 imm => Sys2Proof.Machine.execAddi rd rs1 imm s
  | .ldi rd imm => Sys2Proof.Machine.execLdi rd imm s
  | .load rd rs1 ign imm => Sys2Proof.Machine.execLoad rd rs1 ign imm s
  | .str rsd rs1 ign imm => Sys2Proof.Machine.execStr rsd rs1 ign imm s
  | .bc cc ra rb disp => Sys2Proof.Machine.execBc cc ra rb disp s
  | .j ign disp => Sys2Proof.Machine.execJ ign disp s
  | .nop ign => Sys2Proof.Machine.execNop ign s
  | .nopOp0 ign => Sys2Proof.Machine.execNopOp0 ign s
  | .nopOp10 ign => Sys2Proof.Machine.execNopOp10 ign s
  | .nopOp11 ign => Sys2Proof.Machine.execNopOp11 ign s
  | .nopOp12 ign => Sys2Proof.Machine.execNopOp12 ign s
  | .nopOp13 ign => Sys2Proof.Machine.execNopOp13 ign s
  | .nopOp14 ign => Sys2Proof.Machine.execNopOp14 ign s
  | .nopOp15 ign => Sys2Proof.Machine.execNopOp15 ign s
  | .nopOp16 ign => Sys2Proof.Machine.execNopOp16 ign s
  | .nopOp17 ign => Sys2Proof.Machine.execNopOp17 ign s
  | .nopOp18 ign => Sys2Proof.Machine.execNopOp18 ign s
  | .nopOp19 ign => Sys2Proof.Machine.execNopOp19 ign s
  | .nopOp20 ign => Sys2Proof.Machine.execNopOp20 ign s
  | .nopOp21 ign => Sys2Proof.Machine.execNopOp21 ign s
  | .nopOp22 ign => Sys2Proof.Machine.execNopOp22 ign s
  | .nopOp23 ign => Sys2Proof.Machine.execNopOp23 ign s
  | .nopOp24 ign => Sys2Proof.Machine.execNopOp24 ign s
  | .nopOp25 ign => Sys2Proof.Machine.execNopOp25 ign s
  | .nopOp26 ign => Sys2Proof.Machine.execNopOp26 ign s
  | .nopOp27 ign => Sys2Proof.Machine.execNopOp27 ign s
  | .nopOp28 ign => Sys2Proof.Machine.execNopOp28 ign s
  | .nopOp29 ign => Sys2Proof.Machine.execNopOp29 ign s
  | .nopOp30 ign => Sys2Proof.Machine.execNopOp30 ign s
  | .nopOp31 ign => Sys2Proof.Machine.execNopOp31 ign s

end Sys2Proof.Machine
end

