-- ==== Sys2Proof/Machine/Stages.lean ====
section
/-! DEFINITION. The six parts of one step (50_pipeline.md R150, R152): each part of a stage runs the stage behaviour
of the instruction in its slot, which is `exec` of that instruction in that phase; the parts that do not depend on the
instruction (the fetch read, the move to Decode, the injection) stand here. Also the program-order machine of
00_scope.md R10. -/

namespace Sys2Proof.Machine

/-- `f` on the next state, a stop staying a stop. -/
def andThen (o : Host.Outcome State Fault Refusal) (f : State → Host.Outcome State Fault Refusal) :
    Host.Outcome State Fault Refusal :=
  match o with
  | .next s => f s
  | .fault r => .fault r
  | .refused r => .refused r

/-- The meaning of `i` in phase `p`; afterwards the phase is again what it was. -/
def runPhase (p : Phase) (i : Instr) (s : State) : Host.Outcome State Fault Refusal :=
  andThen (exec i (inPhase s p)) fun t => .next (inPhase t s.phase)

/-- The instruction in X, M or W: the one its word decodes to (R105), or HALT for its marker (R164);
the kind in its record is not looked at again (log 13). -/
def slotInstr : Slot Decoded → Option Instr
  | .empty => none
  | .haltMarker => some .halt
  | .inFlight r => some (decodeOp r.raw)

/-- The instruction in D (R165, R167). -/
def decodeSlotInstr : Slot DecodeEntry → Option Instr
  | .empty => none
  | .haltMarker => some .halt
  | .inFlight q => some (decodeOp q.raw)

/-- A part of the step for the instruction in its slot, if there is one. -/
def runSlot (p : Phase) (i : Option Instr) (s : State) : Host.Outcome State Fault Refusal :=
  match i with
  | none => .next s
  | some i => runPhase p i s

/-- Part 1, Writeback (R153, R154). -/
def writebackPart (s : State) : Host.Outcome State Fault Refusal := runSlot .writeback (slotInstr s.slotW) s

/-- Part 2, Memory (R156 to R158). -/
def memoryPart (s : State) : Host.Outcome State Fault Refusal := runSlot .memory (slotInstr s.slotM) s

/-- Part 3, Execute (R160 to R164). -/
def executePart (s : State) : Host.Outcome State Fault Refusal := runSlot .execute (slotInstr s.slotX) s

/-- Part 4, Decode (R164 to R167). -/
def decodePart (s : State) : Host.Outcome State Fault Refusal := runSlot .decode (decodeSlotInstr s.slotD) s

/-- The word latched in F moves to D if D is free, `pc` advancing with a word and not with a halt; else F stalls
(R170, R171). -/
def advanceFetch (s : State) : State :=
  match s.slotF with
  | none => s
  | some f =>
    match f.latched with
    | .outstanding => s
    | .halt =>
      match s.slotD with
      | .empty => { s with slotD := .haltMarker, slotF := none }
      | .haltMarker | .inFlight _ => { s with slotF := some { f with status := .stalled } }
    | .word w =>
      match s.slotD with
      | .empty =>
        { s with slotD := .inFlight { addr := f.addr, raw := w, status := .normal }, pc := s.pc + 1, slotF := none }
      | .haltMarker | .inFlight _ => { s with slotF := some { f with status := .stalled } }

/-- Part 5, Fetch (R168 to R171). A word that is read is latched, and the instruction it is acts in phase `fetch`: HALT
latches `Halt` and stops fetching, every other does nothing there. An address out of range acts as HALT (R145). -/
def fetchPart (s : State) : Host.Outcome State Fault Refusal :=
  match s.slotF with
  | none => .next s
  | some f =>
    match f.latched with
    | .outstanding =>
      if inRange s f.addr then
        match hRead s f.addr.toNat .fetch with
        | (s', .wait) => .next { s' with slotF := some { f with status := .stalled } }
        | (s', .done w) =>
          andThen (runPhase .fetch (decodeWord w) { s' with slotF := some { f with latched := .word w } })
            fun t => .next (advanceFetch t)
      else andThen (runPhase .fetch .halt s) fun t => .next (advanceFetch t)
    | .word _ | .halt => .next (advanceFetch s)

/-- D, X, M and W are all empty (R172). -/
def backEndEmpty (s : State) : Bool :=
  s.slotD == .empty && s.slotX == .empty && s.slotM == .empty && s.slotW == .empty

/-- Part 6, injection (R172). -/
def injectPart (s : State) : State :=
  if s.slotF = none && !s.fetchStopped && (s.pipelineEnabled || backEndEmpty s) then
    { s with slotF := some { addr := s.pc, latched := .outstanding, status := .normal } }
  else s

/-- The six parts in the order of R150. -/
def stepParts (s : State) : Host.Outcome State Fault Refusal :=
  andThen (writebackPart s) fun s1 =>
  andThen (memoryPart s1) fun s2 =>
  andThen (executePart s2) fun s3 =>
  andThen (decodePart s3) fun s4 =>
  andThen (fetchPart s4) fun s5 =>
  .next (injectPart s5)

/-- One clock cycle (R150 to R152): a stopped machine changes nothing (R151), any other counts the step and runs the
parts. A state whose configuration is illegal is no machine and is refused (R6; log 12). -/
def cycle (s : State) : Host.Outcome State Fault Refusal :=
  if s.cfg.legal then
    if s.stopped then .next s else stepParts { s with cycles := s.cycles + 1 }
  else .refused .illegalConfiguration

/-- One instruction in program order (R10, level 1): fetched from `AMem(pc)`, a fetch out of range being HALT (R145). -/
def programStep (s : State) : Host.Outcome State Fault Refusal :=
  if s.stopped then .next s
  else if inRange s s.pc then runPhase .program (decodeWord (amem s s.pc.toNat)) s
  else runPhase .program .halt s

/-- The state that the next fetch of `s` finds the word `w` in: RAM at `pc` and the cache's copy of it hold `w`, the
Fetch slot holds a fetch at `pc` whose read is outstanding, nothing older is in flight, the port is free and nothing
stops the fetch (log 11). -/
def placeWord (s : State) (w : Word) : State :=
  let s1 := forceWrite s s.pc.toNat w
  let s2 := if inRange s s.pc && hitAt s s.pc.toNat then
      setLine s1 (lineIndex s.cfg s.pc.toNat)
        { lineAt s (lineIndex s.cfg s.pc.toNat) with
          data := (lineAt s (lineIndex s.cfg s.pc.toNat)).data.set (offsetOf s.cfg s.pc.toNat) w }
    else s1
  { s2 with
    slotF := some { addr := s.pc, latched := .outstanding, status := .normal }
    slotD := .empty
    slotX := .empty
    slotM := .empty
    slotW := .empty
    port := none
    fetchStopped := false
    stopped := false }

end Sys2Proof.Machine
end

