-- ==== Sys2Proof/Machine/Step.lean ====
section
/-! DEFINITION. The machine's step, one clock cycle (50_pipeline.md R150), and where it fetches its next instruction. -/

namespace Sys2Proof.Machine

/-- `step()` of R152. Its return value RUNNING or HALT is read from the next state: HALT exactly when `stopped` is true
(R154; log 3). -/
def step (s : State) : Host.Outcome State Fault Refusal := cycle s

/-- `s` with the instruction whose bits are `w` where the next step's Fetch part reads (log 11). -/
def State.withFetchWord (s : State) (nbits w : Nat) : State :=
  placeWord s (BitVec.ofNat 32 (w % 2 ^ nbits))

end Sys2Proof.Machine
end

