-- ==== Sys2Proof/Machine/HostOps.lean ====
section
/-! DEFINITION. The host's operations (70_reset_and_hazards.md R230 to R249), which act only between steps and take no
cycles (R248, R255). A step's return value is read from the state it leaves (log 3). None of them is a
step (log 18). -/

namespace Sys2Proof.Machine

/-- The return value of `step()` (R41 d, R154). -/
inductive Signal where
  | running | halt
  deriving DecidableEq, Repr

/-- The return value of the step that left `s`: HALT exactly when the machine is stopped (R151, R154). -/
def signal (s : State) : Signal := if s.stopped then .halt else .running

/-- Construction: an illegal configuration is refused, a legal one gives the power-on state (R6, R207, R232). -/
def construct (c : Config) (pipelineEnabled cacheEnabled : Bool) : Host.Outcome State Fault Refusal :=
  if c.legal then .next (State.powerOn c pipelineEnabled cacheEnabled) else .refused .illegalConfiguration

/-- `reset(pipelineEnabled, cacheEnabled)` (R230, R231, R36): everything as at power-on but RAM, which is kept; dirty
lines are discarded (R234). -/
def hostReset (pipelineEnabled cacheEnabled : Bool) (s : State) : State :=
  { State.powerOn s.cfg pipelineEnabled cacheEnabled with ram := s.ram }

/-- `forceWrite(i + k, words[k])` for every `k`, in order (R240). -/
def loadAt (i : Nat) : List Word → State → State
  | [], s => s
  | w :: ws, s => loadAt (i + 1) ws (forceWrite s i w)

/-- `load(words)` (R240): words beyond RAM are dropped and nothing but RAM changes. -/
def load (words : List Word) (s : State) : State := loadAt 0 words s

/-- The test bench's preset of a register (R249; log 21); not an operation of the machine. -/
def presetReg (r : RegIdx) (v : Word) (s : State) : State := writeReg s r v

/-- `n` calls of `step()`, whatever they return. -/
def cyclesN : Nat → State → Host.Outcome State Fault Refusal
  | 0, s => .next s
  | n + 1, s => andThen (step s) fun t => cyclesN n t

/-- `run(maxCycles)` (R242): at most `n` steps, stopping early at HALT; the call's result is `signal` of the state it
leaves. -/
def run : Nat → State → Host.Outcome State Fault Refusal
  | 0, s => .next s
  | n + 1, s => andThen (step s) fun t => match signal t with
    | .halt => .next t
    | .running => run n t

/-- `run()` without a budget (R242) returns in state `t`: some number of steps ends in HALT. For a program that never
halts there is no such `t` (log 14). -/
def RunsToHalt (s t : State) : Prop := ∃ n, run (n + 1) s = .next t ∧ signal t = .halt

/-- Why `runToBreakpoint` returned. -/
inductive BreakReason where
  /-- A step returned HALT. -/
  | halt
  /-- `pc` equalled the breakpoint after a step. -/
  | breakpoint
  /-- The model's own: the budget of steps ran out (log 14). -/
  | budget
  deriving DecidableEq, Repr

/-- `runToBreakpoint(bp)` (R243), for at most `n` steps (log 14): HALT is tested before the breakpoint, both after each
step and never before the first. -/
def runToBreakpoint (bp : Word) : Nat → State → Host.Outcome (State × BreakReason) Fault Refusal
  | 0, s => .next (s, .budget)
  | n + 1, s =>
    match step s with
    | .next t =>
      if signal t = .halt then .next (t, .halt)
      else if t.pc = bp then .next (t, .breakpoint)
      else runToBreakpoint bp n t
    | .fault r => .fault r
    | .refused r => .refused r

/-- `readRegister(i)` (R245): signed; 0 for an index that names no register. -/
def readRegister (s : State) (i : Nat) : Int :=
  if h : i < 32 then (if i < s.cfg.nregs then (s.x[i]'h).toInt else 0) else 0

/-- `programCounter()` (R245). -/
def programCounter (s : State) : Nat := s.pc.toNat

/-- `cycleCount()` (R246). -/
def cycleCount (s : State) : Nat := s.cycles

/-- `instructionCount()` (R246). -/
def instructionCount (s : State) : Nat := s.instrs

/-- `cacheHits()` (R246). -/
def cacheHits (s : State) : Nat := s.hits

/-- `cacheMisses()` (R246). -/
def cacheMisses (s : State) : Nat := s.misses

/-- The contents `stageDisplay` shows of a slot (R247, R173); its text is presentation (R4 d; log 15). -/
inductive SlotView where
  | empty
  | haltMarker
  /-- An occupant: its address, its word where known, its kind where known, its status. In F, whether a word or a halt
  is latched. -/
  | occupant (addr : Word) (raw : Option Word) (kind : Option Kind) (status : Status) (latched : Option Latched)
  deriving DecidableEq, Repr

/-- The view of the Fetch slot. -/
def viewFetch : Option FetchEntry → SlotView
  | none => .empty
  | some f =>
    let raw := match f.latched with
      | .word w => some w
      | .outstanding | .halt => none
    .occupant f.addr raw (raw.map fun w => (fieldsOf (decodeOp w)).kind) f.status (some f.latched)

/-- The view of the Decode slot. -/
def viewDecode : Slot DecodeEntry → SlotView
  | .empty => .empty
  | .haltMarker => .haltMarker
  | .inFlight q => .occupant q.addr (some q.raw) (some (fieldsOf (decodeOp q.raw)).kind) q.status none

/-- The view of X, M or W. -/
def viewRecord : Slot Decoded → SlotView
  | .empty => .empty
  | .haltMarker => .haltMarker
  | .inFlight r => .occupant r.addr (some r.raw) (some r.kind) r.status none

/-- `stageDisplay(stageIndex)`: 0 to 4 are F, D, X, M, W; any other index answers nothing (R247). -/
def stageDisplay (s : State) (stageIndex : Nat) : Option SlotView :=
  match stageIndex with
  | 0 => some (viewFetch s.slotF)
  | 1 => some (viewDecode s.slotD)
  | 2 => some (viewRecord s.slotX)
  | 3 => some (viewRecord s.slotM)
  | 4 => some (viewRecord s.slotW)
  | _ => none

/-- `inspectMemory(RAM, k)`: the raw words of RAM row `k`, nothing for an index out of range (R247). -/
def inspectRam (s : State) (k : Nat) : Option (List Word) :=
  if k < s.cfg.ramWords / s.cfg.wordsPerLine then
    some (s.ram.readBlock (k * s.cfg.wordsPerLine) s.cfg.wordsPerLine)
  else none

/-- `inspectMemory(CACHE, k)`: line `k` with its metadata, nothing for an index out of range (R247). -/
def inspectCache (s : State) (k : Nat) : Option Line :=
  if k < s.cfg.cacheLines then some (lineAt s k) else none

end Sys2Proof.Machine
end

