-- ==== Sys2Proof/Safety.lean ====
section
/-! DEFINITION. What counts as a sound state of the machine: the invariants the spec gives for its slots (10_state.md
R31), its cache (20_memory.md R77) and its port (R31 f, R73), with what keeps them true from one step to the next. Every
clause is decidable, so that a concrete state can be checked. -/

namespace Sys2Proof.Machine

/-- The record in a slot, if the slot is `InFlight`. -/
def Slot.record? {α : Type} : Slot α → Option α
  | .inFlight r => some r
  | .empty | .haltMarker => none

/-- 1 for an occupied slot (a halt marker occupies it), 0 for an empty one. -/
def Slot.load {α : Type} : Slot α → Nat
  | .empty => 0
  | .haltMarker | .inFlight _ => 1

/-- How many of the five slots are occupied. -/
def occupancy (s : State) : Nat :=
  (if s.slotF.isSome then 1 else 0) + s.slotD.load + s.slotX.load + s.slotM.load + s.slotW.load

/-- Some slot carries a halt marker, or F has `Halt` latched (R31 b, c). -/
def markerPresent (s : State) : Bool :=
  s.slotW == .haltMarker || s.slotM == .haltMarker || s.slotX == .haltMarker || s.slotD == .haltMarker ||
    s.slotF.any fun f => f.latched == .halt

/-- The instruction kind a word decodes to. -/
def kindOf (raw : Word) : Kind := (fieldsOf (decodeOp raw)).kind

/-- The record is the decode of its own word in every field that decode sets but `hasWriteback`, which the Memory stage
may clear (R105, R132). -/
abbrev Decoded.faithful (r : Decoded) : Prop :=
  { r with op1 := 0, op2 := 0, op3 := 0, result := 0, writebackVal := 0, status := .normal,
           hasWriteback := (decodeRecord r.raw r.addr).hasWriteback } = decodeRecord r.raw r.addr

/-- RAM is in canonical form and lists no address outside `0 .. RAM_WORDS-1` (R32, R50). -/
structure RamOk (s : State) : Prop where
  canonical : s.ram.wf = true
  inside : ∀ c ∈ s.ram, c.1 < s.cfg.ramWords

/-- The cache (R33, R77). -/
structure CacheOk (s : State) : Prop where
  /-- There are `CACHE_LINES` lines (R33). -/
  count : s.lines.length = s.cfg.cacheLines
  /-- Each holds `WORDS_PER_LINE` words (R33). -/
  width : ∀ l ∈ s.lines, l.data.length = s.cfg.wordsPerLine
  /-- The block a valid line holds lies in RAM (R67, R77 a). -/
  inside : ∀ k < s.cfg.cacheLines, (lineAt s k).valid = true →
    blockBase s.cfg (lineAt s k).tag k + s.cfg.wordsPerLine ≤ s.cfg.ramWords
  /-- A valid line that is not dirty equals RAM at its block (R77 b). -/
  clean : ∀ k < s.cfg.cacheLines, (lineAt s k).valid = true → (lineAt s k).dirty = false →
    ∀ j < s.cfg.wordsPerLine, (lineAt s k).data.getD j 0 = s.ram.read (blockBase s.cfg (lineAt s k).tag k + j)
  /-- With the cache disabled it stays as reset left it (R33). -/
  disabled : s.cacheEnabled = false → ∀ l ∈ s.lines, l = Line.reset s.cfg.wordsPerLine

/-- The arbiter and the counters it moves (R34, R65, R68, R71). -/
structure PortOk (s : State) : Prop where
  /-- With the cache disabled nothing is ever outstanding and nothing is counted (R65). -/
  disabled : s.cacheEnabled = false → s.port = none ∧ s.hits = 0 ∧ s.misses = 0
  /-- An access being counted down has WAIT cycles left and is inside RAM (R55, R69). -/
  counting : ∀ p ∈ s.port, 1 ≤ p.count ∧ p.pending.addr < s.cfg.ramWords
  /-- The line a missing access will fill is not dirty: it was flushed at acceptance (R68). -/
  victim : ∀ p ∈ s.port, hitAt s p.pending.addr = false →
    (lineAt s (lineIndex s.cfg p.pending.addr)).valid = true → (lineAt s (lineIndex s.cfg p.pending.addr)).dirty = false

/-- Who owns the port, and for what (R31 f): the pending request is the one the owning stage issues again in the next
step, so the pipeline never issues a different one (R72, R73). -/
structure OwnerOk (s : State) : Prop where
  fetch : ∀ p ∈ s.port, p.owner = .fetch → ∃ f ∈ s.slotF, f.latched = .outstanding ∧ inRange s f.addr = true ∧
    p.pending = { kind := .read, addr := f.addr.toNat, value := 0 }
  mem : ∀ p ∈ s.port, p.owner = .mem → ∃ r ∈ s.slotM.record?, inRange s r.result = true ∧
    ((kindOf r.raw = .load ∧ p.pending = { kind := .read, addr := r.result.toNat, value := 0 }) ∨
     (kindOf r.raw = .str ∧ p.pending = { kind := .write, addr := r.result.toNat, value := r.op3 }))

/-- The slots (R31). -/
structure SlotsOk (s : State) : Prop where
  /-- A fetch is at `pc` (R31 d). -/
  fetchAtPc : ∀ f ∈ s.slotF, f.addr = s.pc
  /-- Every slot younger than a halt marker is empty (R31 b). -/
  behindW : s.slotW = .haltMarker → s.slotM = .empty ∧ s.slotX = .empty ∧ s.slotD = .empty ∧ s.slotF = none
  behindM : s.slotM = .haltMarker → s.slotX = .empty ∧ s.slotD = .empty ∧ s.slotF = none
  behindX : s.slotX = .haltMarker → s.slotD = .empty ∧ s.slotF = none
  behindD : s.slotD = .haltMarker → s.slotF = none
  /-- `fetch_stopped` is true exactly when a marker is in the pipeline or the machine is stopped (R31 c). -/
  fetchStopped : s.fetchStopped = (markerPresent s || s.stopped)
  /-- After HALT every slot is empty (R154). -/
  stoppedEmpty : s.stopped = true → occupancy s = 0
  /-- Not pipelined: at most one slot is occupied (R31 e). -/
  serial : s.pipelineEnabled = false → occupancy s ≤ 1

/-- What the occupied slots hold (R27, R28, R105). -/
structure RecordsOk (s : State) : Prop where
  /-- The sentinel is never latched as a word and never decoded (R102). -/
  wordF : ∀ f ∈ s.slotF, f.latched ≠ .word haltWord
  wordD : ∀ q ∈ s.slotD.record?, q.raw ≠ haltWord
  wordX : ∀ r ∈ s.slotX.record?, r.raw ≠ haltWord
  wordM : ∀ r ∈ s.slotM.record?, r.raw ≠ haltWord
  wordW : ∀ r ∈ s.slotW.record?, r.raw ≠ haltWord
  /-- Each record is the decode of its own word (R105). -/
  faithfulX : ∀ r ∈ s.slotX.record?, r.faithful ∧ r.hasWriteback = (decodeRecord r.raw r.addr).hasWriteback
  faithfulM : ∀ r ∈ s.slotM.record?, r.faithful ∧ r.hasWriteback = (decodeRecord r.raw r.addr).hasWriteback
  faithfulW : ∀ r ∈ s.slotW.record?, r.faithful ∧
    (r.hasWriteback = true → (decodeRecord r.raw r.addr).hasWriteback = true)
  /-- A jump is always taken, so it never reaches Memory or Writeback (R142). -/
  noJumpM : ∀ r ∈ s.slotM.record?, kindOf r.raw ≠ .j
  noJumpW : ∀ r ∈ s.slotW.record?, kindOf r.raw ≠ .j

/-- The registers that are not registers of the machine stay 0 (R20, log 10). -/
abbrev SpareOk (s : State) : Prop := ∀ i : Fin 32, 16 ≤ i.val → s.x[i.val] = 0

/-- A sound state between two steps. -/
structure Inv (s : State) : Prop where
  legal : s.cfg.legal = true
  between : s.phase = .program
  ram : RamOk s
  cache : CacheOk s
  port : PortOk s
  owner : OwnerOk s
  slots : SlotsOk s
  records : RecordsOk s
  spare : SpareOk s

/-- The machine is about to begin the instruction at `pc` with nothing in flight, one instruction at a time: not pipelined,
its fetch just injected (R172, R179). -/
structure SerialStart (s : State) : Prop where
  mode : s.pipelineEnabled = false
  running : s.stopped = false ∧ s.fetchStopped = false
  fetch : s.slotF = some { addr := s.pc, latched := .outstanding, status := .normal }
  alone : s.slotD = .empty ∧ s.slotX = .empty ∧ s.slotM = .empty ∧ s.slotW = .empty
  port : s.port = none

/-- A control instruction in program order is taken (R141, R142). -/
def takenAt (i : Instr) (s : State) : Bool :=
  match i with
  | .j _ _ => true
  | .bc cc ra rb _ => condHolds cc (readReg s ra) (readReg s rb)
  | _ => false

/-- The instruction in X is a taken control instruction (R160, R161). -/
def takenInX (s : State) : Option Word :=
  match s.slotX with
  | .inFlight r =>
    match kindOf r.raw with
    | .j => some (controlTarget r.addr r.imm)
    | .bc => if condCodeHolds r.cond r.op1 r.op2 then some (controlTarget r.addr r.imm) else none
    | _ => none
  | _ => none

/-- `n` issues of one request by one stage, with nothing in between: the last reply and the state it leaves (R72). -/
def issueTimes (q : Request) (stage : Requester) : Nat → State → State × Reply
  | 0, s => (s, .wait)
  | 1, s => access s q stage
  | n + 2, s => issueTimes q stage (n + 1) (access s q stage).1

end Sys2Proof.Machine
end

