-- ==== Sys2Proof/Certificates/Slice0/Obligations.lean ====
section
/-! DEFINITION. The statements for the provers, each the text of one or more numbered rules of spec/ or of a property
that follows from them. The words they are written in stand first, under `Sys2Proof.Claims`; none of them calls the
model's own meaning of what it describes. -/

namespace Sys2Proof.Claims

open Sys2Proof.Machine

/-- `t` is `s` after one instruction that wrote `v` to register `rd` and nothing else: every other register, all of
memory, the cache, the arbiter, the slots, the control state and the other counters are as before; the pc advances and
the instruction is counted. -/
def WritesOnly (s t : State) (rd : RegIdx) (v : Word) : Prop :=
  readReg t rd = v ∧ (∀ (i : Nat) (h : i < 32), i ≠ rd.toNat → t.x[i] = s.x[i]) ∧
    t = { s with x := t.x, pc := s.pc + 1, instrs := s.instrs + 1 }

/-- `s` after one instruction with no effect but the pc and the count. -/
def passed (s : State) : State := { s with pc := s.pc + 1, instrs := s.instrs + 1 }

/-- What Execute leaves of an instruction that stays in the pipeline: it is in M if M was free, else it stalls in X
(R163). -/
def leftExecute (s : State) (r : Decoded) : State :=
  if s.slotM = .empty then { s with slotM := .inFlight { r with status := .normal }, slotX := .empty }
  else { s with slotX := .inFlight { r with status := .stalled } }

/-- What a taken control instruction leaves (R161, R162): the pc at the target, F, D and X empty, a fetch that owned the
port dropped, fetching allowed, the instruction counted; M and W untouched. -/
def squashedTo (s : State) (target : Word) : State :=
  { s with pc := target, slotF := none, slotD := .empty, slotX := .empty,
           port := s.port.filter fun p => p.owner != .fetch, fetchStopped := false, instrs := s.instrs + 1 }

/-- What Decode leaves of the instruction `q` whose row of R103 is `f`: held by a hazard; else in X with its operands read
if X was free; else stalled (R165 to R167). -/
def leftDecode (s : State) (f : Fields) (q : DecodeEntry) : State :=
  if hazard s f.srcs then { s with slotD := .inFlight { q with status := .hazarded } }
  else if s.slotX = .empty then
    { s with
      slotX := .inFlight
        { addr := q.addr, raw := q.raw, itype := f.itype, opcode := opcodeOf q.raw, kind := f.kind, rd := f.rd,
          rs1 := f.rs1, rs2 := f.rs2, rsd := f.rsd, cond := f.cond, imm := f.imm, op1 := readReg s f.rs1,
          op2 := readReg s f.rs2, op3 := readReg s f.rsd, result := 0, writebackVal := 0,
          hasWriteback := f.hasWriteback, status := .normal }
      slotD := .empty }
  else { s with slotD := .inFlight { q with status := .stalled } }

/-- What Writeback leaves of the instruction `r` (R153). -/
def committed (s : State) (r : Decoded) : State :=
  { s with x := if r.hasWriteback then (writeReg s r.rd r.writebackVal).x else s.x, instrs := s.instrs + 1,
           slotW := .empty }

/-- `i` does nothing in Fetch. -/
def SilentInFetch (i : Instr) : Prop :=
  ∀ s : State, exec i { s with phase := .fetch } = .next { s with phase := .fetch }

/-- In Decode `i` is treated as an instruction with the row `f`. -/
def DecodesAs (i : Instr) (f : Fields) : Prop :=
  ∀ (s : State) (q : DecodeEntry), exec i { s with phase := .decode, slotD := .inFlight q } =
    .next (leftDecode { s with phase := .decode, slotD := .inFlight q } f q)

/-- In Execute `i` sets `result` to `g r` and is never taken. -/
def Computes (i : Instr) (g : Decoded → Word) : Prop :=
  ∀ (s : State) (r : Decoded), exec i { s with phase := .execute, slotX := .inFlight r } =
    .next (leftExecute { s with phase := .execute, slotX := .inFlight r } { r with result := g r })

/-- In Memory `i` makes no request, sets `writeback_val` to `result` and moves to Writeback at once. -/
def PassesMemory (i : Instr) : Prop :=
  ∀ (s : State) (r : Decoded), exec i { s with phase := .memory, slotM := .inFlight r } =
    .next { s with phase := .memory, slotM := .empty,
                   slotW := .inFlight { r with writebackVal := r.result, status := .normal } }

/-- In Writeback `i` writes its register if its record says so, and is counted. -/
def Commits (i : Instr) : Prop :=
  ∀ (s : State) (r : Decoded), exec i { s with phase := .writeback, slotW := .inFlight r } =
    .next (committed { s with phase := .writeback, slotW := .inFlight r } r)

/-- The stage behaviour of an ALU-type instruction with the row `f` and the result `g`. -/
def AluStages (i : Instr) (f : Fields) (g : Decoded → Word) : Prop :=
  SilentInFetch i ∧ DecodesAs i f ∧ Computes i g ∧ PassesMemory i ∧ Commits i

/-- Every NOP of the opcode table, with the same low bits: the reserved opcode 9, opcode 0 and opcodes 10 to 31. -/
def nops (ign : BitVec 27) : List Instr :=
  [.nop ign, .nopOp0 ign, .nopOp10 ign, .nopOp11 ign, .nopOp12 ign, .nopOp13 ign, .nopOp14 ign, .nopOp15 ign,
   .nopOp16 ign, .nopOp17 ign, .nopOp18 ign, .nopOp19 ign, .nopOp20 ign, .nopOp21 ign, .nopOp22 ign, .nopOp23 ign,
   .nopOp24 ign, .nopOp25 ign, .nopOp26 ign, .nopOp27 ign, .nopOp28 ign, .nopOp29 ign, .nopOp30 ign, .nopOp31 ign]

/-- The low `n` bits of a word, sign-extended, computed by shifting (an independent reading of `sext_n`, R8). -/
def sextLow (w : Word) (n : Nat) : Word := (w <<< (32 - n)).sshiftRight (32 - n)

/-- Bits `lo + n - 1` to `lo` of a word, computed by division (R8). -/
def field (w : Word) (lo n : Nat) : BitVec n := BitVec.ofNat n (w.toNat / 2 ^ lo)

/-- The opcode of a word, as a number. -/
def opNumber (w : Word) : Nat := w.toNat / 2 ^ 27

/-- `decode(raw, addr)` as R105 writes it: every field cleared, then the case of the kind. -/
def decodeAsWritten (raw addr : Word) : Decoded :=
  let r : Decoded :=
    { addr := addr, raw := raw, itype := .alu, opcode := field raw 27 5, kind := .nop, rd := 0, rs1 := 0, rs2 := 0,
      rsd := 0, cond := 0, imm := 0, op1 := 0, op2 := 0, op3 := 0, result := 0, writebackVal := 0,
      hasWriteback := false, status := .normal }
  match opNumber raw with
  | 1 => { r with kind := .add, rd := field raw 23 4, rs1 := field raw 19 4, rs2 := field raw 15 4,
                  imm := sextLow raw 15, hasWriteback := true }
  | 2 => { r with kind := .sub, rd := field raw 23 4, rs1 := field raw 19 4, rs2 := field raw 15 4,
                  imm := sextLow raw 15, hasWriteback := true }
  | 3 => { r with kind := .addi, rd := field raw 23 4, rs1 := field raw 19 4, imm := sextLow raw 19,
                  hasWriteback := true }
  | 4 => { r with kind := .ldi, rd := field raw 23 4, imm := sextLow raw 23, hasWriteback := true }
  | 5 => { r with kind := .load, rd := field raw 23 4, rs1 := field raw 19 4, imm := sextLow raw 15,
                  itype := .memory, hasWriteback := true }
  | 6 => { r with kind := .str, rsd := field raw 23 4, rs1 := field raw 19 4, imm := sextLow raw 15,
                  itype := .memory }
  | 7 => { r with kind := .bc, rs1 := field raw 23 4, rs2 := field raw 19 4, cond := field raw 17 2,
                  imm := sextLow raw 17, itype := .control }
  | 8 => { r with kind := .j, imm := sextLow raw 23, itype := .control }
  | _ => r

/-- `srcs` of the instruction a word is (R103). -/
def sourcesOf (raw : Word) : List RegIdx :=
  match opNumber raw with
  | 1 | 2 => [field raw 19 4, field raw 15 4]
  | 3 | 5 => [field raw 19 4]
  | 6 => [field raw 19 4, field raw 23 4]
  | 7 => [field raw 23 4, field raw 19 4]
  | _ => []

/-- `exec(r)` of the table of R160. -/
def resultOf (r : Decoded) : Word :=
  match opNumber r.raw with
  | 1 => r.op1 + r.op2
  | 2 => r.op1 - r.op2
  | 3 | 5 | 6 => r.op1 + r.imm
  | 4 => r.imm
  | 7 | 8 => r.addr + r.imm
  | _ => 0

/-- The comparison of R160 and R141 on the signed readings of two values. -/
def comparison (code : Nat) (p q : Int) : Bool :=
  match code with
  | 0 => decide (p = q)
  | 1 => decide (p < q)
  | 2 => decide (p ≥ q)
  | 3 => decide (p ≠ q)
  | _ => false

/-- `taken(r)` of the table of R160. -/
def takenOf (r : Decoded) : Bool :=
  match opNumber r.raw with
  | 7 => comparison r.cond.toNat r.op1.toInt r.op2.toInt
  | 8 => true
  | _ => false

/-- What Fetch leaves when a word or a halt is latched: it is in D if D was free, the pc advancing with a word; else F
stalls (R170, R171). -/
def leftFetch (s : State) (addr : Word) (latched : Latched) (status : Status) : State :=
  if s.slotD = .empty then
    match latched with
    | .word w => { s with slotD := .inFlight { addr := addr, raw := w, status := .normal }, slotF := none,
                          pc := s.pc + 1 }
    | .halt => { s with slotD := .haltMarker, slotF := none }
    | .outstanding => { s with slotF := some { addr := addr, latched := .outstanding, status := status } }
  else { s with slotF := some { addr := addr, latched := latched, status := .stalled } }

/-- The fetch just injected at `a` (R172). -/
def fetchAt (a : Word) : Option FetchEntry := some { addr := a, latched := .outstanding, status := .normal }

/-- The address and word of the instruction in X, M or W. -/
def tagged : Slot Decoded → Option (Word × Word)
  | .inFlight r => some (r.addr, r.raw)
  | _ => none

/-- The address and word of the instruction in D. -/
def taggedD : Slot DecodeEntry → Option (Word × Word)
  | .inFlight q => some (q.addr, q.raw)
  | _ => none

/-- The instruction tagged `p` was in X and stayed there, behind an instruction that stayed in M. -/
def stayedInX (s t : State) (p : Word × Word) : Prop :=
  tagged s.slotX = some p ∧ (tagged s.slotM).isSome = true ∧ tagged t.slotM = tagged s.slotM ∧ t.slotW = .empty

/-- The instruction tagged `p` was in D and stayed there; what X holds, if anything, stayed too. -/
def stayedInD (s t : State) (p : Word × Word) : Prop :=
  taggedD s.slotD = some p ∧ ∀ x, tagged t.slotX = some x → stayedInX s t x

/-- The instruction tagged `p` was handed to D by Fetch: it is the word the Fetch slot had latched, or read in this step, at
that slot's address, and Fetch is empty or holds a new fetch at the pc. -/
def handedToD (s t : State) (p : Word × Word) : Prop :=
  (∃ f, s.slotF = some f ∧ f.addr = p.1 ∧ (f.latched = .outstanding ∨ f.latched = .word p.2)) ∧
    (t.slotF = none ∨ t.slotF = fetchAt t.pc)

/-- The address at which the STR in the Memory slot stores, if the Memory slot holds a STR whose address is in range. -/
def storing (s : State) : Option (Nat × Word) :=
  match s.slotM with
  | .inFlight r => if kindOf r.raw = .str ∧ r.result.toNat < s.cfg.ramWords then some (r.result.toNat, r.op3) else none
  | _ => none

/-- The cache is enabled and nobody owns the port. -/
def idle (s : State) : State := { s with cacheEnabled := true, port := none }

/-- The memory part of a sound state: what the cache and RAM laws need. -/
structure MemoryOk (s : State) : Prop where
  legal : s.cfg.legal = true
  ram : RamOk s
  cache : CacheOk s

/-- A fetch of the sentinel is about to be read with nothing older in flight, in either pipeline mode. -/
structure HaltArrives (s : State) : Prop where
  legal : s.cfg.legal = true
  running : s.stopped = false
  direct : s.cacheEnabled = false
  fetch : s.slotF = fetchAt s.pc
  word : s.pc.toNat < s.cfg.ramWords ∧ s.ram.read s.pc.toNat = 0
  alone : s.slotD = .empty ∧ s.slotX = .empty ∧ s.slotM = .empty ∧ s.slotW = .empty

end Sys2Proof.Claims

open Sys2Proof Sys2Proof.Machine Sys2Proof.Claims

/-! ### Encoding -/

/-- Decoding the word of a well-formed instruction gives the instruction back, every field at every value it can have;
also through the bits of the opcode table's rows (R105, R110). -/
def Obligations.DecodeOfEncode : Prop :=
  ∀ i : Instr, i.wellFormed = true → decodeWord (encode i) = i ∧ decodeTableWord 32 (encode i).toNat = some i

/-- Every word is the word of the instruction it decodes to, which is well formed: no bit is dropped and no two words
mean the same (log 9). -/
def Obligations.EncodeOfDecode : Prop :=
  ∀ w : Word, encode (decodeWord w) = w ∧ (decodeWord w).wellFormed = true

/-- R110: the words of the four classes, field by field, and its three worked words. -/
def Obligations.ClassWords : Prop :=
  (∀ (op : BitVec 5) (f1 f2 f3 : RegIdx) (imm : BitVec 15), (classA op f1 f2 f3 imm).toNat =
    op.toNat * 2 ^ 27 + f1.toNat * 2 ^ 23 + f2.toNat * 2 ^ 19 + f3.toNat * 2 ^ 15 + imm.toNat) ∧
  (∀ (op : BitVec 5) (f1 f2 : RegIdx) (imm : BitVec 19), (classB op f1 f2 imm).toNat =
    op.toNat * 2 ^ 27 + f1.toNat * 2 ^ 23 + f2.toNat * 2 ^ 19 + imm.toNat) ∧
  (∀ (op : BitVec 5) (f1 f2 : RegIdx) (cnd : BitVec 2) (imm : BitVec 17), (classC op f1 f2 cnd imm).toNat =
    op.toNat * 2 ^ 27 + f1.toNat * 2 ^ 23 + f2.toNat * 2 ^ 19 + cnd.toNat * 2 ^ 17 + imm.toNat) ∧
  (∀ (op : BitVec 5) (f1 : RegIdx) (imm : BitVec 23), (classD op f1 imm).toNat =
    op.toNat * 2 ^ 27 + f1.toNat * 2 ^ 23 + imm.toNat) ∧
  (∀ (rd rs1 rs2 : RegIdx) (imm : BitVec 15), encode (.add rd rs1 rs2 imm) = classA 1 rd rs1 rs2 imm ∧
    encode (.sub rd rs1 rs2 imm) = classA 2 rd rs1 rs2 imm ∧ encode (.load rd rs1 rs2 imm) = classA 5 rd rs1 rs2 imm ∧
    encode (.str rd rs1 rs2 imm) = classA 6 rd rs1 rs2 imm) ∧
  (∀ (rd rs1 : RegIdx) (imm : BitVec 19), encode (.addi rd rs1 imm) = classB 3 rd rs1 imm) ∧
  (∀ (cc : Cond) (ra rb : RegIdx) (imm : BitVec 17), encode (.bc cc ra rb imm) = classC 7 ra rb cc.toBits imm) ∧
  (∀ (f1 : RegIdx) (imm : BitVec 23), encode (.ldi f1 imm) = classD 4 f1 imm ∧ encode (.j f1 imm) = classD 8 f1 imm) ∧
  encode (.load 1 0 0 0) = 0x28800000 ∧ encode (.add 2 1 1 0) = 0x09088000 ∧ encode (.str 2 0 0 0) = 0x31000000

/-- Words written out from the spec's encodings decode to the instructions the spec says they are (40_alu.md,
41_memory_ops.md, 42_control.md: the worked examples; 30_encoding.md R102, R108). -/
def Obligations.WrittenWordsDecode : Prop :=
  decodeWord 0x09088000 = .add 2 1 1 0 ∧ decodeWord 0x12090000 = .sub 4 1 2 0 ∧
  decodeWord 0x1AA7FFFF = .addi 5 4 (-1) ∧ decodeWord 0x20800005 = .ldi 1 5 ∧ decodeWord 0x20FFFFFF = .ldi 1 (-1) ∧
  decodeWord 0x28800000 = .load 1 0 0 0 ∧ decodeWord 0x31000000 = .str 2 0 0 0 ∧
  decodeWord 0x391FFFFE = .bc .ne 2 3 (-2) ∧ decodeWord 0x40000003 = .j 0 3 ∧ decodeWord 0 = .halt ∧
  decodeWord 1 = .nopOp0 1 ∧ decodeWord 0x48000000 = .nop 0 ∧ decodeWord 0xF8123456 = .nopOp31 0x123456

/-- R94, R95, R96 (and the extension and range of R93): the immediate of each class is its field with the field's top bit
replicated upward, and lies in the stated range. -/
def Obligations.ImmediatesAreSignExtended : Prop :=
  (∀ raw addr : Word, 1 ≤ opNumber raw → opNumber raw ≤ 8 →
    let n := match opNumber raw with
      | 3 => 19
      | 4 | 8 => 23
      | 7 => 17
      | _ => 15
    (∀ k, k < 32 → (decodeRecord raw addr).imm.getLsbD k = raw.getLsbD (min k (n - 1))) ∧
    -(2 ^ (n - 1) : Int) ≤ (decodeRecord raw addr).imm.toInt ∧
    (decodeRecord raw addr).imm.toInt ≤ (2 ^ (n - 1) : Int) - 1) ∧
  (2 ^ 14 = 16384 ∧ 2 ^ 18 = 262144 ∧ 2 ^ 16 = 65536 ∧ 2 ^ 22 = 4194304)

/-- R105: the decode function, field by field, for every word and address; and the sources of R103. -/
def Obligations.DecodeFunction : Prop :=
  ∀ raw addr : Word, decodeRecord raw addr = decodeAsWritten raw addr ∧
    (fieldsOf (decodeOp raw)).srcs = sourcesOf raw

/-- R98: the four condition codes, with their mnemonics' numbers, on the signed readings. -/
def Obligations.ConditionCodes : Prop :=
  (∀ (c : BitVec 2) (p q : Word), condCodeHolds c p q = comparison c.toNat p.toInt q.toInt) ∧
  Cond.eq.toBits = 0 ∧ Cond.lt.toBits = 1 ∧ Cond.ge.toBits = 2 ∧ Cond.ne.toBits = 3 ∧
  ∀ c : BitVec 2, (Cond.ofBits c).toBits = c

/-- The sentinel is a whole word and not an opcode: HALT is the word 0 alone, the lookup never answers HALT, and every
other word of opcode 0 is a NOP (R102). -/
def Obligations.SentinelIsAWholeWord : Prop :=
  (∀ w : Word, decodeWord w = .halt ↔ w = 0) ∧ (∀ w : Word, decodeOp w ≠ .halt) ∧
  ∀ w : Word, w ≠ 0 → opNumber w = 0 → ∃ low : BitVec 27, low ≠ 0 ∧ decodeWord w = .nopOp0 low

/-! ### The instructions -/

/-- R120. -/
def Obligations.AddRule : Prop :=
  (∀ (rd rs1 rs2 : RegIdx) (ign : BitVec 15),
    decodeWord (0b00001#5 ++ rd ++ rs1 ++ rs2 ++ ign) = .add rd rs1 rs2 ign ∧
    (∀ s : State, ∃ t, exec (.add rd rs1 rs2 ign) { s with phase := .program } = .next t ∧
      WritesOnly { s with phase := .program } t rd (readReg s rs1 + readReg s rs2)) ∧
    AluStages (.add rd rs1 rs2 ign)
      { kind := .add, itype := .alu, hasWriteback := true, rd := rd, rs1 := rs1, rs2 := rs2, rsd := 0, cond := 0,
        imm := sext ign, srcs := [rs1, rs2] }
      (fun r => r.op1 + r.op2)) ∧
  (0x7FFFFFFF : Word) + 1 = 0x80000000 ∧ (0xFFFFFFFF : Word) + 1 = 0 ∧
  ∀ s : State, ∃ t, exec (decodeWord 0x09088000) { writeReg s 1 42 with phase := .program } = .next t ∧
    readReg t 2 = 84

/-- R121. -/
def Obligations.SubRule : Prop :=
  (∀ (rd rs1 rs2 : RegIdx) (ign : BitVec 15),
    decodeWord (0b00010#5 ++ rd ++ rs1 ++ rs2 ++ ign) = .sub rd rs1 rs2 ign ∧
    (∀ s : State, ∃ t, exec (.sub rd rs1 rs2 ign) { s with phase := .program } = .next t ∧
      WritesOnly { s with phase := .program } t rd (readReg s rs1 - readReg s rs2)) ∧
    AluStages (.sub rd rs1 rs2 ign)
      { kind := .sub, itype := .alu, hasWriteback := true, rd := rd, rs1 := rs1, rs2 := rs2, rsd := 0, cond := 0,
        imm := sext ign, srcs := [rs1, rs2] }
      (fun r => r.op1 - r.op2)) ∧
  (0 : Word) - 1 = 0xFFFFFFFF ∧ (0x80000000 : Word) - 1 = 0x7FFFFFFF ∧
  ∀ s : State, ∃ t, exec (decodeWord 0x12090000) { writeReg (writeReg s 1 5) 2 7 with phase := .program } = .next t ∧
    readReg t 4 = 0xFFFFFFFE

/-- R122. -/
def Obligations.AddiRule : Prop :=
  (∀ (rd rs1 : RegIdx) (imm : BitVec 19),
    decodeWord (0b00011#5 ++ rd ++ rs1 ++ imm) = .addi rd rs1 imm ∧
    (∀ s : State, ∃ t, exec (.addi rd rs1 imm) { s with phase := .program } = .next t ∧
      WritesOnly { s with phase := .program } t rd (readReg s rs1 + imm.signExtend 32)) ∧
    AluStages (.addi rd rs1 imm)
      { kind := .addi, itype := .alu, hasWriteback := true, rd := rd, rs1 := rs1, rs2 := 0, rsd := 0, cond := 0,
        imm := sext imm, srcs := [rs1] }
      (fun r => r.op1 + r.imm)) ∧
  ∀ s : State, ∃ t, exec (decodeWord 0x1AA7FFFF) { writeReg s 4 0xFFFFFFFE with phase := .program } = .next t ∧
    readReg t 5 = 0xFFFFFFFD

/-- R123. -/
def Obligations.LdiRule : Prop :=
  (∀ (rd : RegIdx) (imm : BitVec 23),
    decodeWord (0b00100#5 ++ rd ++ imm) = .ldi rd imm ∧
    (∀ s : State, ∃ t, exec (.ldi rd imm) { s with phase := .program } = .next t ∧
      WritesOnly { s with phase := .program } t rd (imm.signExtend 32)) ∧
    AluStages (.ldi rd imm)
      { kind := .ldi, itype := .alu, hasWriteback := true, rd := rd, rs1 := 0, rs2 := 0, rsd := 0, cond := 0,
        imm := sext imm, srcs := [] }
      (fun r => r.imm)) ∧
  decodeWord 0x20800005 = .ldi 1 5 ∧ decodeWord 0x20FFFFFF = .ldi 1 0x7FFFFF ∧
  ∀ s : State, (∃ t, exec (.ldi 1 0x7FFFFF) { s with phase := .program } = .next t ∧ readReg t 1 = 0xFFFFFFFF) ∧
    (∃ t, exec (.ldi 1 0x3FFFFF) { s with phase := .program } = .next t ∧ readReg t 1 = 0x003FFFFF) ∧
    (∃ t, exec (.ldi 1 0x400000) { s with phase := .program } = .next t ∧ readReg t 1 = 0xFFC00000)

/-- R124, for each of the 24 NOP rows of the opcode table (opcode 9, opcode 0 with another bit set, opcodes 10 to 31):
which words they are, no effect but the pc and the count, and the stage behaviour. -/
def Obligations.NopRule : Prop :=
  (∀ w : Word, w ≠ 0 → (opNumber w = 0 ∨ 9 ≤ opNumber w) → ∃ ign : BitVec 27, decodeWord w ∈ nops ign) ∧
  (∀ (ign : BitVec 27), ∀ i ∈ nops ign,
    (∀ s : State, exec i { s with phase := .program } = .next (passed { s with phase := .program })) ∧
    AluStages i
      { kind := .nop, itype := .alu, hasWriteback := false, rd := 0, rs1 := 0, rs2 := 0, rsd := 0, cond := 0, imm := 0,
        srcs := [] }
      (fun _ => 0)) ∧
  decodeWord 0x48000000 = .nop 0 ∧ decodeWord 0 = .halt ∧ decodeWord 1 = .nopOp0 1 ∧
  decodeWord 0xF8123456 = .nopOp31 0x123456

/-- R130 with R132: LOAD. The access in Memory is one request of the Memory stage per step; the value is the one the
request answers. -/
def Obligations.LoadRule : Prop :=
  (∀ (rd rs1 ign : RegIdx) (imm : BitVec 15),
    decodeWord (0b00101#5 ++ rd ++ rs1 ++ ign ++ imm) = .load rd rs1 ign imm ∧
    (∀ s : State,
      let ea := readReg s rs1 + imm.signExtend 32
      ∃ t, exec (.load rd rs1 ign imm) { s with phase := .program } = .next t ∧
        if ea.toNat < s.cfg.ramWords then WritesOnly { s with phase := .program } t rd (amem s ea.toNat)
        else t = passed { s with phase := .program }) ∧
    SilentInFetch (.load rd rs1 ign imm) ∧
    DecodesAs (.load rd rs1 ign imm)
      { kind := .load, itype := .memory, hasWriteback := true, rd := rd, rs1 := rs1, rs2 := 0, rsd := 0, cond := 0,
        imm := sext imm, srcs := [rs1] } ∧
    Computes (.load rd rs1 ign imm) (fun r => r.op1 + r.imm) ∧
    (∀ (s : State) (r : Decoded),
      let u : State := { s with phase := .memory, slotM := .inFlight r }
      exec (.load rd rs1 ign imm) u = .next
        (if r.result.toNat < s.cfg.ramWords then
          match hRead u r.result.toNat .mem with
          | (v, .done w) => { v with slotM := .empty,
                                     slotW := .inFlight { r with writebackVal := w, status := .normal } }
          | (v, .wait) => { v with slotM := .inFlight { r with status := .stalled } }
        else { u with slotM := .empty, slotW := .inFlight { r with hasWriteback := false, status := .normal } })) ∧
    Commits (.load rd rs1 ign imm)) ∧
  decodeWord 0x28800000 = .load 1 0 0 0 ∧
  ∀ s : State, s.cacheEnabled = false → 100 < s.cfg.ramWords → s.ram.read 100 = 42 →
    ∃ t, exec (.load 1 0 0 0) { writeReg s 0 100 with phase := .program } = .next t ∧ readReg t 1 = 42

/-- R131 with R132: STR. In program order exactly the word at the effective address changes in the architectural memory
view, no register does, and nothing at all when the address is outside RAM; the access in Memory is one request of the
Memory stage per step. -/
def Obligations.StrRule : Prop :=
  (∀ (rsd rs1 ign : RegIdx) (imm : BitVec 15),
    decodeWord (0b00110#5 ++ rsd ++ rs1 ++ ign ++ imm) = .str rsd rs1 ign imm ∧
    (∀ s : State, MemoryOk s →
      let ea := readReg s rs1 + imm.signExtend 32
      ∃ t, exec (.str rsd rs1 ign imm) { s with phase := .program } = .next t ∧
        (∀ a : Nat, amem t a = if ea.toNat < s.cfg.ramWords ∧ a = ea.toNat then readReg s rsd else amem s a) ∧
        t = { s with phase := .program, ram := t.ram, lines := t.lines, pc := s.pc + 1, instrs := s.instrs + 1 } ∧
        (s.cfg.ramWords ≤ ea.toNat → t = passed { s with phase := .program })) ∧
    SilentInFetch (.str rsd rs1 ign imm) ∧
    DecodesAs (.str rsd rs1 ign imm)
      { kind := .str, itype := .memory, hasWriteback := false, rd := 0, rs1 := rs1, rs2 := 0, rsd := rsd, cond := 0,
        imm := sext imm, srcs := [rs1, rsd] } ∧
    Computes (.str rsd rs1 ign imm) (fun r => r.op1 + r.imm) ∧
    (∀ (s : State) (r : Decoded),
      let u : State := { s with phase := .memory, slotM := .inFlight r }
      exec (.str rsd rs1 ign imm) u = .next
        (if r.result.toNat < s.cfg.ramWords then
          match hWrite u r.result.toNat r.op3 .mem with
          | (v, .done _) => { v with slotM := .empty, slotW := .inFlight { r with status := .normal } }
          | (v, .wait) => { v with slotM := .inFlight { r with status := .stalled } }
        else { u with slotM := .empty, slotW := .inFlight { r with hasWriteback := false, status := .normal } })) ∧
    Commits (.str rsd rs1 ign imm)) ∧
  decodeWord 0x31000000 = .str 2 0 0 0

/-- R141: BC. -/
def Obligations.BcRule : Prop :=
  (∀ (cc : Cond) (ra rb : RegIdx) (disp : BitVec 17),
    decodeWord (0b00111#5 ++ ra ++ rb ++ cc.toBits ++ disp) = .bc cc ra rb disp ∧
    (∀ s : State, exec (.bc cc ra rb disp) { s with phase := .program } = .next
      { s with
        phase := .program
        pc := if comparison cc.toBits.toNat (readReg s ra).toInt (readReg s rb).toInt then s.pc + disp.signExtend 32
          else s.pc + 1
        instrs := s.instrs + 1 }) ∧
    SilentInFetch (.bc cc ra rb disp) ∧
    DecodesAs (.bc cc ra rb disp)
      { kind := .bc, itype := .control, hasWriteback := false, rd := 0, rs1 := ra, rs2 := rb, rsd := 0,
        cond := cc.toBits, imm := sext disp, srcs := [ra, rb] } ∧
    (∀ (s : State) (r : Decoded),
      let u : State := { s with phase := .execute, slotX := .inFlight r }
      exec (.bc cc ra rb disp) u = .next
        (if comparison r.cond.toNat r.op1.toInt r.op2.toInt then squashedTo u (r.addr + r.imm)
        else leftExecute u { r with result := r.addr + r.imm })) ∧
    PassesMemory (.bc cc ra rb disp) ∧ Commits (.bc cc ra rb disp)) ∧
  decodeWord 0x391FFFFE = .bc .ne 2 3 (-2) ∧
  comparison 1 (0xFFFFFFFF : Word).toInt (0 : Word).toInt = true ∧
  comparison 2 (0xFFFFFFFF : Word).toInt (0 : Word).toInt = false ∧
  (∀ p : Word, comparison 0 p.toInt p.toInt = true ∧ comparison 2 p.toInt p.toInt = true ∧
    comparison 1 p.toInt p.toInt = false ∧ comparison 3 p.toInt p.toInt = false) ∧
  ∀ s : State, ∃ t, exec (decodeWord 0x391FFFFE) { writeReg (writeReg s 2 2) 3 0 with phase := .program, pc := 5 } =
    .next t ∧ t.pc = 3

/-- R142: J. -/
def Obligations.JRule : Prop :=
  (∀ (ign : RegIdx) (disp : BitVec 23),
    decodeWord (0b01000#5 ++ ign ++ disp) = .j ign disp ∧
    (∀ s : State, exec (.j ign disp) { s with phase := .program } = .next
      { s with phase := .program, pc := s.pc + disp.signExtend 32, instrs := s.instrs + 1 }) ∧
    SilentInFetch (.j ign disp) ∧
    DecodesAs (.j ign disp)
      { kind := .j, itype := .control, hasWriteback := false, rd := 0, rs1 := 0, rs2 := 0, rsd := 0, cond := 0,
        imm := sext disp, srcs := [] } ∧
    ∀ (s : State) (r : Decoded),
      let u : State := { s with phase := .execute, slotX := .inFlight r }
      exec (.j ign disp) u = .next (squashedTo u (r.addr + r.imm))) ∧
  (∀ s t : State, Inv s → step s = .next t →
    (∀ r, t.slotM = .inFlight r → kindOf r.raw ≠ .j) ∧ ∀ r, t.slotW = .inFlight r → kindOf r.raw ≠ .j) ∧
  ∀ s : State, ∃ t, exec (decodeWord 0x40000003) { s with phase := .program, pc := 1 } = .next t ∧ t.pc = 4

/-- R144: HALT. In program order it stops the machine, the pc and the count staying; in Fetch it latches the halt and stops
fetching; its marker moves one slot per step when the slot ahead is free, touching nothing else; Writeback stops the
machine. With no stalls the marker is in D, X, M, W after steps t, t+1, t+2, t+3 and step t+4 returns HALT. A taken control
instruction squashes a marker behind it and lets the machine fetch again. -/
def Obligations.HaltRule : Prop :=
  (∀ w : Word, decodeWord w = .halt ↔ w = 0) ∧
  (∀ s : State, exec .halt { s with phase := .program } =
    .next { s with phase := .program, stopped := true, fetchStopped := true }) ∧
  (∀ (s : State) (f : FetchEntry), exec .halt { s with phase := .fetch, slotF := some f } =
    .next { s with phase := .fetch, slotF := some { f with latched := .halt }, fetchStopped := true }) ∧
  (∀ s : State, exec .halt { s with phase := .decode, slotD := .haltMarker } = .next
    { s with phase := .decode, slotD := if s.slotX = .empty then .empty else .haltMarker,
             slotX := if s.slotX = .empty then .haltMarker else s.slotX }) ∧
  (∀ s : State, exec .halt { s with phase := .execute, slotX := .haltMarker } = .next
    { s with phase := .execute, slotX := if s.slotM = .empty then .empty else .haltMarker,
             slotM := if s.slotM = .empty then .haltMarker else s.slotM }) ∧
  (∀ s : State, exec .halt { s with phase := .memory, slotM := .haltMarker } =
    .next { s with phase := .memory, slotM := .empty, slotW := .haltMarker }) ∧
  (∀ s : State, exec .halt { s with phase := .writeback, slotW := .haltMarker } =
    .next { s with phase := .writeback, slotW := .empty, stopped := true }) ∧
  (∀ (s : State) (target : Word), s.cfg.legal = true → s.stopped = false → takenInX s = some target →
    ∃ t, step s = .next t ∧ t.fetchStopped = false ∧ t.slotD = .empty ∧ t.slotX = .empty) ∧
  ∀ s : State, HaltArrives s → ∃ t1 t2 t3 t4 t5,
    step s = .next t1 ∧ step t1 = .next t2 ∧ step t2 = .next t3 ∧ step t3 = .next t4 ∧ step t4 = .next t5 ∧
    t1.slotD = .haltMarker ∧ t2.slotX = .haltMarker ∧ t3.slotM = .haltMarker ∧ t4.slotW = .haltMarker ∧
    signal t4 = .running ∧ signal t5 = .halt ∧
    t5 = { s with cycles := s.cycles + 5, slotF := none, fetchStopped := true, stopped := true }

/-! ### The register file -/

/-- R20's registers are independent and none is hard-wired: a register reads as last written and a write touches no other
register; the entries R16 and up, which no instruction can name, are changed by no step. -/
def Obligations.RegistersAreIndependent : Prop :=
  (∀ (s : State) (r r' : RegIdx) (v : Word), readReg (writeReg s r v) r' = if r' = r then v else readReg s r') ∧
  ∀ s t : State, step s = .next t → ∀ (i : Nat) (h : i < 32), 16 ≤ i → t.x[i] = s.x[i]

/-! ### The step -/

/-- A step runs the decoded instruction: each part of a stage is `exec` of the instruction its slot's word decodes to, in
that phase; a step is the six parts in order (R150, R152); and the program-order machine runs `exec` of the instruction
at the pc (R10). A state whose configuration is illegal is no machine and is refused (the model's choice, log 12). -/
def Obligations.StepRunsTheDecodedInstruction : Prop :=
  (∀ s : State, s.cfg.legal = true → s.stopped = false → ∃ s1 s2 s3 s4 s5,
    writebackPart { s with cycles := s.cycles + 1 } = .next s1 ∧ memoryPart s1 = .next s2 ∧
    executePart s2 = .next s3 ∧ decodePart s3 = .next s4 ∧ fetchPart s4 = .next s5 ∧ step s = .next (injectPart s5)) ∧
  (∀ (s : State) (r : Decoded) (q : DecodeEntry) (i : Instr), i ≠ .halt → decodeWord r.raw = i → decodeWord q.raw = i →
    writebackPart { s with slotW := .inFlight r } = runPhase .writeback i { s with slotW := .inFlight r } ∧
    memoryPart { s with slotM := .inFlight r } = runPhase .memory i { s with slotM := .inFlight r } ∧
    executePart { s with slotX := .inFlight r } = runPhase .execute i { s with slotX := .inFlight r } ∧
    decodePart { s with slotD := .inFlight q } = runPhase .decode i { s with slotD := .inFlight q }) ∧
  (∀ (s u : State) (a w : Word) (st : Status), a.toNat < s.cfg.ramWords →
    hRead { s with slotF := some { addr := a, latched := .outstanding, status := st } } a.toNat .fetch = (u, .done w) →
    fetchPart { s with slotF := some { addr := a, latched := .outstanding, status := st } } =
      andThen (runPhase .fetch (decodeWord w) { u with slotF := some { addr := a, latched := .word w, status := st } })
        fun v => .next (advanceFetch v)) ∧
  (∀ s : State, s.phase = .program → s.stopped = false → s.pc.toNat < s.cfg.ramWords →
    programStep s = exec (decodeWord (amem s s.pc.toNat)) s) ∧
  ∀ s : State, s.cfg.legal = false → step s = .refused .illegalConfiguration

/-- No instruction, no address and no operand value makes the machine answer a fault or a refusal: in every state `exec` of
every instruction, and every step of a machine with a legal configuration, answers a next state, whose signal is RUNNING
or HALT; there is no fault to answer with (60_exceptions.md section 1). -/
def Obligations.NothingTraps : Prop :=
  (∀ (i : Instr) (s : State), ∃ t, exec i s = .next t) ∧
  (∀ s : State, s.cfg.legal = true → ∃ t, step s = .next t ∧ (signal t = .running ∨ signal t = .halt)) ∧
  (∀ s : State, s.cfg.legal = true → ∃ t, programStep s = .next t) ∧ IsEmpty Fault

/-- R6: a configuration outside the legal values is refused at construction and a legal one is not; no order of the two
latencies is asked for. -/
def Obligations.IllegalConfigurationsAreRefused : Prop :=
  ∀ (c : Config) (p e : Bool),
    ((c.nregs = 16 ∨ c.nregs = 32) ∧ 1 ≤ c.ramWords ∧ c.ramWords ≤ 2 ^ 32 ∧ c.ramWords % c.wordsPerLine = 0 ∧
      1 ≤ c.cacheLines ∧ 1 ≤ c.wordsPerLine) ∧ construct c p e = .next (State.powerOn c p e) ∨
    ¬((c.nregs = 16 ∨ c.nregs = 32) ∧ 1 ≤ c.ramWords ∧ c.ramWords ≤ 2 ^ 32 ∧ c.ramWords % c.wordsPerLine = 0 ∧
      1 ≤ c.cacheLines ∧ 1 ≤ c.wordsPerLine) ∧ construct c p e = .refused .illegalConfiguration

/-- R151: a step of a stopped machine changes nothing, returns HALT again, and only reset leaves that state. -/
def Obligations.StoppedStepChangesNothing : Prop :=
  ∀ s : State, s.cfg.legal = true → s.stopped = true →
    step s = .next s ∧ signal s = .halt ∧ (∀ n, cyclesN n s = .next s) ∧
    ∀ p e, signal (hostReset p e s) = .running

/-- The counters of one step of a running machine: `cycles` rises by 1 (R150), `instrs` by 1 for an instruction in W
(R153) and by 1 for a taken control instruction in X (R161), a halt marker and squashed instructions adding nothing; `hits` and
`misses` never fall and together rise by at most 2, one request per stage (R72, R75). -/
def Obligations.StepCounts : Prop :=
  ∀ s t : State, s.stopped = false → step s = .next t →
    t.cycles = s.cycles + 1 ∧
    t.instrs = s.instrs + (if (tagged s.slotW).isSome then 1 else 0) + (if (takenInX s).isSome then 1 else 0) ∧
    s.hits ≤ t.hits ∧ s.misses ≤ t.misses ∧ t.hits + t.misses ≤ s.hits + s.misses + 2 ∧
    (s.cacheEnabled = false → t.hits = s.hits ∧ t.misses = s.misses)

/-- The counters are outputs: no rule reads them (R26), so a step from other counter values is the same step. -/
def Obligations.CountersAreOutputs : Prop :=
  ∀ (s t : State) (a b c d : Nat), step s = .next t →
    ∃ u, step { s with cycles := s.cycles + a, instrs := s.instrs + b, hits := s.hits + c, misses := s.misses + d } =
      .next u ∧
      u = { t with cycles := t.cycles + a, instrs := t.instrs + b, hits := t.hits + c, misses := t.misses + d }

/-- R153: what Writeback does with an instruction, and that it is the only write to the register file in a step. -/
def Obligations.WritebackCommits : Prop :=
  (∀ (s : State) (r : Decoded), writebackPart { s with slotW := .inFlight r } =
    .next (committed { s with slotW := .inFlight r } r)) ∧
  ∀ s t : State, s.stopped = false → step s = .next t →
    (∀ r, s.slotW = .inFlight r → r.hasWriteback = true →
      ∀ (i : Nat) (h : i < 32), t.x[i] = if i = r.rd.toNat then r.writebackVal else s.x[i]) ∧
    ((∀ r, s.slotW = .inFlight r → r.hasWriteback = false) → t.x = s.x)

/-- R154: a running machine returns HALT exactly in the step in which Writeback processes the marker; that step changes
nothing else but `cycles`, and leaves every slot empty. -/
def Obligations.HaltOnlyFromTheMarker : Prop :=
  ∀ s : State, Inv s → s.stopped = false →
    (s.slotW = .haltMarker →
      step s = .next { s with cycles := s.cycles + 1, stopped := true, slotW := .empty } ∧
      s.slotF = none ∧ s.slotD = .empty ∧ s.slotX = .empty ∧ s.slotM = .empty) ∧
    (s.slotW ≠ .haltMarker → ∃ t, step s = .next t ∧ signal t = .running)

/-- R156 and R157: what Memory does with its occupant. -/
def Obligations.MemoryStage : Prop :=
  (∀ s : State, memoryPart { s with slotM := .haltMarker } = .next { s with slotM := .empty, slotW := .haltMarker }) ∧
  (∀ s : State, memoryPart { s with slotM := .empty } = .next { s with slotM := .empty }) ∧
  (∀ s s1 : State, writebackPart s = .next s1 → s1.slotW = .empty) ∧
  ∀ (s : State) (r : Decoded),
    let u : State := { s with slotM := .inFlight r }
    memoryPart u = .next
      (if opNumber r.raw = 5 ∨ opNumber r.raw = 6 then
        if r.result.toNat < s.cfg.ramWords then
          match (if opNumber r.raw = 5 then hRead u r.result.toNat .mem else hWrite u r.result.toNat r.op3 .mem) with
          | (v, .done w) =>
            { v with slotM := .empty
                     slotW := .inFlight { r with writebackVal := if opNumber r.raw = 5 then w else r.writebackVal
                                                 status := .normal } }
          | (v, .wait) => { v with slotM := .inFlight { r with status := .stalled } }
        else { u with slotM := .empty, slotW := .inFlight { r with hasWriteback := false, status := .normal } }
      else { u with slotM := .empty, slotW := .inFlight { r with writebackVal := r.result, status := .normal } })

/-- R160 and R163: what Execute computes for each instruction, which are taken, and that every other moves to M if M is
free and else stalls. -/
def Obligations.ExecuteStage : Prop :=
  ∀ (s : State) (r : Decoded),
    let u : State := { s with slotX := .inFlight r }
    executePart u = .next
      (if takenOf r then squashedTo u (resultOf r) else leftExecute u { r with result := resultOf r })

/-- R161 and R162: the step in which a control instruction is taken, whatever M holds: the pc is the target, D and X
are empty, F holds a new fetch at the target (when pipelined or when M and W are empty after the step), no fetch owns the
port, fetching is allowed, the control instruction is counted, and the older instruction in M goes on. -/
def Obligations.TakenControlSquashes : Prop :=
  ∀ (s : State) (target : Word), s.cfg.legal = true → s.stopped = false → s.slotW ≠ .haltMarker →
    takenInX s = some target →
    ∃ t, step s = .next t ∧ t.pc = target ∧ t.slotD = .empty ∧ t.slotX = .empty ∧
      t.slotF = (if s.pipelineEnabled = true ∨ (t.slotM = .empty ∧ t.slotW = .empty) then fetchAt target else none) ∧
      t.fetchStopped = false ∧ t.stopped = false ∧ (∀ p, t.port = some p → p.owner = .mem) ∧
      t.instrs = s.instrs + 1 + (if (tagged s.slotW).isSome then 1 else 0) ∧
      (∀ p, tagged s.slotM = some p → tagged t.slotW = some p ∨ tagged t.slotM = some p)

/-- R164: the halt marker queues like an instruction, is no producer of a hazard, and does nothing else. -/
def Obligations.MarkersQueue : Prop :=
  (∀ s : State, decodePart { s with slotD := .haltMarker } = .next
    { s with slotD := if s.slotX = .empty then .empty else .haltMarker,
             slotX := if s.slotX = .empty then .haltMarker else s.slotX }) ∧
  (∀ s : State, executePart { s with slotX := .haltMarker } = .next
    { s with slotX := if s.slotM = .empty then .empty else .haltMarker,
             slotM := if s.slotM = .empty then .haltMarker else s.slotM }) ∧
  (∀ s : State, memoryPart { s with slotM := .haltMarker } = .next { s with slotM := .empty, slotW := .haltMarker }) ∧
  ∀ (s : State) (srcs : List RegIdx), hazard s srcs = true ↔
    ∃ p, (s.slotX = .inFlight p ∨ s.slotM = .inFlight p ∨ s.slotW = .inFlight p) ∧ p.hasWriteback = true ∧ p.rd ∈ srcs

/-- R165, R166 and R167: what Decode does with its occupant: the hazard scan over X, M and W, the operand read, the move to
X or the stall, with the record of R105. -/
def Obligations.DecodeStage : Prop :=
  ∀ (s : State) (q : DecodeEntry),
    let u : State := { s with slotD := .inFlight q }
    let r := decodeAsWritten q.raw q.addr
    ((∃ p, (s.slotX = .inFlight p ∨ s.slotM = .inFlight p ∨ s.slotW = .inFlight p) ∧ p.hasWriteback = true ∧
        p.rd ∈ sourcesOf q.raw) ∧
      decodePart u = .next { u with slotD := .inFlight { q with status := .hazarded } }) ∨
    ((∀ p, (s.slotX = .inFlight p ∨ s.slotM = .inFlight p ∨ s.slotW = .inFlight p) → p.hasWriteback = true →
        p.rd ∉ sourcesOf q.raw) ∧
      decodePart u = .next
        (if s.slotX = .empty then
          { u with slotX := .inFlight { r with op1 := readReg s r.rs1, op2 := readReg s r.rs2, op3 := readReg s r.rsd }
                   slotD := .empty }
        else { u with slotD := .inFlight { q with status := .stalled } }))

/-- R168 to R171: what Fetch does with its occupant: the range test, the read, the latch, HALT detection, the move to D or
the stall; a latched word is not read again. -/
def Obligations.FetchStage : Prop :=
  (∀ (s : State) (a : Word) (st : Status),
    let u : State := { s with slotF := some { addr := a, latched := .outstanding, status := st } }
    fetchPart u = .next
      (if a.toNat < s.cfg.ramWords then
        match hRead u a.toNat .fetch with
        | (v, .wait) => { v with slotF := some { addr := a, latched := .outstanding, status := .stalled } }
        | (v, .done w) =>
          if w = 0 then leftFetch { v with fetchStopped := true } a .halt st else leftFetch v a (.word w) st
      else leftFetch { u with fetchStopped := true } a .halt st)) ∧
  (∀ (s : State) (a w : Word) (st : Status),
    let u : State := { s with slotF := some { addr := a, latched := .word w, status := st } }
    fetchPart u = .next (leftFetch u a (.word w) st)) ∧
  (∀ (s : State) (a : Word) (st : Status),
    let u : State := { s with slotF := some { addr := a, latched := .halt, status := st } }
    fetchPart u = .next (leftFetch u a .halt st)) ∧
  ∀ s : State, fetchPart { s with slotF := none } = .next { s with slotF := none }

/-- R172: injection, a fetch at the pc, with no memory request. Not pipelined, a step leaves a new fetch only with every
other slot empty. -/
def Obligations.Injection : Prop :=
  (∀ s : State, injectPart s =
    if s.slotF = none ∧ s.fetchStopped = false ∧
        (s.pipelineEnabled = true ∨ (s.slotD = .empty ∧ s.slotX = .empty ∧ s.slotM = .empty ∧ s.slotW = .empty)) then
      { s with slotF := fetchAt s.pc }
    else s) ∧
  ∀ s t : State, s.stopped = false → s.pipelineEnabled = false → s.slotF = none → step s = .next t →
    t.slotF ≠ none → t.slotF = fetchAt t.pc ∧ t.slotD = .empty ∧ t.slotX = .empty ∧ t.slotM = .empty ∧ t.slotW = .empty

/-- Where the pc is written in a step (R22): to the target of a taken control instruction; to `pc + 1` when Fetch hands a
word other than the sentinel to Decode; nowhere else. Between steps an occupied Fetch slot is at the pc. -/
def Obligations.PcIsWrittenInTwoPlaces : Prop :=
  ∀ s t : State, Inv s → s.stopped = false → step s = .next t →
    (∀ f, t.slotF = some f → f.addr = t.pc) ∧
    (∀ target, takenInX s = some target → t.pc = target) ∧
    (takenInX s = none →
      (t.pc = s.pc + 1 ∧ ∃ w, w ≠ 0 ∧ s.slotF.isSome = true ∧
        t.slotD = .inFlight { addr := s.pc, raw := w, status := .normal }) ∨
      (t.pc = s.pc ∧ ∀ p, taggedD t.slotD = some p → taggedD s.slotD = some p))

/-- An instruction that enters Execute in a step has read the committed registers, and no instruction still ahead of it
in Memory or Writeback will write one of its sources (R165, R175). -/
def Obligations.OperandsAreCommitted : Prop :=
  ∀ (s t : State) (r : Decoded), s.stopped = false → step s = .next t → t.slotX = .inFlight r → r.status = .normal →
    r.op1 = readReg t r.rs1 ∧ r.op2 = readReg t r.rs2 ∧ r.op3 = readReg t r.rsd ∧
    ∀ p, (t.slotM = .inFlight p ∨ t.slotW = .inFlight p) → p.hasWriteback = true → p.rd ∉ sourcesOf r.raw

/-- Instructions stay in order, each in one slot (R30, R31, R174). In a step every instruction moves at most one slot, into
the next one, and leaves no copy behind: what is in W came from M; what is in M came from X, or stayed and nothing entered
W; what is in X came from D, or stayed behind an instruction that stayed in M; what is in D stayed, and then nothing
entered X, or is the word the Fetch slot latched or read, at that slot's address, and Fetch is then empty or newly
injected; a word latched in F is the slot's own, and then nothing entered D. None is lost but the one Writeback processed
and those a taken control instruction squashes. -/
def Obligations.NoOvertaking : Prop :=
  ∀ s t : State, s.stopped = false → step s = .next t →
    (∀ p, tagged t.slotW = some p → tagged s.slotM = some p) ∧
    (∀ p, tagged t.slotM = some p → tagged s.slotM = some p ∧ t.slotW = .empty ∨ tagged s.slotX = some p) ∧
    (∀ p, tagged t.slotX = some p → stayedInX s t p ∨ taggedD s.slotD = some p) ∧
    (∀ p, taggedD t.slotD = some p → stayedInD s t p ∨ handedToD s t p) ∧
    (∀ g w, t.slotF = some g → g.latched = .word w →
      (∃ f, s.slotF = some f ∧ f.addr = g.addr ∧ (f.latched = .outstanding ∨ f.latched = .word w)) ∧
      ∀ p, taggedD t.slotD = some p → stayedInD s t p) ∧
    (∀ p, tagged s.slotM = some p → tagged t.slotW = some p ∨ tagged t.slotM = some p) ∧
    (takenInX s = none →
      (∀ p, tagged s.slotX = some p → tagged t.slotM = some p ∨ tagged t.slotX = some p) ∧
      (∀ p, taggedD s.slotD = some p → tagged t.slotX = some p ∨ taggedD t.slotD = some p) ∧
      (∀ f w, s.slotF = some f → f.latched = .word w →
        taggedD t.slotD = some (f.addr, w) ∨ ∃ g, t.slotF = some g ∧ g.addr = f.addr ∧ g.latched = .word w) ∧
      ∀ f, s.slotF = some f → f.latched = .outstanding →
        (∃ w, taggedD t.slotD = some (f.addr, w)) ∨ t.slotD = .haltMarker ∨ ∃ g, t.slotF = some g ∧ g.addr = f.addr)

/-- R231: the mode flags are latched from reset's arguments and constant between resets; the other parameters are fixed; a
reset empties the pipeline and invalidates every line. -/
def Obligations.ModesAreLatchedAtReset : Prop :=
  (∀ (s : State) (p e : Bool), (hostReset p e s).pipelineEnabled = p ∧ (hostReset p e s).cacheEnabled = e ∧
    (hostReset p e s).cfg = s.cfg ∧ occupancy (hostReset p e s) = 0 ∧
    ∀ l ∈ (hostReset p e s).lines, l.valid = false) ∧
  ∀ s t : State, step s = .next t →
    t.cfg = s.cfg ∧ t.pipelineEnabled = s.pipelineEnabled ∧ t.cacheEnabled = s.cacheEnabled ∧ t.phase = s.phase

/-! ### The memory hierarchy -/

/-- R62: an address is its tag, line index and offset; the block of an address starts at `base`, and the sizes need not be
powers of two. -/
def Obligations.AddressDecomposition : Prop :=
  ∀ (c : Config) (a : Nat), c.legal = true →
    lineIndex c a = a / c.wordsPerLine % c.cacheLines ∧ tagOf c a = a / (c.cacheLines * c.wordsPerLine) ∧
    offsetOf c a = a % c.wordsPerLine ∧
    a = tagOf c a * c.cacheLines * c.wordsPerLine + lineIndex c a * c.wordsPerLine + offsetOf c a ∧
    baseOf c a = a - offsetOf c a ∧ blockBase c (tagOf c a) (lineIndex c a) = baseOf c a ∧
    lineIndex c a < c.cacheLines ∧ offsetOf c a < c.wordsPerLine

/-- R64, R69 and R70: a stage that does not own the busy port gets WAIT and changes nothing; a request with delay N gets WAIT
on its first N issues, owning the port from the first on and only its count falling, and DONE on the next, which frees the
port; an access that completes in the call that accepts it never owns the port. -/
def Obligations.PortArbitrationAndDelay : Prop :=
  (∀ (s : State) (p : Access) (q : Request) (stage : Requester), p.owner ≠ stage →
    access { s with cacheEnabled := true, port := some p } q stage =
      ({ s with cacheEnabled := true, port := some p }, .wait)) ∧
  (∀ (s : State) (q : Request) (stage : Requester),
    (delayOf s q.addr = 0 → (access (idle s) q stage).1.port = none) ∧
    (∀ n, 1 ≤ n → n ≤ delayOf s q.addr → (issueTimes q stage n (idle s)).2 = .wait ∧
      (issueTimes q stage n (idle s)).1 =
        { (access (idle s) q stage).1 with
          port := some { owner := stage, count := delayOf s q.addr - (n - 1), pending := q } }) ∧
    ∃ t w, issueTimes q stage (delayOf s q.addr + 1) (idle s) = (t, .done w) ∧ t.port = none) ∧
  ∀ (s t : State) (q : Request) (stage : Requester) (w : Word), access s q stage = (t, .done w) →
    s.cacheEnabled = true → t.port = none

/-- R65: with the cache disabled every access is done at once against RAM, and nothing but RAM changes. -/
def Obligations.CacheDisabledAccess : Prop :=
  ∀ (s : State) (a : Nat) (v : Word) (stage : Requester),
    hRead { s with cacheEnabled := false } a stage =
      ({ s with cacheEnabled := false }, .done (s.ram.read a)) ∧
    (∃ m, hWrite { s with cacheEnabled := false } a v stage = ({ s with cacheEnabled := false, ram := m }, .done 0) ∧
      (s.ram.wf = true → m.wf = true ∧ ∀ b, m.read b = if b = a then v else s.ram.read b))

/-- R66: a hit is counted once, takes `CACHE_LATENCY` WAITs, and answers or updates the word in the line, which a write
makes dirty; RAM is not touched. -/
def Obligations.HitPath : Prop :=
  ∀ (s : State) (q : Request) (stage : Requester), hitAt s q.addr = true →
    let k := lineIndex s.cfg q.addr
    let l := lineAt s k
    delayOf s q.addr = s.cfg.cacheLatency ∧
    issueTimes q stage (s.cfg.cacheLatency + 1) (idle s) =
      match q.kind with
      | .read => ({ idle s with hits := s.hits + 1 }, .done (l.data.getD (offsetOf s.cfg q.addr) 0))
      | .write =>
        ({ idle s with
            hits := s.hits + 1
            lines := s.lines.set k { l with dirty := true, data := l.data.set (offsetOf s.cfg q.addr) q.value } },
          .done 0)

/-- R67 and R68: a miss is counted once; a valid dirty victim is flushed to its old block when the request is accepted, its
line staying valid with its old tag and data and becoming clean; after `RAM_LATENCY` WAITs the line holds the new block,
clean, and the word is serviced as on a hit. No other line and no other word of RAM changes, and the new block lies in RAM. -/
def Obligations.MissPath : Prop :=
  ∀ (s : State) (q : Request) (stage : Requester), MemoryOk s → hitAt s q.addr = false → q.addr < s.cfg.ramWords →
    let k := lineIndex s.cfg q.addr
    let old := lineAt s k
    let first := (access (idle s) q stage).1
    let last := issueTimes q stage (s.cfg.ramLatency + 1) (idle s)
    let block := last.1.ram.readBlock (baseOf s.cfg q.addr) s.cfg.wordsPerLine
    delayOf s q.addr = s.cfg.ramLatency ∧ last.1.misses = s.misses + 1 ∧ last.1.hits = s.hits ∧
    first.misses = s.misses + 1 ∧ first.ram = last.1.ram ∧
    baseOf s.cfg q.addr + s.cfg.wordsPerLine ≤ s.cfg.ramWords ∧
    (0 < s.cfg.ramLatency → lineAt first k = if old.valid && old.dirty then { old with dirty := false } else old) ∧
    (∀ b, last.1.ram.read b =
      if (old.valid && old.dirty) = true ∧ blockBase s.cfg old.tag k ≤ b ∧
          b < blockBase s.cfg old.tag k + s.cfg.wordsPerLine then
        old.data.getD (b - blockBase s.cfg old.tag k) 0
      else s.ram.read b) ∧
    (∀ j, j ≠ k → lineAt last.1 j = lineAt s j) ∧
    match q.kind with
    | .read =>
      last.2 = .done (last.1.ram.read q.addr) ∧
      lineAt last.1 k = { valid := true, dirty := false, tag := tagOf s.cfg q.addr, data := block }
    | .write =>
      last.2 = .done 0 ∧
      lineAt last.1 k = { valid := true, dirty := true, tag := tagOf s.cfg q.addr,
                          data := block.set (offsetOf s.cfg q.addr) q.value }

/-- R73: a request from the owner other than the one being counted down is an abort followed by the acceptance of the new
request; the pipeline never makes one (the owner's pending request is the one its slot issues next). And what an abort
does (R74): it drops the owner's pending access and nothing else; another stage's access is not touched; what acceptance
did stays done: the counter, and the flush of a dirty victim, which the architectural memory view does not show. -/
def Obligations.AbortsAndChangedRequests : Prop :=
  (∀ (s : State) (p : Access) (q : Request), p.pending ≠ q →
    access { s with cacheEnabled := true, port := some p } q p.owner =
      acceptRequest (abort { s with cacheEnabled := true, port := some p } p.owner) q p.owner ∧
    access { s with cacheEnabled := true, port := some p } q p.owner = access (idle s) q p.owner) ∧
  (∀ s : State, Inv s →
    (∀ p f, s.port = some p → p.owner = .fetch → s.slotF = some f →
      f.latched = .outstanding ∧ p.pending = { kind := .read, addr := f.addr.toNat, value := 0 }) ∧
    ∀ p r, s.port = some p → p.owner = .mem → s.slotM = .inFlight r →
      p.pending = { kind := if kindOf r.raw = .str then .write else .read, addr := r.result.toNat,
                    value := if kindOf r.raw = .str then r.op3 else 0 }) ∧
  (∀ (s : State) (p : Access), abort { s with port := some p } p.owner = { s with port := none }) ∧
  (∀ (s : State) (p : Access) (stage : Requester), p.owner ≠ stage →
    abort { s with port := some p } stage = { s with port := some p }) ∧
  (∀ (s : State) (stage : Requester), abort { s with port := none } stage = { s with port := none }) ∧
  ∀ (s : State) (q : Request) (stage : Requester), MemoryOk s → 0 < delayOf s q.addr →
    let t := abort (access (idle s) q stage).1 stage
    t.port = none ∧ t.hits + t.misses = s.hits + s.misses + 1 ∧
    ∀ a, amem t a = amem (idle s) a

/-- R75: each accepted request adds one to exactly one of `hits` and `misses`; a refused request and a re-issue add
nothing; a changed request counts again; neither ever falls. -/
def Obligations.RequestsAreCountedOnce : Prop :=
  (∀ (s : State) (q : Request) (stage : Requester),
    let t := (access (idle s) q stage).1
    (t.hits = s.hits + 1 ∧ t.misses = s.misses) ∨ (t.hits = s.hits ∧ t.misses = s.misses + 1)) ∧
  ∀ (s : State) (p : Access) (q : Request) (stage : Requester),
    let t := (access { s with cacheEnabled := true, port := some p } q stage).1
    (p.owner ≠ stage → t.hits = s.hits ∧ t.misses = s.misses) ∧
    (p.owner = stage → p.pending = q → t.hits = s.hits ∧ t.misses = s.misses) ∧
    (p.owner = stage → p.pending ≠ q →
      (t.hits = s.hits + 1 ∧ t.misses = s.misses) ∨ (t.hits = s.hits ∧ t.misses = s.misses + 1))

/-- R76: the backdoor works on RAM alone, behind the cache, whatever the mode; outside RAM a write does nothing and a read
gives 0. -/
def Obligations.Backdoor : Prop :=
  ∀ (s : State) (a : Nat) (w : Word), s.ram.wf = true →
    forceRead s a = (if a < s.cfg.ramWords then s.ram.read a else 0) ∧
    (forceWrite s a w).ram.wf = true ∧
    (∀ b, forceRead (forceWrite s a w) b = if b = a ∧ a < s.cfg.ramWords then w else forceRead s b) ∧
    forceWrite s a w = { s with ram := (forceWrite s a w).ram } ∧
    (s.cfg.ramWords ≤ a → forceWrite s a w = s)

/-- The hierarchy serves the architectural memory view (R80, R78): a DONE read answers `AMem(a)`; a DONE write makes
`AMem(a)` the written value and leaves every other address; a read, and any WAIT, leaves the whole view; and the cache
and RAM stay sound. -/
def Obligations.HierarchyServesTheMemoryView : Prop :=
  ∀ (s t : State) (q : Request) (stage : Requester) (o : Reply), MemoryOk s → PortOk s → q.addr < s.cfg.ramWords →
    access s q stage = (t, o) →
    MemoryOk t ∧
    (∀ w, o = .done w → q.kind = .read → w = amem s q.addr) ∧
    ∀ a, amem t a = if q.kind = .write ∧ o ≠ .wait ∧ a = q.addr then q.value else amem s a

/-- Data memory is written only by the STR in the Memory slot, in the step in which its access is done, at its effective
address; every other word of the architectural view, and every step without such a STR, is unchanged (R81, R131,
R162). -/
def Obligations.OnlyStoresChangeMemory : Prop :=
  ∀ s t : State, Inv s → s.stopped = false → step s = .next t →
    ∀ a, a < s.cfg.ramWords →
      amem t a =
        match storing s with
        | some (ea, v) => if a = ea ∧ t.slotW ≠ .empty then v else amem s a
        | none => amem s a

/-- No deadlock at the port (R178): an access counted down for Memory is done, and its instruction in Writeback, after as
many steps as the count says; one counted down for Fetch has freed the port after at most that many. -/
def Obligations.PortOwnersFinish : Prop :=
  ∀ (s : State) (p : Access), Inv s → s.stopped = false → s.port = some p →
    (p.owner = .mem → ∃ t id, cyclesN p.count s = .next t ∧ tagged s.slotM = some id ∧ tagged t.slotW = some id) ∧
    (p.owner = .fetch → ∃ n t, 1 ≤ n ∧ n ≤ p.count ∧ cyclesN n s = .next t ∧ t.port = none)

/-! ### Reset and the host -/

/-- R230: what reset leaves, field by field; and R37, R232: a legal configuration is built in the state reset leaves, with the
constructor's flags and every word of RAM 0. -/
def Obligations.ResetAndPowerOn : Prop :=
  (∀ (s : State) (p e : Bool),
    let t := hostReset p e s
    (∀ (i : Nat) (h : i < 32), t.x[i] = 0) ∧ t.pc = 0 ∧ t.cycles = 0 ∧ t.instrs = 0 ∧
    t.slotF = none ∧ t.slotD = .empty ∧ t.slotX = .empty ∧ t.slotM = .empty ∧ t.slotW = .empty ∧
    t.fetchStopped = false ∧ t.stopped = false ∧ t.port = none ∧ t.lines.length = s.cfg.cacheLines ∧
    (∀ l ∈ t.lines, l.valid = false ∧ l.dirty = false ∧ l.tag = 0 ∧ l.data = List.replicate s.cfg.wordsPerLine 0) ∧
    t.hits = 0 ∧ t.misses = 0 ∧ t.pipelineEnabled = p ∧ t.cacheEnabled = e ∧ t.ram = s.ram ∧ t.cfg = s.cfg) ∧
  ∀ (c : Config) (p e : Bool), c.legal = true →
    ∃ t, construct c p e = .next t ∧ t.cfg = c ∧ hostReset p e t = t ∧ ∀ a, t.ram.read a = 0 ∧ forceRead t a = 0

/-- R233: after reset the first step injects a fetch at address 0 and does nothing else; the second issues its read: with
the cache disabled the word is then in D (or the halt marker is), with it enabled the request has been accepted as a miss. -/
def Obligations.EntryPoint : Prop :=
  ∀ (s : State) (p e : Bool), s.cfg.legal = true →
    let r := hostReset p e s
    step r = .next { r with cycles := 1, slotF := fetchAt 0 } ∧
    ∃ t, cyclesN 2 r = .next t ∧
      (e = true → t.misses = 1 ∧ t.hits = 0) ∧
      (e = false → t.slotD =
        if s.ram.read 0 = 0 then .haltMarker else .inFlight { addr := 0, raw := s.ram.read 0, status := .normal })

/-- R240: loading writes the words to RAM from address 0 on, drops those beyond RAM, and changes nothing else. -/
def Obligations.LoadWritesRamAlone : Prop :=
  ∀ (words : List Word) (s : State), s.ram.wf = true →
    load words s = { s with ram := (load words s).ram } ∧ (load words s).ram.wf = true ∧
    ∀ a, forceRead (load words s) a =
      if a < words.length ∧ a < s.cfg.ramWords then words.getD a 0 else forceRead s a

/-- R242: a run with a budget of `n` makes at most `n` steps, stops early only at HALT and always then, and answers the last
step's result; a run without a budget ends in a state exactly if that is the first step's state at which HALT is returned. -/
def Obligations.RunSteps : Prop :=
  (∀ (n : Nat) (s : State), s.cfg.legal = true → ∃ t k, run n s = .next t ∧ k ≤ n ∧ cyclesN k s = .next t ∧
    (∀ j, 0 < j → j < k → ∃ u, cyclesN j s = .next u ∧ signal u = .running) ∧
    (k = n ∨ (0 < k ∧ signal t = .halt))) ∧
  ∀ s t : State, s.cfg.legal = true → (RunsToHalt s t ↔ ∃ k, 0 < k ∧ cyclesN k s = .next t ∧ signal t = .halt ∧
    ∀ j, 0 < j → j < k → ∃ u, cyclesN j s = .next u ∧ signal u = .running)

/-- The breakpoint run (R243): HALT and then the pc are tested after each step and never before the first, and the call
ends at the first step at which one holds. The budget is the model's own (log 14). -/
def Obligations.BreakpointRun : Prop :=
  ∀ (bp : Word) (n : Nat) (s : State), s.cfg.legal = true →
    ∃ t why k, runToBreakpoint bp n s = .next (t, why) ∧ k ≤ n ∧ cyclesN k s = .next t ∧
      (∀ j, 0 < j → j < k → ∃ u, cyclesN j s = .next u ∧ signal u = .running ∧ u.pc ≠ bp) ∧
      match why with
      | .halt => 0 < k ∧ signal t = .halt
      | .breakpoint => 0 < k ∧ signal t = .running ∧ t.pc = bp
      | .budget => k = n ∧ (0 < k → signal t = .running ∧ t.pc ≠ bp)

/-- R245 and R246: the host's reads of registers, pc and counters. -/
def Obligations.HostReads : Prop :=
  ∀ s : State, s.cfg.legal = true →
    (∀ (i : Nat) (h : i < 32), i < s.cfg.nregs → readRegister s i = (s.x[i]).toInt) ∧
    (∀ i, s.cfg.nregs ≤ i → readRegister s i = 0) ∧ programCounter s = s.pc.toNat ∧
    cycleCount s = s.cycles ∧ instructionCount s = s.instrs ∧ cacheHits s = s.hits ∧ cacheMisses s = s.misses

/-! ### Invariants and agreement -/

/-- The state after power-on of the reference configuration is sound (the configuration is the model's choice, log 1). -/
def Obligations.ResetIsSound : Prop := Inv State.reset

/-- Every power-on state of a legal configuration is sound, a reset of a sound state is, and so is a sound state in which a
program was loaded while no line was valid (R36, R37, R237). -/
def Obligations.HostKeepsSoundness : Prop :=
  (∀ (c : Config) (p e : Bool), c.legal = true → Inv (State.powerOn c p e)) ∧
  (∀ (s : State) (p e : Bool), Inv s → Inv (hostReset p e s)) ∧
  ∀ (s : State) (words : List Word), Inv s → (∀ k, (lineAt s k).valid = false) → Inv (load words s)

/-- Every step keeps a sound state sound: RAM canonical and inside its bounds; the slot invariants of R31; the cache
invariants of R77; the arbiter's owner is the stage whose slot issues the pending request (R31 f, R73); every record is the
decode of its word (R105); the sentinel is never in D, X, M or W (R102); a jump never reaches M or W (R142). -/
def Obligations.StepKeepsSoundness : Prop :=
  ∀ s t : State, Inv s → step s = .next t → Inv t

/-- One instruction at a time, cache disabled: from the injection of an instruction the machine takes 5 steps (3 for a taken
control instruction) to the injection of the next, and leaves exactly the state of the instruction's architectural effect; a
HALT or a fetch address outside RAM stops it in 5 steps (R10, R145, R179). -/
def Obligations.SerialInstructionTakesItsEffect : Prop :=
  (∀ (s t : State) (i : Instr), s.cfg.legal = true → s.phase = .program → SerialStart s → s.cacheEnabled = false →
    s.pc.toNat < s.cfg.ramWords → decodeWord (s.ram.read s.pc.toNat) = i → i ≠ .halt → exec i s = .next t →
    let n := if takenAt i s then 3 else 5
    cyclesN n s = .next { t with cycles := s.cycles + n, slotF := fetchAt t.pc }) ∧
  ∀ s : State, s.cfg.legal = true → SerialStart s → s.cacheEnabled = false →
    (s.pc.toNat < s.cfg.ramWords → s.ram.read s.pc.toNat = 0) →
    cyclesN 5 s = .next { s with cycles := s.cycles + 5, slotF := none, fetchStopped := true, stopped := true }

/-- One instruction at a time, in every cache mode and latency: the machine comes to the injection of the next instruction
with the registers, the pc, the count and the architectural memory view of the instruction's effect, after at most 5 steps
and two delays (R10, R179, R256). -/
def Obligations.SerialInstructionInEveryCacheMode : Prop :=
  ∀ (s t : State) (i : Instr), Inv s → SerialStart s → s.pc.toNat < s.cfg.ramWords →
    decodeWord (amem s s.pc.toNat) = i → i ≠ .halt → exec i s = .next t →
    ∃ n u, cyclesN n s = .next u ∧ 3 ≤ n ∧ n ≤ 5 + 2 * max s.cfg.cacheLatency s.cfg.ramLatency ∧
      SerialStart u ∧ u.x = t.x ∧ u.pc = t.pc ∧ u.instrs = t.instrs ∧ u.cycles = s.cycles + n ∧
      ∀ a, a < s.cfg.ramWords → amem u a = amem t a
end

