-- ==== Sys2Proof/Laws/Codec.lean ====
section
/-! SUPPORT. The encoder and the fields of a word (30_encoding.md R91, R92, R110): what each field of a word built in
each class reads as, and that a word is rebuilt from its fields. -/

namespace Sys2Proof

/-- A concatenation as a number: the left part counts from the width of the right part on. -/
theorem toNat_append_add {n m : Nat} (a : BitVec n) (b : BitVec m) : (a ++ b).toNat = a.toNat * 2 ^ m + b.toNat := by
  rw [BitVec.toNat_append, ← Nat.shiftLeft_add_eq_or_of_lt b.isLt, Nat.shiftLeft_eq]

theorem opcodeOf_classA (op : BitVec 5) (f1 : RegIdx) (f2 : RegIdx) (f3 : RegIdx) (imm : BitVec 15) :
    opcodeOf (classA op f1 f2 f3 imm) = op := by
  apply BitVec.eq_of_toNat_eq
  have := op.isLt; have := f1.isLt; have := f2.isLt; have := f3.isLt; have := imm.isLt
  simp only [opcodeOf, bits, classA, BitVec.extractLsb'_toNat, toNat_append_add, Nat.shiftRight_eq_div_pow]
  omega

theorem f1Of_classA (op : BitVec 5) (f1 : RegIdx) (f2 : RegIdx) (f3 : RegIdx) (imm : BitVec 15) :
    f1Of (classA op f1 f2 f3 imm) = f1 := by
  apply BitVec.eq_of_toNat_eq
  have := op.isLt; have := f1.isLt; have := f2.isLt; have := f3.isLt; have := imm.isLt
  simp only [f1Of, bits, classA, BitVec.extractLsb'_toNat, toNat_append_add, Nat.shiftRight_eq_div_pow]
  omega

theorem f2Of_classA (op : BitVec 5) (f1 : RegIdx) (f2 : RegIdx) (f3 : RegIdx) (imm : BitVec 15) :
    f2Of (classA op f1 f2 f3 imm) = f2 := by
  apply BitVec.eq_of_toNat_eq
  have := op.isLt; have := f1.isLt; have := f2.isLt; have := f3.isLt; have := imm.isLt
  simp only [f2Of, bits, classA, BitVec.extractLsb'_toNat, toNat_append_add, Nat.shiftRight_eq_div_pow]
  omega

theorem f3Of_classA (op : BitVec 5) (f1 : RegIdx) (f2 : RegIdx) (f3 : RegIdx) (imm : BitVec 15) :
    f3Of (classA op f1 f2 f3 imm) = f3 := by
  apply BitVec.eq_of_toNat_eq
  have := op.isLt; have := f1.isLt; have := f2.isLt; have := f3.isLt; have := imm.isLt
  simp only [f3Of, bits, classA, BitVec.extractLsb'_toNat, toNat_append_add, Nat.shiftRight_eq_div_pow]
  omega

theorem imm15Of_classA (op : BitVec 5) (f1 : RegIdx) (f2 : RegIdx) (f3 : RegIdx) (imm : BitVec 15) :
    imm15Of (classA op f1 f2 f3 imm) = imm := by
  apply BitVec.eq_of_toNat_eq
  have := op.isLt; have := f1.isLt; have := f2.isLt; have := f3.isLt; have := imm.isLt
  simp only [imm15Of, bits, classA, BitVec.extractLsb'_toNat, toNat_append_add, Nat.shiftRight_eq_div_pow]
  omega

/-- A word is rebuilt from its fields. -/
theorem classA_fields (w : Word) : classA (opcodeOf w) (f1Of w) (f2Of w) (f3Of w) (imm15Of w) = w := by
  apply BitVec.eq_of_toNat_eq
  have := w.isLt
  simp only [classA, opcodeOf, f1Of, f2Of, f3Of, imm15Of, bits, BitVec.extractLsb'_toNat, toNat_append_add,
    Nat.shiftRight_eq_div_pow]
  omega

theorem opcodeOf_classB (op : BitVec 5) (f1 : RegIdx) (f2 : RegIdx) (imm : BitVec 19) :
    opcodeOf (classB op f1 f2 imm) = op := by
  apply BitVec.eq_of_toNat_eq
  have := op.isLt; have := f1.isLt; have := f2.isLt; have := imm.isLt
  simp only [opcodeOf, bits, classB, BitVec.extractLsb'_toNat, toNat_append_add, Nat.shiftRight_eq_div_pow]
  omega

theorem f1Of_classB (op : BitVec 5) (f1 : RegIdx) (f2 : RegIdx) (imm : BitVec 19) :
    f1Of (classB op f1 f2 imm) = f1 := by
  apply BitVec.eq_of_toNat_eq
  have := op.isLt; have := f1.isLt; have := f2.isLt; have := imm.isLt
  simp only [f1Of, bits, classB, BitVec.extractLsb'_toNat, toNat_append_add, Nat.shiftRight_eq_div_pow]
  omega

theorem f2Of_classB (op : BitVec 5) (f1 : RegIdx) (f2 : RegIdx) (imm : BitVec 19) :
    f2Of (classB op f1 f2 imm) = f2 := by
  apply BitVec.eq_of_toNat_eq
  have := op.isLt; have := f1.isLt; have := f2.isLt; have := imm.isLt
  simp only [f2Of, bits, classB, BitVec.extractLsb'_toNat, toNat_append_add, Nat.shiftRight_eq_div_pow]
  omega

theorem imm19Of_classB (op : BitVec 5) (f1 : RegIdx) (f2 : RegIdx) (imm : BitVec 19) :
    imm19Of (classB op f1 f2 imm) = imm := by
  apply BitVec.eq_of_toNat_eq
  have := op.isLt; have := f1.isLt; have := f2.isLt; have := imm.isLt
  simp only [imm19Of, bits, classB, BitVec.extractLsb'_toNat, toNat_append_add, Nat.shiftRight_eq_div_pow]
  omega

/-- A word is rebuilt from its fields. -/
theorem classB_fields (w : Word) : classB (opcodeOf w) (f1Of w) (f2Of w) (imm19Of w) = w := by
  apply BitVec.eq_of_toNat_eq
  have := w.isLt
  simp only [classB, opcodeOf, f1Of, f2Of, imm19Of, bits, BitVec.extractLsb'_toNat, toNat_append_add,
    Nat.shiftRight_eq_div_pow]
  omega

theorem opcodeOf_classC (op : BitVec 5) (f1 : RegIdx) (f2 : RegIdx) (cnd : BitVec 2) (imm : BitVec 17) :
    opcodeOf (classC op f1 f2 cnd imm) = op := by
  apply BitVec.eq_of_toNat_eq
  have := op.isLt; have := f1.isLt; have := f2.isLt; have := cnd.isLt; have := imm.isLt
  simp only [opcodeOf, bits, classC, BitVec.extractLsb'_toNat, toNat_append_add, Nat.shiftRight_eq_div_pow]
  omega

theorem f1Of_classC (op : BitVec 5) (f1 : RegIdx) (f2 : RegIdx) (cnd : BitVec 2) (imm : BitVec 17) :
    f1Of (classC op f1 f2 cnd imm) = f1 := by
  apply BitVec.eq_of_toNat_eq
  have := op.isLt; have := f1.isLt; have := f2.isLt; have := cnd.isLt; have := imm.isLt
  simp only [f1Of, bits, classC, BitVec.extractLsb'_toNat, toNat_append_add, Nat.shiftRight_eq_div_pow]
  omega

theorem f2Of_classC (op : BitVec 5) (f1 : RegIdx) (f2 : RegIdx) (cnd : BitVec 2) (imm : BitVec 17) :
    f2Of (classC op f1 f2 cnd imm) = f2 := by
  apply BitVec.eq_of_toNat_eq
  have := op.isLt; have := f1.isLt; have := f2.isLt; have := cnd.isLt; have := imm.isLt
  simp only [f2Of, bits, classC, BitVec.extractLsb'_toNat, toNat_append_add, Nat.shiftRight_eq_div_pow]
  omega

theorem cndOf_classC (op : BitVec 5) (f1 : RegIdx) (f2 : RegIdx) (cnd : BitVec 2) (imm : BitVec 17) :
    cndOf (classC op f1 f2 cnd imm) = cnd := by
  apply BitVec.eq_of_toNat_eq
  have := op.isLt; have := f1.isLt; have := f2.isLt; have := cnd.isLt; have := imm.isLt
  simp only [cndOf, bits, classC, BitVec.extractLsb'_toNat, toNat_append_add, Nat.shiftRight_eq_div_pow]
  omega

theorem imm17Of_classC (op : BitVec 5) (f1 : RegIdx) (f2 : RegIdx) (cnd : BitVec 2) (imm : BitVec 17) :
    imm17Of (classC op f1 f2 cnd imm) = imm := by
  apply BitVec.eq_of_toNat_eq
  have := op.isLt; have := f1.isLt; have := f2.isLt; have := cnd.isLt; have := imm.isLt
  simp only [imm17Of, bits, classC, BitVec.extractLsb'_toNat, toNat_append_add, Nat.shiftRight_eq_div_pow]
  omega

/-- A word is rebuilt from its fields. -/
theorem classC_fields (w : Word) : classC (opcodeOf w) (f1Of w) (f2Of w) (cndOf w) (imm17Of w) = w := by
  apply BitVec.eq_of_toNat_eq
  have := w.isLt
  simp only [classC, opcodeOf, f1Of, f2Of, cndOf, imm17Of, bits, BitVec.extractLsb'_toNat, toNat_append_add,
    Nat.shiftRight_eq_div_pow]
  omega

theorem opcodeOf_classD (op : BitVec 5) (f1 : RegIdx) (imm : BitVec 23) :
    opcodeOf (classD op f1 imm) = op := by
  apply BitVec.eq_of_toNat_eq
  have := op.isLt; have := f1.isLt; have := imm.isLt
  simp only [opcodeOf, bits, classD, BitVec.extractLsb'_toNat, toNat_append_add, Nat.shiftRight_eq_div_pow]
  omega

theorem f1Of_classD (op : BitVec 5) (f1 : RegIdx) (imm : BitVec 23) :
    f1Of (classD op f1 imm) = f1 := by
  apply BitVec.eq_of_toNat_eq
  have := op.isLt; have := f1.isLt; have := imm.isLt
  simp only [f1Of, bits, classD, BitVec.extractLsb'_toNat, toNat_append_add, Nat.shiftRight_eq_div_pow]
  omega

theorem imm23Of_classD (op : BitVec 5) (f1 : RegIdx) (imm : BitVec 23) :
    imm23Of (classD op f1 imm) = imm := by
  apply BitVec.eq_of_toNat_eq
  have := op.isLt; have := f1.isLt; have := imm.isLt
  simp only [imm23Of, bits, classD, BitVec.extractLsb'_toNat, toNat_append_add, Nat.shiftRight_eq_div_pow]
  omega

/-- A word is rebuilt from its fields. -/
theorem classD_fields (w : Word) : classD (opcodeOf w) (f1Of w) (imm23Of w) = w := by
  apply BitVec.eq_of_toNat_eq
  have := w.isLt
  simp only [classD, opcodeOf, f1Of, imm23Of, bits, BitVec.extractLsb'_toNat, toNat_append_add,
    Nat.shiftRight_eq_div_pow]
  omega

theorem opcodeOf_classNone (op : BitVec 5) (low : BitVec 27) :
    opcodeOf (classNone op low) = op := by
  apply BitVec.eq_of_toNat_eq
  have := op.isLt; have := low.isLt
  simp only [opcodeOf, bits, classNone, BitVec.extractLsb'_toNat, toNat_append_add, Nat.shiftRight_eq_div_pow]
  omega

theorem low27Of_classNone (op : BitVec 5) (low : BitVec 27) :
    low27Of (classNone op low) = low := by
  apply BitVec.eq_of_toNat_eq
  have := op.isLt; have := low.isLt
  simp only [low27Of, bits, classNone, BitVec.extractLsb'_toNat, toNat_append_add, Nat.shiftRight_eq_div_pow]
  omega

/-- A word is rebuilt from its fields. -/
theorem classNone_fields (w : Word) : classNone (opcodeOf w) (low27Of w) = w := by
  apply BitVec.eq_of_toNat_eq
  have := w.isLt
  simp only [classNone, opcodeOf, low27Of, bits, BitVec.extractLsb'_toNat, toNat_append_add,
    Nat.shiftRight_eq_div_pow]
  omega

/-- A condition and its code determine each other (R98). -/
theorem Cond.ofBits_toBits (c : Cond) : Cond.ofBits c.toBits = c := by cases c <;> rfl

theorem Cond.toBits_ofBits (c : BitVec 2) : (Cond.ofBits c).toBits = c := by revert c; decide

end Sys2Proof
end

