-- ==== Sys2Proof/Laws/State.lean ====
section
/-! SUPPORT. What each named update of the state leaves in each field: one lemma per field per update, true by
definition, so that no later proof unfolds a record update. -/

namespace Sys2Proof.Machine

@[simp] theorem inPhase_cfg (s : State) (p : Phase) : (inPhase s p).cfg = s.cfg := rfl
@[simp] theorem inPhase_pipelineEnabled (s : State) (p : Phase) : (inPhase s p).pipelineEnabled = s.pipelineEnabled := rfl
@[simp] theorem inPhase_cacheEnabled (s : State) (p : Phase) : (inPhase s p).cacheEnabled = s.cacheEnabled := rfl
@[simp] theorem inPhase_x (s : State) (p : Phase) : (inPhase s p).x = s.x := rfl
@[simp] theorem inPhase_pc (s : State) (p : Phase) : (inPhase s p).pc = s.pc := rfl
@[simp] theorem inPhase_fetchStopped (s : State) (p : Phase) : (inPhase s p).fetchStopped = s.fetchStopped := rfl
@[simp] theorem inPhase_stopped (s : State) (p : Phase) : (inPhase s p).stopped = s.stopped := rfl
@[simp] theorem inPhase_cycles (s : State) (p : Phase) : (inPhase s p).cycles = s.cycles := rfl
@[simp] theorem inPhase_instrs (s : State) (p : Phase) : (inPhase s p).instrs = s.instrs := rfl
@[simp] theorem inPhase_hits (s : State) (p : Phase) : (inPhase s p).hits = s.hits := rfl
@[simp] theorem inPhase_misses (s : State) (p : Phase) : (inPhase s p).misses = s.misses := rfl
@[simp] theorem inPhase_slotF (s : State) (p : Phase) : (inPhase s p).slotF = s.slotF := rfl
@[simp] theorem inPhase_slotD (s : State) (p : Phase) : (inPhase s p).slotD = s.slotD := rfl
@[simp] theorem inPhase_slotX (s : State) (p : Phase) : (inPhase s p).slotX = s.slotX := rfl
@[simp] theorem inPhase_slotM (s : State) (p : Phase) : (inPhase s p).slotM = s.slotM := rfl
@[simp] theorem inPhase_slotW (s : State) (p : Phase) : (inPhase s p).slotW = s.slotW := rfl
@[simp] theorem inPhase_ram (s : State) (p : Phase) : (inPhase s p).ram = s.ram := rfl
@[simp] theorem inPhase_lines (s : State) (p : Phase) : (inPhase s p).lines = s.lines := rfl
@[simp] theorem inPhase_port (s : State) (p : Phase) : (inPhase s p).port = s.port := rfl
@[simp] theorem inPhase_phase (s : State) (p : Phase) : (inPhase s p).phase = p := rfl
@[simp] theorem inPhase_inPhase (s : State) (p q : Phase) : inPhase (inPhase s p) q = inPhase s q := rfl
@[simp] theorem inPhase_self (s : State) : inPhase s s.phase = s := rfl

@[simp] theorem writeReg_cfg (s : State) (r : RegIdx) (v : Word) : (writeReg s r v).cfg = s.cfg := rfl
@[simp] theorem writeReg_pipelineEnabled (s : State) (r : RegIdx) (v : Word) : (writeReg s r v).pipelineEnabled = s.pipelineEnabled := rfl
@[simp] theorem writeReg_cacheEnabled (s : State) (r : RegIdx) (v : Word) : (writeReg s r v).cacheEnabled = s.cacheEnabled := rfl
@[simp] theorem writeReg_pc (s : State) (r : RegIdx) (v : Word) : (writeReg s r v).pc = s.pc := rfl
@[simp] theorem writeReg_fetchStopped (s : State) (r : RegIdx) (v : Word) : (writeReg s r v).fetchStopped = s.fetchStopped := rfl
@[simp] theorem writeReg_stopped (s : State) (r : RegIdx) (v : Word) : (writeReg s r v).stopped = s.stopped := rfl
@[simp] theorem writeReg_cycles (s : State) (r : RegIdx) (v : Word) : (writeReg s r v).cycles = s.cycles := rfl
@[simp] theorem writeReg_instrs (s : State) (r : RegIdx) (v : Word) : (writeReg s r v).instrs = s.instrs := rfl
@[simp] theorem writeReg_hits (s : State) (r : RegIdx) (v : Word) : (writeReg s r v).hits = s.hits := rfl
@[simp] theorem writeReg_misses (s : State) (r : RegIdx) (v : Word) : (writeReg s r v).misses = s.misses := rfl
@[simp] theorem writeReg_slotF (s : State) (r : RegIdx) (v : Word) : (writeReg s r v).slotF = s.slotF := rfl
@[simp] theorem writeReg_slotD (s : State) (r : RegIdx) (v : Word) : (writeReg s r v).slotD = s.slotD := rfl
@[simp] theorem writeReg_slotX (s : State) (r : RegIdx) (v : Word) : (writeReg s r v).slotX = s.slotX := rfl
@[simp] theorem writeReg_slotM (s : State) (r : RegIdx) (v : Word) : (writeReg s r v).slotM = s.slotM := rfl
@[simp] theorem writeReg_slotW (s : State) (r : RegIdx) (v : Word) : (writeReg s r v).slotW = s.slotW := rfl
@[simp] theorem writeReg_ram (s : State) (r : RegIdx) (v : Word) : (writeReg s r v).ram = s.ram := rfl
@[simp] theorem writeReg_lines (s : State) (r : RegIdx) (v : Word) : (writeReg s r v).lines = s.lines := rfl
@[simp] theorem writeReg_port (s : State) (r : RegIdx) (v : Word) : (writeReg s r v).port = s.port := rfl
@[simp] theorem writeReg_phase (s : State) (r : RegIdx) (v : Word) : (writeReg s r v).phase = s.phase := rfl

@[simp] theorem setLine_cfg (s : State) (k : Nat) (l : Line) : (setLine s k l).cfg = s.cfg := rfl
@[simp] theorem setLine_pipelineEnabled (s : State) (k : Nat) (l : Line) : (setLine s k l).pipelineEnabled = s.pipelineEnabled := rfl
@[simp] theorem setLine_cacheEnabled (s : State) (k : Nat) (l : Line) : (setLine s k l).cacheEnabled = s.cacheEnabled := rfl
@[simp] theorem setLine_x (s : State) (k : Nat) (l : Line) : (setLine s k l).x = s.x := rfl
@[simp] theorem setLine_pc (s : State) (k : Nat) (l : Line) : (setLine s k l).pc = s.pc := rfl
@[simp] theorem setLine_fetchStopped (s : State) (k : Nat) (l : Line) : (setLine s k l).fetchStopped = s.fetchStopped := rfl
@[simp] theorem setLine_stopped (s : State) (k : Nat) (l : Line) : (setLine s k l).stopped = s.stopped := rfl
@[simp] theorem setLine_cycles (s : State) (k : Nat) (l : Line) : (setLine s k l).cycles = s.cycles := rfl
@[simp] theorem setLine_instrs (s : State) (k : Nat) (l : Line) : (setLine s k l).instrs = s.instrs := rfl
@[simp] theorem setLine_hits (s : State) (k : Nat) (l : Line) : (setLine s k l).hits = s.hits := rfl
@[simp] theorem setLine_misses (s : State) (k : Nat) (l : Line) : (setLine s k l).misses = s.misses := rfl
@[simp] theorem setLine_slotF (s : State) (k : Nat) (l : Line) : (setLine s k l).slotF = s.slotF := rfl
@[simp] theorem setLine_slotD (s : State) (k : Nat) (l : Line) : (setLine s k l).slotD = s.slotD := rfl
@[simp] theorem setLine_slotX (s : State) (k : Nat) (l : Line) : (setLine s k l).slotX = s.slotX := rfl
@[simp] theorem setLine_slotM (s : State) (k : Nat) (l : Line) : (setLine s k l).slotM = s.slotM := rfl
@[simp] theorem setLine_slotW (s : State) (k : Nat) (l : Line) : (setLine s k l).slotW = s.slotW := rfl
@[simp] theorem setLine_ram (s : State) (k : Nat) (l : Line) : (setLine s k l).ram = s.ram := rfl
@[simp] theorem setLine_lines (s : State) (k : Nat) (l : Line) : (setLine s k l).lines = s.lines.set k l := rfl
@[simp] theorem setLine_port (s : State) (k : Nat) (l : Line) : (setLine s k l).port = s.port := rfl
@[simp] theorem setLine_phase (s : State) (k : Nat) (l : Line) : (setLine s k l).phase = s.phase := rfl

@[simp] theorem retire_cfg (s : State) : (retire s).cfg = s.cfg := rfl
@[simp] theorem retire_pipelineEnabled (s : State) : (retire s).pipelineEnabled = s.pipelineEnabled := rfl
@[simp] theorem retire_cacheEnabled (s : State) : (retire s).cacheEnabled = s.cacheEnabled := rfl
@[simp] theorem retire_x (s : State) : (retire s).x = s.x := rfl
@[simp] theorem retire_pc (s : State) : (retire s).pc = s.pc + 1 := rfl
@[simp] theorem retire_fetchStopped (s : State) : (retire s).fetchStopped = s.fetchStopped := rfl
@[simp] theorem retire_stopped (s : State) : (retire s).stopped = s.stopped := rfl
@[simp] theorem retire_cycles (s : State) : (retire s).cycles = s.cycles := rfl
@[simp] theorem retire_instrs (s : State) : (retire s).instrs = s.instrs + 1 := rfl
@[simp] theorem retire_hits (s : State) : (retire s).hits = s.hits := rfl
@[simp] theorem retire_misses (s : State) : (retire s).misses = s.misses := rfl
@[simp] theorem retire_slotF (s : State) : (retire s).slotF = s.slotF := rfl
@[simp] theorem retire_slotD (s : State) : (retire s).slotD = s.slotD := rfl
@[simp] theorem retire_slotX (s : State) : (retire s).slotX = s.slotX := rfl
@[simp] theorem retire_slotM (s : State) : (retire s).slotM = s.slotM := rfl
@[simp] theorem retire_slotW (s : State) : (retire s).slotW = s.slotW := rfl
@[simp] theorem retire_ram (s : State) : (retire s).ram = s.ram := rfl
@[simp] theorem retire_lines (s : State) : (retire s).lines = s.lines := rfl
@[simp] theorem retire_port (s : State) : (retire s).port = s.port := rfl
@[simp] theorem retire_phase (s : State) : (retire s).phase = s.phase := rfl

@[simp] theorem retireTo_cfg (s : State) (t : Word) : (retireTo s t).cfg = s.cfg := rfl
@[simp] theorem retireTo_pipelineEnabled (s : State) (t : Word) : (retireTo s t).pipelineEnabled = s.pipelineEnabled := rfl
@[simp] theorem retireTo_cacheEnabled (s : State) (t : Word) : (retireTo s t).cacheEnabled = s.cacheEnabled := rfl
@[simp] theorem retireTo_x (s : State) (t : Word) : (retireTo s t).x = s.x := rfl
@[simp] theorem retireTo_pc (s : State) (t : Word) : (retireTo s t).pc = t := rfl
@[simp] theorem retireTo_fetchStopped (s : State) (t : Word) : (retireTo s t).fetchStopped = s.fetchStopped := rfl
@[simp] theorem retireTo_stopped (s : State) (t : Word) : (retireTo s t).stopped = s.stopped := rfl
@[simp] theorem retireTo_cycles (s : State) (t : Word) : (retireTo s t).cycles = s.cycles := rfl
@[simp] theorem retireTo_instrs (s : State) (t : Word) : (retireTo s t).instrs = s.instrs + 1 := rfl
@[simp] theorem retireTo_hits (s : State) (t : Word) : (retireTo s t).hits = s.hits := rfl
@[simp] theorem retireTo_misses (s : State) (t : Word) : (retireTo s t).misses = s.misses := rfl
@[simp] theorem retireTo_slotF (s : State) (t : Word) : (retireTo s t).slotF = s.slotF := rfl
@[simp] theorem retireTo_slotD (s : State) (t : Word) : (retireTo s t).slotD = s.slotD := rfl
@[simp] theorem retireTo_slotX (s : State) (t : Word) : (retireTo s t).slotX = s.slotX := rfl
@[simp] theorem retireTo_slotM (s : State) (t : Word) : (retireTo s t).slotM = s.slotM := rfl
@[simp] theorem retireTo_slotW (s : State) (t : Word) : (retireTo s t).slotW = s.slotW := rfl
@[simp] theorem retireTo_ram (s : State) (t : Word) : (retireTo s t).ram = s.ram := rfl
@[simp] theorem retireTo_lines (s : State) (t : Word) : (retireTo s t).lines = s.lines := rfl
@[simp] theorem retireTo_port (s : State) (t : Word) : (retireTo s t).port = s.port := rfl
@[simp] theorem retireTo_phase (s : State) (t : Word) : (retireTo s t).phase = s.phase := rfl

@[simp] theorem signalHalt_cfg (s : State) : (signalHalt s).cfg = s.cfg := rfl
@[simp] theorem signalHalt_pipelineEnabled (s : State) : (signalHalt s).pipelineEnabled = s.pipelineEnabled := rfl
@[simp] theorem signalHalt_cacheEnabled (s : State) : (signalHalt s).cacheEnabled = s.cacheEnabled := rfl
@[simp] theorem signalHalt_x (s : State) : (signalHalt s).x = s.x := rfl
@[simp] theorem signalHalt_pc (s : State) : (signalHalt s).pc = s.pc := rfl
@[simp] theorem signalHalt_fetchStopped (s : State) : (signalHalt s).fetchStopped = true := rfl
@[simp] theorem signalHalt_stopped (s : State) : (signalHalt s).stopped = true := rfl
@[simp] theorem signalHalt_cycles (s : State) : (signalHalt s).cycles = s.cycles := rfl
@[simp] theorem signalHalt_instrs (s : State) : (signalHalt s).instrs = s.instrs := rfl
@[simp] theorem signalHalt_hits (s : State) : (signalHalt s).hits = s.hits := rfl
@[simp] theorem signalHalt_misses (s : State) : (signalHalt s).misses = s.misses := rfl
@[simp] theorem signalHalt_slotF (s : State) : (signalHalt s).slotF = s.slotF := rfl
@[simp] theorem signalHalt_slotD (s : State) : (signalHalt s).slotD = s.slotD := rfl
@[simp] theorem signalHalt_slotX (s : State) : (signalHalt s).slotX = s.slotX := rfl
@[simp] theorem signalHalt_slotM (s : State) : (signalHalt s).slotM = s.slotM := rfl
@[simp] theorem signalHalt_slotW (s : State) : (signalHalt s).slotW = s.slotW := rfl
@[simp] theorem signalHalt_ram (s : State) : (signalHalt s).ram = s.ram := rfl
@[simp] theorem signalHalt_lines (s : State) : (signalHalt s).lines = s.lines := rfl
@[simp] theorem signalHalt_port (s : State) : (signalHalt s).port = s.port := rfl
@[simp] theorem signalHalt_phase (s : State) : (signalHalt s).phase = s.phase := rfl

@[simp] theorem leaveMemory_cfg (r : Decoded) (s : State) : (leaveMemory r s).cfg = s.cfg := rfl
@[simp] theorem leaveMemory_pipelineEnabled (r : Decoded) (s : State) : (leaveMemory r s).pipelineEnabled = s.pipelineEnabled := rfl
@[simp] theorem leaveMemory_cacheEnabled (r : Decoded) (s : State) : (leaveMemory r s).cacheEnabled = s.cacheEnabled := rfl
@[simp] theorem leaveMemory_x (r : Decoded) (s : State) : (leaveMemory r s).x = s.x := rfl
@[simp] theorem leaveMemory_pc (r : Decoded) (s : State) : (leaveMemory r s).pc = s.pc := rfl
@[simp] theorem leaveMemory_fetchStopped (r : Decoded) (s : State) : (leaveMemory r s).fetchStopped = s.fetchStopped := rfl
@[simp] theorem leaveMemory_stopped (r : Decoded) (s : State) : (leaveMemory r s).stopped = s.stopped := rfl
@[simp] theorem leaveMemory_cycles (r : Decoded) (s : State) : (leaveMemory r s).cycles = s.cycles := rfl
@[simp] theorem leaveMemory_instrs (r : Decoded) (s : State) : (leaveMemory r s).instrs = s.instrs := rfl
@[simp] theorem leaveMemory_hits (r : Decoded) (s : State) : (leaveMemory r s).hits = s.hits := rfl
@[simp] theorem leaveMemory_misses (r : Decoded) (s : State) : (leaveMemory r s).misses = s.misses := rfl
@[simp] theorem leaveMemory_slotF (r : Decoded) (s : State) : (leaveMemory r s).slotF = s.slotF := rfl
@[simp] theorem leaveMemory_slotD (r : Decoded) (s : State) : (leaveMemory r s).slotD = s.slotD := rfl
@[simp] theorem leaveMemory_slotX (r : Decoded) (s : State) : (leaveMemory r s).slotX = s.slotX := rfl
@[simp] theorem leaveMemory_slotM (r : Decoded) (s : State) : (leaveMemory r s).slotM = .empty := rfl
@[simp] theorem leaveMemory_slotW (r : Decoded) (s : State) : (leaveMemory r s).slotW = .inFlight { r with status := .normal } := rfl
@[simp] theorem leaveMemory_ram (r : Decoded) (s : State) : (leaveMemory r s).ram = s.ram := rfl
@[simp] theorem leaveMemory_lines (r : Decoded) (s : State) : (leaveMemory r s).lines = s.lines := rfl
@[simp] theorem leaveMemory_port (r : Decoded) (s : State) : (leaveMemory r s).port = s.port := rfl
@[simp] theorem leaveMemory_phase (r : Decoded) (s : State) : (leaveMemory r s).phase = s.phase := rfl

@[simp] theorem fillLine_cfg (s : State) (a : Nat) : (fillLine s a).cfg = s.cfg := rfl
@[simp] theorem fillLine_pipelineEnabled (s : State) (a : Nat) : (fillLine s a).pipelineEnabled = s.pipelineEnabled := rfl
@[simp] theorem fillLine_cacheEnabled (s : State) (a : Nat) : (fillLine s a).cacheEnabled = s.cacheEnabled := rfl
@[simp] theorem fillLine_x (s : State) (a : Nat) : (fillLine s a).x = s.x := rfl
@[simp] theorem fillLine_pc (s : State) (a : Nat) : (fillLine s a).pc = s.pc := rfl
@[simp] theorem fillLine_fetchStopped (s : State) (a : Nat) : (fillLine s a).fetchStopped = s.fetchStopped := rfl
@[simp] theorem fillLine_stopped (s : State) (a : Nat) : (fillLine s a).stopped = s.stopped := rfl
@[simp] theorem fillLine_cycles (s : State) (a : Nat) : (fillLine s a).cycles = s.cycles := rfl
@[simp] theorem fillLine_instrs (s : State) (a : Nat) : (fillLine s a).instrs = s.instrs := rfl
@[simp] theorem fillLine_hits (s : State) (a : Nat) : (fillLine s a).hits = s.hits := rfl
@[simp] theorem fillLine_misses (s : State) (a : Nat) : (fillLine s a).misses = s.misses := rfl
@[simp] theorem fillLine_slotF (s : State) (a : Nat) : (fillLine s a).slotF = s.slotF := rfl
@[simp] theorem fillLine_slotD (s : State) (a : Nat) : (fillLine s a).slotD = s.slotD := rfl
@[simp] theorem fillLine_slotX (s : State) (a : Nat) : (fillLine s a).slotX = s.slotX := rfl
@[simp] theorem fillLine_slotM (s : State) (a : Nat) : (fillLine s a).slotM = s.slotM := rfl
@[simp] theorem fillLine_slotW (s : State) (a : Nat) : (fillLine s a).slotW = s.slotW := rfl
@[simp] theorem fillLine_ram (s : State) (a : Nat) : (fillLine s a).ram = s.ram := rfl
@[simp] theorem fillLine_port (s : State) (a : Nat) : (fillLine s a).port = s.port := rfl
@[simp] theorem fillLine_phase (s : State) (a : Nat) : (fillLine s a).phase = s.phase := rfl

@[simp] theorem writeCachedWord_cfg (s : State) (a : Nat) (v : Word) : (writeCachedWord s a v).cfg = s.cfg := rfl
@[simp] theorem writeCachedWord_pipelineEnabled (s : State) (a : Nat) (v : Word) : (writeCachedWord s a v).pipelineEnabled = s.pipelineEnabled := rfl
@[simp] theorem writeCachedWord_cacheEnabled (s : State) (a : Nat) (v : Word) : (writeCachedWord s a v).cacheEnabled = s.cacheEnabled := rfl
@[simp] theorem writeCachedWord_x (s : State) (a : Nat) (v : Word) : (writeCachedWord s a v).x = s.x := rfl
@[simp] theorem writeCachedWord_pc (s : State) (a : Nat) (v : Word) : (writeCachedWord s a v).pc = s.pc := rfl
@[simp] theorem writeCachedWord_fetchStopped (s : State) (a : Nat) (v : Word) : (writeCachedWord s a v).fetchStopped = s.fetchStopped := rfl
@[simp] theorem writeCachedWord_stopped (s : State) (a : Nat) (v : Word) : (writeCachedWord s a v).stopped = s.stopped := rfl
@[simp] theorem writeCachedWord_cycles (s : State) (a : Nat) (v : Word) : (writeCachedWord s a v).cycles = s.cycles := rfl
@[simp] theorem writeCachedWord_instrs (s : State) (a : Nat) (v : Word) : (writeCachedWord s a v).instrs = s.instrs := rfl
@[simp] theorem writeCachedWord_hits (s : State) (a : Nat) (v : Word) : (writeCachedWord s a v).hits = s.hits := rfl
@[simp] theorem writeCachedWord_misses (s : State) (a : Nat) (v : Word) : (writeCachedWord s a v).misses = s.misses := rfl
@[simp] theorem writeCachedWord_slotF (s : State) (a : Nat) (v : Word) : (writeCachedWord s a v).slotF = s.slotF := rfl
@[simp] theorem writeCachedWord_slotD (s : State) (a : Nat) (v : Word) : (writeCachedWord s a v).slotD = s.slotD := rfl
@[simp] theorem writeCachedWord_slotX (s : State) (a : Nat) (v : Word) : (writeCachedWord s a v).slotX = s.slotX := rfl
@[simp] theorem writeCachedWord_slotM (s : State) (a : Nat) (v : Word) : (writeCachedWord s a v).slotM = s.slotM := rfl
@[simp] theorem writeCachedWord_slotW (s : State) (a : Nat) (v : Word) : (writeCachedWord s a v).slotW = s.slotW := rfl
@[simp] theorem writeCachedWord_ram (s : State) (a : Nat) (v : Word) : (writeCachedWord s a v).ram = s.ram := rfl
@[simp] theorem writeCachedWord_port (s : State) (a : Nat) (v : Word) : (writeCachedWord s a v).port = s.port := rfl
@[simp] theorem writeCachedWord_phase (s : State) (a : Nat) (v : Word) : (writeCachedWord s a v).phase = s.phase := rfl

@[simp] theorem flushLine_cfg (s : State) (k : Nat) : (flushLine s k).cfg = s.cfg := rfl
@[simp] theorem flushLine_pipelineEnabled (s : State) (k : Nat) : (flushLine s k).pipelineEnabled = s.pipelineEnabled := rfl
@[simp] theorem flushLine_cacheEnabled (s : State) (k : Nat) : (flushLine s k).cacheEnabled = s.cacheEnabled := rfl
@[simp] theorem flushLine_x (s : State) (k : Nat) : (flushLine s k).x = s.x := rfl
@[simp] theorem flushLine_pc (s : State) (k : Nat) : (flushLine s k).pc = s.pc := rfl
@[simp] theorem flushLine_fetchStopped (s : State) (k : Nat) : (flushLine s k).fetchStopped = s.fetchStopped := rfl
@[simp] theorem flushLine_stopped (s : State) (k : Nat) : (flushLine s k).stopped = s.stopped := rfl
@[simp] theorem flushLine_cycles (s : State) (k : Nat) : (flushLine s k).cycles = s.cycles := rfl
@[simp] theorem flushLine_instrs (s : State) (k : Nat) : (flushLine s k).instrs = s.instrs := rfl
@[simp] theorem flushLine_hits (s : State) (k : Nat) : (flushLine s k).hits = s.hits := rfl
@[simp] theorem flushLine_misses (s : State) (k : Nat) : (flushLine s k).misses = s.misses := rfl
@[simp] theorem flushLine_slotF (s : State) (k : Nat) : (flushLine s k).slotF = s.slotF := rfl
@[simp] theorem flushLine_slotD (s : State) (k : Nat) : (flushLine s k).slotD = s.slotD := rfl
@[simp] theorem flushLine_slotX (s : State) (k : Nat) : (flushLine s k).slotX = s.slotX := rfl
@[simp] theorem flushLine_slotM (s : State) (k : Nat) : (flushLine s k).slotM = s.slotM := rfl
@[simp] theorem flushLine_slotW (s : State) (k : Nat) : (flushLine s k).slotW = s.slotW := rfl
@[simp] theorem flushLine_ram (s : State) (k : Nat) : (flushLine s k).ram = s.ram.writeBlock (blockBase s.cfg (lineAt s k).tag k) (lineAt s k).data := rfl
@[simp] theorem flushLine_port (s : State) (k : Nat) : (flushLine s k).port = s.port := rfl
@[simp] theorem flushLine_phase (s : State) (k : Nat) : (flushLine s k).phase = s.phase := rfl

/-- Reading a register after a write: the new value in the register written, every other unchanged. -/
@[simp] theorem readReg_writeReg (s : State) (r i : RegIdx) (v : Word) :
    readReg (writeReg s r v) i = if i = r then v else readReg s i := by
  unfold readReg writeReg
  rw [Vector.getElem_set]
  by_cases h : i = r
  · simp [h]
  · have : r.toNat ≠ i.toNat := fun e => h (BitVec.eq_of_toNat_eq e.symm)
    simp [h, this]

/-- A register write leaves the entries no instruction can name (R20). -/
theorem writeReg_spare (s : State) (r : RegIdx) (v : Word) (i : Nat) (hi : i < 32) (h : 16 ≤ i) :
    (writeReg s r v).x[i] = s.x[i] := by
  unfold writeReg
  have := r.isLt
  rw [Vector.getElem_set]
  simp only [show ¬ r.toNat = i by omega, if_false]

end Sys2Proof.Machine
end

