-- ==== Sys2Proof/Laws/Memory.lean ====
section
/-! SUPPORT. RAM as a list: reads after writes, and the canonical form that every write keeps. -/

namespace Sys2Proof.Machine

theorem Memory.wf_nil : Memory.wf [] = true := rfl

/-- The canonical form, as two facts. -/
theorem Memory.wf_iff (m : Memory) :
    m.wf = true ↔ (m.Pairwise fun c d => c.1 < d.1) ∧ ∀ c ∈ m, c.2 ≠ Memory.unlisted := by
  simp [Memory.wf]

theorem Memory.wf_cons (c : WordCell) (m : Memory) :
    Memory.wf (c :: m) = true ↔ (∀ d ∈ m, c.1 < d.1) ∧ c.2 ≠ Memory.unlisted ∧ m.wf = true := by
  simp only [Memory.wf_iff, List.pairwise_cons, List.mem_cons, forall_eq_or_imp]
  tauto

/-- An address listed nowhere reads as the unlisted value. -/
theorem Memory.read_of_not_listed (m : Memory) (a : Nat) (h : ∀ c ∈ m, c.1 ≠ a) : m.read a = Memory.unlisted := by
  induction m with
  | nil => rfl
  | cons c m ih =>
    obtain ⟨b, w⟩ := c
    have hb : a ≠ b := fun e => h (b, w) (by simp) e.symm
    simp only [Memory.read, if_neg hb]
    exact ih fun c hc => h c (by simp [hc])

/-- Every entry after a write is one that was there, or the word written. -/
theorem Memory.mem_write {m : Memory} {a : Nat} {v : Word} {c : WordCell} (h : c ∈ m.write a v) :
    c ∈ m ∨ (c = (a, v) ∧ v ≠ Memory.unlisted) := by
  induction m with
  | nil =>
    simp only [Memory.write] at h
    split at h
    · simp at h
    · simp only [List.mem_singleton] at h
      exact .inr ⟨h, ‹_›⟩
  | cons d m ih =>
    obtain ⟨b, w⟩ := d
    simp only [Memory.write] at h
    split at h
    · split at h
      · exact .inl h
      · rcases List.mem_cons.1 h with rfl | h
        · exact .inr ⟨rfl, ‹_›⟩
        · exact .inl h
    · split at h
      · split at h
        · exact .inl (List.mem_cons_of_mem _ h)
        · rcases List.mem_cons.1 h with rfl | h
          · exact .inr ⟨rfl, ‹_›⟩
          · exact .inl (List.mem_cons_of_mem _ h)
      · rcases List.mem_cons.1 h with rfl | h
        · exact .inl (by simp)
        · rcases ih h with h | h
          · exact .inl (List.mem_cons_of_mem _ h)
          · exact .inr h

/-- A write keeps the canonical form. -/
theorem Memory.wf_write {m : Memory} (hm : m.wf = true) (a : Nat) (v : Word) : (m.write a v).wf = true := by
  induction m with
  | nil =>
    simp only [Memory.write]
    split
    · rfl
    · simp [Memory.wf_cons, *]
  | cons d m ih =>
    obtain ⟨b, w⟩ := d
    obtain ⟨hlt, hw, hwf⟩ := (Memory.wf_cons _ _).1 hm
    simp only [Memory.write]
    split
    · split
      · exact hm
      · refine (Memory.wf_cons _ _).2 ⟨?_, ‹_›, hm⟩
        intro d hd
        rcases List.mem_cons.1 hd with rfl | hd
        · assumption
        · exact Nat.lt_trans ‹a < b› (hlt d hd)
    · split
      · subst ‹a = b›
        split
        · exact hwf
        · exact (Memory.wf_cons _ _).2 ⟨hlt, ‹_›, hwf⟩
      · refine (Memory.wf_cons _ _).2 ⟨?_, hw, ih hwf⟩
        intro d hd
        rcases Memory.mem_write hd with hd | ⟨rfl, -⟩
        · exact hlt d hd
        · simp only; omega

/-- Reading after a write to canonical RAM: the word written at its address, every other word unchanged. -/
theorem Memory.read_write {m : Memory} (hm : m.wf = true) (a : Nat) (v : Word) (b : Nat) :
    (m.write a v).read b = if b = a then v else m.read b := by
  induction m with
  | nil =>
    simp only [Memory.write]
    by_cases hv : v = Memory.unlisted
    · simp [hv, Memory.read]
    · simp [hv, Memory.read]
  | cons d m ih =>
    obtain ⟨c, w⟩ := d
    obtain ⟨hlt, hw, hwf⟩ := (Memory.wf_cons _ _).1 hm
    have hnot : ∀ e, e ≤ c → Memory.read m e = Memory.unlisted := fun e he =>
      Memory.read_of_not_listed m e fun x hx => by have := hlt x hx; simp only at this; omega
    simp only [Memory.write]
    by_cases hac : a < c
    · by_cases hv : v = Memory.unlisted
      · simp only [if_pos hac, if_pos hv, Memory.read]
        by_cases hb : b = a
        · subst hb
          rw [if_neg (by omega), if_pos rfl, hnot b (by omega), hv]
        · rw [if_neg hb]
      · simp only [if_pos hac, if_neg hv, Memory.read]
    · by_cases hce : a = c
      · subst hce
        by_cases hv : v = Memory.unlisted
        · simp only [if_neg hac, if_pos hv, if_true, Memory.read]
          by_cases hb : b = a
          · rw [if_pos hb, hb, hnot a (Nat.le_refl a), hv]
          · rw [if_neg hb, if_neg hb]
        · simp only [if_neg hac, if_neg hv, if_true, Memory.read]
          by_cases hb : b = a
          · simp [hb]
          · simp [hb]
      · simp only [if_neg hac, if_neg hce, Memory.read]
        by_cases hb : b = c
        · simp [hb, show c ≠ a from fun e => hce e.symm]
        · simp only [if_neg hb]
          exact ih hwf

/-- A block write keeps the canonical form. -/
theorem Memory.wf_writeBlock {m : Memory} (hm : m.wf = true) (base : Nat) (ws : List Word) :
    (m.writeBlock base ws).wf = true := by
  induction ws generalizing m base with
  | nil => exact hm
  | cons w ws ih => exact ih (Memory.wf_write hm base w) (base + 1)

/-- Reading after a block write: the block's own words inside it, every other word unchanged. -/
theorem Memory.read_writeBlock {m : Memory} (hm : m.wf = true) (base : Nat) (ws : List Word) (b : Nat) :
    (m.writeBlock base ws).read b =
      if base ≤ b ∧ b < base + ws.length then ws.getD (b - base) 0 else m.read b := by
  induction ws generalizing m base with
  | nil => simp [Memory.writeBlock]
  | cons w ws ih =>
    simp only [Memory.writeBlock]
    rw [ih (Memory.wf_write hm base w) (base + 1), Memory.read_write hm]
    by_cases h1 : b = base
    · subst h1; simp
    · by_cases h2 : base + 1 ≤ b ∧ b < base + 1 + ws.length
      · have h3 : base ≤ b ∧ b < base + (w :: ws).length := by simp only [List.length_cons]; omega
        rw [if_pos h2, if_pos h3]
        have : b - base = b - (base + 1) + 1 := by omega
        rw [this, List.getD_cons_succ]
      · have h3 : ¬ (base ≤ b ∧ b < base + (w :: ws).length) := by simp only [List.length_cons]; omega
        rw [if_neg h2, if_neg h3, if_neg h1]

/-- Every entry after a block write was there, or lies in the block. -/
theorem Memory.mem_writeBlock {m : Memory} {base : Nat} {ws : List Word} {c : WordCell}
    (h : c ∈ m.writeBlock base ws) : c ∈ m ∨ (base ≤ c.1 ∧ c.1 < base + ws.length) := by
  induction ws generalizing m base with
  | nil => exact .inl h
  | cons w ws ih =>
    simp only [List.length_cons]
    rcases ih h with h | h
    · rcases Memory.mem_write h with h | ⟨rfl, -⟩
      · exact .inl h
      · exact .inr (by simp only; omega)
    · exact .inr (by omega)

/-- The words of a block, one by one. -/
theorem Memory.readBlock_getD (m : Memory) (base n i : Nat) (h : i < n) :
    (m.readBlock base n).getD i 0 = m.read (base + i) := by
  simp [Memory.readBlock, List.getD, h]

@[simp] theorem Memory.length_readBlock (m : Memory) (base n : Nat) : (m.readBlock base n).length = n := by
  simp [Memory.readBlock]

/-- The backdoor keeps the canonical form. -/
theorem forceWrite_wf {s : State} (h : s.ram.wf = true) (a : Nat) (w : Word) : (forceWrite s a w).ram.wf = true := by
  unfold forceWrite
  split
  · exact Memory.wf_write h a w
  · exact h

/-- The architectural write keeps the canonical form. -/
theorem memWrite_wf {s : State} (h : s.ram.wf = true) (a : Nat) (v : Word) : (memWrite s a v).ram.wf = true := by
  unfold memWrite
  split
  · exact h
  · exact Memory.wf_write h a v

/-- The flush of a line keeps the canonical form. -/
theorem flushLine_wf {s : State} (h : s.ram.wf = true) (k : Nat) : (flushLine s k).ram.wf = true :=
  Memory.wf_writeBlock h _ _

/-- RAM at power-on is in canonical form. -/
theorem powerOn_wf (c : Config) (p e : Bool) : (State.powerOn c p e).ram.wf = true := rfl

end Sys2Proof.Machine
end

