-- ==== Sys2Proof/Laws/Hierarchy.lean ====
section
/-! SUPPORT. What a call of the memory hierarchy can do (20_memory.md R60 to R75), said once: it changes only RAM, the
lines, the port and the two counters; who is refused; what the disabled cache does; and that every call keeps RAM in
canonical form. -/

namespace Sys2Proof.Machine

/-- Two states differ at most in what the hierarchy owns (R11): RAM, the lines, the port, `hits` and `misses`. -/
def SameButHierarchy (s t : State) : Prop :=
  t = { s with ram := t.ram, lines := t.lines, port := t.port, hits := t.hits, misses := t.misses }

theorem SameButHierarchy.refl (s : State) : SameButHierarchy s s := rfl

theorem SameButHierarchy.trans {s t u : State} (h : SameButHierarchy s t) (k : SameButHierarchy t u) :
    SameButHierarchy s u := by
  unfold SameButHierarchy at *
  rw [h] at k
  exact k

theorem abort_same (s : State) (stage : Requester) : SameButHierarchy s (abort s stage) := by
  unfold abort
  split
  · rfl
  · split <;> rfl

/-- `abort` touches the port alone (R74). -/
theorem abort_eq (s : State) (stage : Requester) : abort s stage = { s with port := (abort s stage).port } := by
  unfold abort
  split
  · rfl
  · split <;> rfl

theorem completeAccess_same (s : State) (q : Request) : SameButHierarchy s (completeAccess s q).1 := by
  unfold completeAccess
  cases q.kind <;> cases hitAt s q.addr <;> rfl

theorem countAccess_same (s : State) (a : Nat) : SameButHierarchy s (countAccess s a) := by
  unfold countAccess
  split
  · rfl
  · split <;> rfl

theorem acceptRequest_same (s : State) (q : Request) (stage : Requester) :
    SameButHierarchy s (acceptRequest s q stage).1 := by
  unfold acceptRequest
  split
  · exact (countAccess_same s q.addr).trans (completeAccess_same _ q)
  · exact (countAccess_same s q.addr).trans rfl

/-- A call of the hierarchy changes nothing outside it. -/
theorem access_same (s : State) (q : Request) (stage : Requester) : SameButHierarchy s (access s q stage).1 := by
  unfold access
  split
  · split
    · exact acceptRequest_same s q stage
    · split
      · rfl
      · split
        · exact (abort_same s stage).trans (acceptRequest_same _ q stage)
        · split
          · exact SameButHierarchy.trans (t := { s with port := none }) rfl (completeAccess_same _ q)
          · rfl
  · split <;> rfl

/-- With the cache disabled every access is done at once, directly against RAM (R65). -/
theorem access_disabled {s : State} (h : s.cacheEnabled = false) (q : Request) (stage : Requester) :
    access s q stage =
      match q.kind with
      | .write => ({ s with ram := s.ram.write q.addr q.value }, .done 0)
      | .read => (s, .done (s.ram.read q.addr)) := by
  obtain ⟨k, a, v⟩ := q
  cases k <;> simp [access, h]

/-- A stage that does not own the busy port gets WAIT, and nothing at all changes (R64). -/
theorem access_refused {s : State} (h : s.cacheEnabled = true) {p : Access} (hp : s.port = some p)
    {stage : Requester} (ho : p.owner ≠ stage) (q : Request) : access s q stage = (s, .wait) := by
  unfold access
  simp [h, hp, ho]

/-- The owner's re-issue with more than one WAIT left only counts down (R69). -/
theorem access_waits {s : State} (h : s.cacheEnabled = true) {p : Access} (hp : s.port = some p) (hc : 2 ≤ p.count) :
    access s p.pending p.owner = ({ s with port := some { p with count := p.count - 1 } }, .wait) := by
  unfold access
  simp [h, hp, show p.count - 1 ≠ 0 by omega]

/-- The owner's re-issue with one WAIT left completes and frees the port (R69, R70). -/
theorem access_completes {s : State} (h : s.cacheEnabled = true) {p : Access} (hp : s.port = some p)
    (hc : p.count = 1) : access s p.pending p.owner = completeAccess { s with port := none } p.pending := by
  unfold access
  simp [h, hp, hc]

theorem completeAccess_ram (s : State) (q : Request) : (completeAccess s q).1.ram = s.ram := by
  unfold completeAccess
  cases q.kind <;> cases hitAt s q.addr <;> rfl

theorem countAccess_wf {s : State} (h : s.ram.wf = true) (a : Nat) : (countAccess s a).ram.wf = true := by
  unfold countAccess
  split
  · exact h
  · split
    · exact flushLine_wf h _
    · exact h

theorem acceptRequest_wf {s : State} (h : s.ram.wf = true) (q : Request) (stage : Requester) :
    (acceptRequest s q stage).1.ram.wf = true := by
  unfold acceptRequest
  split
  · rw [completeAccess_ram]
    exact countAccess_wf h _
  · exact countAccess_wf h _

/-- A call of the hierarchy keeps RAM in canonical form. -/
theorem access_wf {s : State} (h : s.ram.wf = true) (q : Request) (stage : Requester) :
    (access s q stage).1.ram.wf = true := by
  unfold access
  split
  · split
    · exact acceptRequest_wf h q stage
    · split
      · exact h
      · split
        · exact acceptRequest_wf (s := abort s stage) (by rw [abort_eq]; exact h) q stage
        · split
          · rw [completeAccess_ram]; exact h
          · exact h
  · split
    · exact Memory.wf_write h _ _
    · exact h

theorem hitAt_phase (s : State) (p : Phase) (a : Nat) : hitAt (inPhase s p) a = hitAt s a := rfl

theorem completeAccess_phase (s : State) (p : Phase) (q : Request) :
    completeAccess (inPhase s p) q = (inPhase (completeAccess s q).1 p, (completeAccess s q).2) := by
  obtain ⟨k, a, v⟩ := q
  cases k <;> cases hs : hitAt s a <;> simp only [completeAccess, hitAt_phase, hs] <;> rfl

theorem countAccess_phase (s : State) (p : Phase) (a : Nat) :
    countAccess (inPhase s p) a = inPhase (countAccess s a) p := by
  have k : dirtyVictim (inPhase s p) a = dirtyVictim s a := rfl
  cases hs : hitAt s a <;> cases ks : dirtyVictim s a <;> simp only [countAccess, hitAt_phase, k, hs, ks] <;> rfl

theorem acceptRequest_phase (s : State) (p : Phase) (q : Request) (stage : Requester) :
    acceptRequest (inPhase s p) q stage = (inPhase (acceptRequest s q stage).1 p, (acceptRequest s q stage).2) := by
  have h : delayOf (inPhase s p) q.addr = delayOf s q.addr := rfl
  by_cases hd : delayOf s q.addr = 0
  · simp only [acceptRequest, h, hd, if_true, countAccess_phase, completeAccess_phase]
  · simp only [acceptRequest, h, hd, if_false, countAccess_phase]
    rfl

theorem abort_phase (s : State) (p : Phase) (stage : Requester) :
    abort (inPhase s p) stage = inPhase (abort s stage) p := by
  unfold abort
  simp only [inPhase_port]
  cases s.port with
  | none => rfl
  | some w =>
    by_cases h : w.owner = stage
    · simp only [h, if_true]; rfl
    · simp only [h, if_false]

/-- The hierarchy neither reads nor writes the phase. -/
theorem access_phase (s : State) (p : Phase) (q : Request) (stage : Requester) :
    access (inPhase s p) q stage = (inPhase (access s q stage).1 p, (access s q stage).2) := by
  cases hc : s.cacheEnabled
  · obtain ⟨k, a, v⟩ := q
    cases k <;> simp only [access, inPhase_cacheEnabled, hc] <;> rfl
  · simp only [access, inPhase_cacheEnabled, hc, if_true, inPhase_port]
    cases hp : s.port with
    | none => exact acceptRequest_phase s p q stage
    | some w =>
      by_cases h1 : w.owner = stage
      · by_cases h2 : w.pending = q
        · by_cases h3 : w.count - 1 = 0
          · simp only [h1, h2, h3, ne_eq, not_true_eq_false, if_false, if_true]
            have h := completeAccess_phase { s with port := none } p q
            simp only [hc] at h
            exact h
          · simp only [h1, h2, h3, ne_eq, not_true_eq_false, if_false]
            rfl
        · simp only [h1, h2, ne_eq, not_true_eq_false, not_false_eq_true, if_false, if_true, abort_phase]
          exact acceptRequest_phase (abort s stage) p q stage
      · simp only [h1, ne_eq, not_false_eq_true, if_true]

/-- The line stored is the line found, and every other line is untouched. -/
theorem lineAt_setLine (s : State) (k j : Nat) (l : Line) (hk : k < s.lines.length) :
    lineAt (setLine s k l) j = if j = k then l else lineAt s j := by
  unfold lineAt
  simp only [setLine_lines, setLine_cfg, List.getD, List.getElem?_set]
  by_cases h : j = k
  · subst h; simp [hk]
  · simp [h, show k ≠ j from fun e => h e.symm]

end Sys2Proof.Machine
end

