-- ==== Sys2Proof/Laws/PerInstr.lean ====
section
/-! SUPPORT. A statement about every instruction, one lemma per instruction: the top five bits of its word are its
opcode in the table of 30_encoding.md R100. -/

namespace Sys2Proof

/-- The opcode the table of R100 gives an instruction; HALT shares opcode 0 with the words that are not the sentinel. -/
def tableOpcode : Instr → BitVec 5
  | .halt => 0
  | .add .. => 1
  | .sub .. => 2
  | .addi .. => 3
  | .ldi .. => 4
  | .load .. => 5
  | .str .. => 6
  | .bc .. => 7
  | .j .. => 8
  | .nop .. => 9
  | .nopOp0 .. => 0
  | .nopOp10 .. => 10
  | .nopOp11 .. => 11
  | .nopOp12 .. => 12
  | .nopOp13 .. => 13
  | .nopOp14 .. => 14
  | .nopOp15 .. => 15
  | .nopOp16 .. => 16
  | .nopOp17 .. => 17
  | .nopOp18 .. => 18
  | .nopOp19 .. => 19
  | .nopOp20 .. => 20
  | .nopOp21 .. => 21
  | .nopOp22 .. => 22
  | .nopOp23 .. => 23
  | .nopOp24 .. => 24
  | .nopOp25 .. => 25
  | .nopOp26 .. => 26
  | .nopOp27 .. => 27
  | .nopOp28 .. => 28
  | .nopOp29 .. => 29
  | .nopOp30 .. => 30
  | .nopOp31 .. => 31

/-- The word of `i` carries the opcode of `i` in its top five bits. -/
def Laws.OpcodePlaced.Statement (i : Instr) : Prop := opcodeOf (encode i) = tableOpcode i

theorem Laws.OpcodePlaced.halt : Laws.OpcodePlaced.Statement (.halt) := rfl
theorem Laws.OpcodePlaced.add (rd : RegIdx) (rs1 : RegIdx) (rs2 : RegIdx) (ign : BitVec 15) : Laws.OpcodePlaced.Statement (.add rd rs1 rs2 ign) := opcodeOf_classA ..
theorem Laws.OpcodePlaced.sub (rd : RegIdx) (rs1 : RegIdx) (rs2 : RegIdx) (ign : BitVec 15) : Laws.OpcodePlaced.Statement (.sub rd rs1 rs2 ign) := opcodeOf_classA ..
theorem Laws.OpcodePlaced.addi (rd : RegIdx) (rs1 : RegIdx) (imm : BitVec 19) : Laws.OpcodePlaced.Statement (.addi rd rs1 imm) := opcodeOf_classB ..
theorem Laws.OpcodePlaced.ldi (rd : RegIdx) (imm : BitVec 23) : Laws.OpcodePlaced.Statement (.ldi rd imm) := opcodeOf_classD ..
theorem Laws.OpcodePlaced.load (rd : RegIdx) (rs1 : RegIdx) (ign : RegIdx) (imm : BitVec 15) : Laws.OpcodePlaced.Statement (.load rd rs1 ign imm) := opcodeOf_classA ..
theorem Laws.OpcodePlaced.str (rsd : RegIdx) (rs1 : RegIdx) (ign : RegIdx) (imm : BitVec 15) : Laws.OpcodePlaced.Statement (.str rsd rs1 ign imm) := opcodeOf_classA ..
theorem Laws.OpcodePlaced.bc (cc : Cond) (ra : RegIdx) (rb : RegIdx) (disp : BitVec 17) : Laws.OpcodePlaced.Statement (.bc cc ra rb disp) := opcodeOf_classC ..
theorem Laws.OpcodePlaced.j (ign : RegIdx) (disp : BitVec 23) : Laws.OpcodePlaced.Statement (.j ign disp) := opcodeOf_classD ..
theorem Laws.OpcodePlaced.nop (ign : BitVec 27) : Laws.OpcodePlaced.Statement (.nop ign) := opcodeOf_classNone ..
theorem Laws.OpcodePlaced.nopOp0 (ign : BitVec 27) : Laws.OpcodePlaced.Statement (.nopOp0 ign) := opcodeOf_classNone ..
theorem Laws.OpcodePlaced.nopOp10 (ign : BitVec 27) : Laws.OpcodePlaced.Statement (.nopOp10 ign) := opcodeOf_classNone ..
theorem Laws.OpcodePlaced.nopOp11 (ign : BitVec 27) : Laws.OpcodePlaced.Statement (.nopOp11 ign) := opcodeOf_classNone ..
theorem Laws.OpcodePlaced.nopOp12 (ign : BitVec 27) : Laws.OpcodePlaced.Statement (.nopOp12 ign) := opcodeOf_classNone ..
theorem Laws.OpcodePlaced.nopOp13 (ign : BitVec 27) : Laws.OpcodePlaced.Statement (.nopOp13 ign) := opcodeOf_classNone ..
theorem Laws.OpcodePlaced.nopOp14 (ign : BitVec 27) : Laws.OpcodePlaced.Statement (.nopOp14 ign) := opcodeOf_classNone ..
theorem Laws.OpcodePlaced.nopOp15 (ign : BitVec 27) : Laws.OpcodePlaced.Statement (.nopOp15 ign) := opcodeOf_classNone ..
theorem Laws.OpcodePlaced.nopOp16 (ign : BitVec 27) : Laws.OpcodePlaced.Statement (.nopOp16 ign) := opcodeOf_classNone ..
theorem Laws.OpcodePlaced.nopOp17 (ign : BitVec 27) : Laws.OpcodePlaced.Statement (.nopOp17 ign) := opcodeOf_classNone ..
theorem Laws.OpcodePlaced.nopOp18 (ign : BitVec 27) : Laws.OpcodePlaced.Statement (.nopOp18 ign) := opcodeOf_classNone ..
theorem Laws.OpcodePlaced.nopOp19 (ign : BitVec 27) : Laws.OpcodePlaced.Statement (.nopOp19 ign) := opcodeOf_classNone ..
theorem Laws.OpcodePlaced.nopOp20 (ign : BitVec 27) : Laws.OpcodePlaced.Statement (.nopOp20 ign) := opcodeOf_classNone ..
theorem Laws.OpcodePlaced.nopOp21 (ign : BitVec 27) : Laws.OpcodePlaced.Statement (.nopOp21 ign) := opcodeOf_classNone ..
theorem Laws.OpcodePlaced.nopOp22 (ign : BitVec 27) : Laws.OpcodePlaced.Statement (.nopOp22 ign) := opcodeOf_classNone ..
theorem Laws.OpcodePlaced.nopOp23 (ign : BitVec 27) : Laws.OpcodePlaced.Statement (.nopOp23 ign) := opcodeOf_classNone ..
theorem Laws.OpcodePlaced.nopOp24 (ign : BitVec 27) : Laws.OpcodePlaced.Statement (.nopOp24 ign) := opcodeOf_classNone ..
theorem Laws.OpcodePlaced.nopOp25 (ign : BitVec 27) : Laws.OpcodePlaced.Statement (.nopOp25 ign) := opcodeOf_classNone ..
theorem Laws.OpcodePlaced.nopOp26 (ign : BitVec 27) : Laws.OpcodePlaced.Statement (.nopOp26 ign) := opcodeOf_classNone ..
theorem Laws.OpcodePlaced.nopOp27 (ign : BitVec 27) : Laws.OpcodePlaced.Statement (.nopOp27 ign) := opcodeOf_classNone ..
theorem Laws.OpcodePlaced.nopOp28 (ign : BitVec 27) : Laws.OpcodePlaced.Statement (.nopOp28 ign) := opcodeOf_classNone ..
theorem Laws.OpcodePlaced.nopOp29 (ign : BitVec 27) : Laws.OpcodePlaced.Statement (.nopOp29 ign) := opcodeOf_classNone ..
theorem Laws.OpcodePlaced.nopOp30 (ign : BitVec 27) : Laws.OpcodePlaced.Statement (.nopOp30 ign) := opcodeOf_classNone ..
theorem Laws.OpcodePlaced.nopOp31 (ign : BitVec 27) : Laws.OpcodePlaced.Statement (.nopOp31 ign) := opcodeOf_classNone ..

end Sys2Proof
end

