-- ==== Sys2Proof/Laws/Stages.lean ====
section
/-! SUPPORT. What each part of a step does (50_pipeline.md R152), said once and without the phase: part by part, the
instruction's stage behaviour in terms of the shared stage operations. -/

namespace Sys2Proof.Machine

/-- Every meaning answers a next state: the machine has no fault, and every arm of `exec` has a meaning (R200). -/
theorem exec_next (i : Instr) (s : State) : ∃ t, exec i s = .next t := by
  rcases hp : s.phase <;> cases i <;>
    simp [exec, execHalt, execAdd, execSub, execAddi, execLdi, execLoad, execStr, execBc, execJ, execNop, execNopOp0,
      execNopOp10, execNopOp11, execNopOp12, execNopOp13, execNopOp14, execNopOp15, execNopOp16, execNopOp17,
      execNopOp18, execNopOp19, execNopOp20, execNopOp21, execNopOp22, execNopOp23, execNopOp24, execNopOp25,
      execNopOp26, execNopOp27, execNopOp28, execNopOp29, execNopOp30, execNopOp31, hp]

/-- The opcode lookup never gives HALT (R102). -/
theorem decodeOp_ne_halt (w : Word) : decodeOp w ≠ .halt := by
  unfold decodeOp
  split <;> simp

/-- A word other than the sentinel is what the lookup says. -/
theorem decodeWord_of_ne {w : Word} (h : w ≠ haltWord) : decodeWord w = decodeOp w := by
  unfold decodeWord
  rw [if_neg h]

/-- A word decodes to HALT exactly when it is the sentinel (R102). -/
theorem decodeWord_halt_iff (w : Word) : decodeWord w = .halt ↔ w = haltWord := by
  unfold decodeWord
  split
  · simp [*]
  · simp [*, decodeOp_ne_halt]

/-- In Fetch every instruction but HALT does nothing (R168). -/
theorem exec_fetch {i : Instr} (hi : i ≠ .halt) {s : State} (h : s.phase = .fetch) : exec i s = .next s := by
  cases i <;> first | exact absurd rfl hi | skip
  all_goals
    simp [exec, execAdd, execSub, execAddi, execLdi, execLoad, execStr, execBc, execJ, execNop, execNopOp0,
      execNopOp10, execNopOp11, execNopOp12, execNopOp13, execNopOp14, execNopOp15, execNopOp16, execNopOp17,
      execNopOp18, execNopOp19, execNopOp20, execNopOp21, execNopOp22, execNopOp23, execNopOp24, execNopOp25,
      execNopOp26, execNopOp27, execNopOp28, execNopOp29, execNopOp30, execNopOp31, performNop, h]

/-- In Decode every instruction but HALT is issued with its row of R103. -/
theorem exec_decode {i : Instr} (hi : i ≠ .halt) {s : State} (h : s.phase = .decode) :
    exec i s = .next (issueDecode (fieldsOf i) s) := by
  cases i <;> first | exact absurd rfl hi | skip
  all_goals
    simp [exec, execAdd, execSub, execAddi, execLdi, execLoad, execStr, execBc, execJ, execNop, execNopOp0,
      execNopOp10, execNopOp11, execNopOp12, execNopOp13, execNopOp14, execNopOp15, execNopOp16, execNopOp17,
      execNopOp18, execNopOp19, execNopOp20, execNopOp21, execNopOp22, execNopOp23, execNopOp24, execNopOp25,
      execNopOp26, execNopOp27, execNopOp28, execNopOp29, execNopOp30, execNopOp31, performNop, fieldsOf, h]

/-- What Execute does, by the kind of the instruction (R160). -/
def executeByKind (k : Kind) (s : State) : State :=
  match k with
  | .add => executeResult (fun r => r.op1 + r.op2) s
  | .sub => executeResult (fun r => r.op1 - r.op2) s
  | .addi | .load | .str => executeResult (fun r => r.op1 + r.imm) s
  | .ldi => executeResult (fun r => r.imm) s
  | .bc => executeControl (fun r => condCodeHolds r.cond r.op1 r.op2) s
  | .j => executeControl (fun _ => true) s
  | .nop => executeResult (fun _ => 0) s

/-- In Execute every instruction but HALT does what the table of R160 says of its kind. -/
theorem exec_execute {i : Instr} (hi : i ≠ .halt) {s : State} (h : s.phase = .execute) :
    exec i s = .next (executeByKind (fieldsOf i).kind s) := by
  cases i <;> first | exact absurd rfl hi | skip
  all_goals
    simp [exec, execAdd, execSub, execAddi, execLdi, execLoad, execStr, execBc, execJ, execNop, execNopOp0,
      execNopOp10, execNopOp11, execNopOp12, execNopOp13, execNopOp14, execNopOp15, execNopOp16, execNopOp17,
      execNopOp18, execNopOp19, execNopOp20, execNopOp21, execNopOp22, execNopOp23, execNopOp24, execNopOp25,
      execNopOp26, execNopOp27, execNopOp28, execNopOp29, execNopOp30, execNopOp31, performNop, fieldsOf, addFields,
      subFields, addiFields, ldiFields, loadFields, strFields, bcFields, jFields, nopFields, executeByKind, h]

/-- What Memory does, by the kind of the instruction (R157). -/
def memoryByKind (k : Kind) (s : State) : State :=
  match k with
  | .load => loadMemory s
  | .str => storeMemory s
  | .add | .sub | .addi | .ldi | .bc | .j | .nop => passMemory s

/-- In Memory every instruction but HALT does what R157 says of its kind. -/
theorem exec_memory {i : Instr} (hi : i ≠ .halt) {s : State} (h : s.phase = .memory) :
    exec i s = .next (memoryByKind (fieldsOf i).kind s) := by
  cases i <;> first | exact absurd rfl hi | skip
  all_goals
    simp [exec, execAdd, execSub, execAddi, execLdi, execLoad, execStr, execBc, execJ, execNop, execNopOp0,
      execNopOp10, execNopOp11, execNopOp12, execNopOp13, execNopOp14, execNopOp15, execNopOp16, execNopOp17,
      execNopOp18, execNopOp19, execNopOp20, execNopOp21, execNopOp22, execNopOp23, execNopOp24, execNopOp25,
      execNopOp26, execNopOp27, execNopOp28, execNopOp29, execNopOp30, execNopOp31, performNop, fieldsOf, addFields,
      subFields, addiFields, ldiFields, loadFields, strFields, bcFields, jFields, nopFields, memoryByKind, h]

/-- In Writeback every instruction but HALT commits (R153). -/
theorem exec_writeback {i : Instr} (hi : i ≠ .halt) {s : State} (h : s.phase = .writeback) :
    exec i s = .next (commit s) := by
  cases i <;> first | exact absurd rfl hi | skip
  all_goals
    simp [exec, execAdd, execSub, execAddi, execLdi, execLoad, execStr, execBc, execJ, execNop, execNopOp0,
      execNopOp10, execNopOp11, execNopOp12, execNopOp13, execNopOp14, execNopOp15, execNopOp16, execNopOp17,
      execNopOp18, execNopOp19, execNopOp20, execNopOp21, execNopOp22, execNopOp23, execNopOp24, execNopOp25,
      execNopOp26, execNopOp27, execNopOp28, execNopOp29, execNopOp30, execNopOp31, performNop, h]

/-! ### The phase is a bystander -/

/-- An update of the state neither reads nor writes the phase. -/
def IgnoresPhase (f : State → State) : Prop := ∀ s p, f (inPhase s p) = inPhase (f s) p

theorem commit_phase : IgnoresPhase commit := by
  intro s p
  unfold commit
  simp only [inPhase_slotW]
  cases s.slotW with
  | inFlight r =>
    cases h : r.hasWriteback <;> simp only [h, if_true, Bool.false_eq_true, if_false] <;> rfl
  | empty => rfl
  | haltMarker => rfl

theorem commitMarker_phase : IgnoresPhase commitMarker := by
  intro s p
  unfold commitMarker
  simp only [inPhase_slotW]
  cases s.slotW <;> rfl

theorem passMemory_phase : IgnoresPhase passMemory := by
  intro s p
  unfold passMemory
  simp only [inPhase_slotM]
  cases s.slotM <;> rfl

theorem inRange_phase (s : State) (p : Phase) (a : Word) : inRange (inPhase s p) a = inRange s a := rfl

theorem loadMemory_phase : IgnoresPhase loadMemory := by
  intro s p
  unfold loadMemory
  simp only [inPhase_slotM]
  cases s.slotM with
  | inFlight r =>
    simp only [inRange_phase, hRead, access_phase]
    rcases access s { kind := .read, addr := r.result.toNat, value := 0 } .mem with ⟨t, o⟩
    cases inRange s r.result <;> cases o <;> rfl
  | empty => rfl
  | haltMarker => rfl

theorem storeMemory_phase : IgnoresPhase storeMemory := by
  intro s p
  unfold storeMemory
  simp only [inPhase_slotM]
  cases s.slotM with
  | inFlight r =>
    simp only [inRange_phase, hWrite, access_phase]
    rcases access s { kind := .write, addr := r.result.toNat, value := r.op3 } .mem with ⟨t, o⟩
    cases inRange s r.result <;> cases o <;> rfl
  | empty => rfl
  | haltMarker => rfl

theorem moveMarkerFromMemory_phase : IgnoresPhase moveMarkerFromMemory := by
  intro s p
  unfold moveMarkerFromMemory
  simp only [inPhase_slotM]
  cases s.slotM <;> rfl

theorem memoryByKind_phase (k : Kind) : IgnoresPhase (memoryByKind k) := by
  cases k
  case load => exact loadMemory_phase
  case str => exact storeMemory_phase
  all_goals exact passMemory_phase

theorem leaveExecute_phase (r : Decoded) : IgnoresPhase (leaveExecute r) := by
  intro s p
  unfold leaveExecute
  simp only [inPhase_slotM]
  cases s.slotM <;> rfl

theorem executeResult_phase (f : Decoded → Word) : IgnoresPhase (executeResult f) := by
  intro s p
  unfold executeResult
  simp only [inPhase_slotX]
  cases s.slotX with
  | inFlight r => exact leaveExecute_phase _ s p
  | empty => rfl
  | haltMarker => rfl

theorem squash_phase : IgnoresPhase squash := by
  intro s p
  have := abort_phase { s with slotF := none, slotD := .empty, slotX := .empty } p .fetch
  exact congrArg (fun t : State => { t with fetchStopped := false }) this

theorem takeControl_phase (t : Word) : IgnoresPhase (takeControl t) := by
  intro s p
  have := squash_phase { s with pc := t } p
  exact congrArg (fun u : State => { u with instrs := s.instrs + 1 }) this

theorem executeControl_phase (taken : Decoded → Bool) : IgnoresPhase (executeControl taken) := by
  intro s p
  unfold executeControl
  simp only [inPhase_slotX]
  cases s.slotX with
  | inFlight r =>
    cases h : taken r <;> simp only [h, if_true, if_false, Bool.false_eq_true]
    · exact leaveExecute_phase _ s p
    · exact takeControl_phase _ s p
  | empty => rfl
  | haltMarker => rfl

theorem executeByKind_phase (k : Kind) : IgnoresPhase (executeByKind k) := by
  cases k
  case bc => exact executeControl_phase _
  case j => exact executeControl_phase _
  all_goals exact executeResult_phase _

theorem moveMarkerFromExecute_phase : IgnoresPhase moveMarkerFromExecute := by
  intro s p
  unfold moveMarkerFromExecute
  simp only [inPhase_slotX, inPhase_slotM]
  cases s.slotX <;> cases s.slotM <;> rfl

theorem issueDecode_phase (f : Fields) : IgnoresPhase (issueDecode f) := by
  intro s p
  have h : hazard (inPhase s p) f.srcs = hazard s f.srcs := rfl
  unfold issueDecode
  simp only [inPhase_slotD, inPhase_slotX, h]
  cases s.slotD with
  | inFlight q => cases hazard s f.srcs <;> cases s.slotX <;> rfl
  | empty => rfl
  | haltMarker => rfl

theorem moveMarkerFromDecode_phase : IgnoresPhase moveMarkerFromDecode := by
  intro s p
  unfold moveMarkerFromDecode
  simp only [inPhase_slotX, inPhase_slotD]
  cases s.slotD <;> cases s.slotX <;> rfl

theorem latchHalt_phase : IgnoresPhase latchHalt := by
  intro s p
  unfold latchHalt
  simp only [inPhase_slotF]
  cases s.slotF <;> rfl

/-- An update blind to the phase keeps it. -/
theorem IgnoresPhase.keeps {f : State → State} (h : IgnoresPhase f) (s : State) : (f s).phase = s.phase := by
  have e : f s = inPhase (f s) s.phase := h s s.phase
  exact (congrArg State.phase e).trans (inPhase_phase (f s) s.phase)

/-- A meaning that answers with an update blind to the phase, run in a phase, is that update. -/
theorem runPhase_eq {p : Phase} {i : Instr} {f : State → State} (hf : IgnoresPhase f)
    (h : ∀ s : State, s.phase = p → exec i s = .next (f s)) (s : State) : runPhase p i s = .next (f s) := by
  unfold runPhase
  rw [h _ rfl, hf]
  simp only [andThen, inPhase_inPhase]
  rw [← hf.keeps s, inPhase_self]

/-! ### The parts (R152) -/

/-- Part 1 (R153, R154). -/
theorem writebackPart_eq (s : State) : writebackPart s = .next (match s.slotW with
    | .empty => s
    | .haltMarker => commitMarker s
    | .inFlight _ => commit s) := by
  unfold writebackPart
  cases s.slotW with
  | empty => rfl
  | haltMarker =>
    exact runPhase_eq (p := .writeback) (i := .halt) commitMarker_phase (fun s h => by simp [exec, execHalt, h]) s
  | inFlight r =>
    exact runPhase_eq (p := .writeback) commit_phase (fun s h => exec_writeback (decodeOp_ne_halt r.raw) h) s

/-- Part 2 (R156 to R158). -/
theorem memoryPart_eq (s : State) : memoryPart s = .next (match s.slotM with
    | .empty => s
    | .haltMarker => moveMarkerFromMemory s
    | .inFlight r => memoryByKind (kindOf r.raw) s) := by
  unfold memoryPart
  cases s.slotM with
  | empty => rfl
  | haltMarker =>
    exact runPhase_eq (p := .memory) (i := .halt) moveMarkerFromMemory_phase
      (fun s h => by simp [exec, execHalt, h]) s
  | inFlight r =>
    exact runPhase_eq (p := .memory) (memoryByKind_phase _) (fun s h => exec_memory (decodeOp_ne_halt r.raw) h) s

/-- Part 3 (R160 to R164). -/
theorem executePart_eq (s : State) : executePart s = .next (match s.slotX with
    | .empty => s
    | .haltMarker => moveMarkerFromExecute s
    | .inFlight r => executeByKind (kindOf r.raw) s) := by
  unfold executePart
  cases s.slotX with
  | empty => rfl
  | haltMarker =>
    exact runPhase_eq (p := .execute) (i := .halt) moveMarkerFromExecute_phase
      (fun s h => by simp [exec, execHalt, h]) s
  | inFlight r =>
    exact runPhase_eq (p := .execute) (executeByKind_phase _) (fun s h => exec_execute (decodeOp_ne_halt r.raw) h) s

/-- Part 4 (R164 to R167). -/
theorem decodePart_eq (s : State) : decodePart s = .next (match s.slotD with
    | .empty => s
    | .haltMarker => moveMarkerFromDecode s
    | .inFlight q => issueDecode (fieldsOf (decodeOp q.raw)) s) := by
  unfold decodePart
  cases s.slotD with
  | empty => rfl
  | haltMarker =>
    exact runPhase_eq (p := .decode) (i := .halt) moveMarkerFromDecode_phase
      (fun s h => by simp [exec, execHalt, h]) s
  | inFlight q =>
    exact runPhase_eq (p := .decode) (issueDecode_phase _) (fun s h => exec_decode (decodeOp_ne_halt q.raw) h) s

/-- HALT in part 5 (R169). -/
theorem runPhase_fetch_halt (s : State) : runPhase .fetch .halt s = .next (latchHalt s) :=
  runPhase_eq (p := .fetch) (i := .halt) latchHalt_phase (fun s h => by simp [exec, execHalt, h]) s

/-- Any other instruction in part 5 (R168). -/
theorem runPhase_fetch_other {i : Instr} (hi : i ≠ .halt) (s : State) : runPhase .fetch i s = .next s :=
  runPhase_eq (p := .fetch) (f := id) (fun _ _ => rfl) (fun _ h => exec_fetch hi h) s

/-- Part 5 as one update (R168 to R171). -/
def fetchUpdate (s : State) : State :=
  match s.slotF with
  | none => s
  | some f =>
    match f.latched with
    | .outstanding =>
      if inRange s f.addr then
        match hRead s f.addr.toNat .fetch with
        | (s', .wait) => { s' with slotF := some { f with status := .stalled } }
        | (s', .done w) =>
          if w = haltWord then
            advanceFetch { s' with slotF := some { f with latched := .halt }, fetchStopped := true }
          else advanceFetch { s' with slotF := some { f with latched := .word w } }
      else advanceFetch { s with slotF := some { f with latched := .halt }, fetchStopped := true }
    | .word _ | .halt => advanceFetch s

/-- Part 5 (R168 to R171). -/
theorem fetchPart_eq (s : State) : fetchPart s = .next (fetchUpdate s) := by
  unfold fetchPart fetchUpdate
  cases hF : s.slotF with
  | none => rfl
  | some f =>
    cases hL : f.latched with
    | word w => simp only [hL]
    | halt => simp only [hL]
    | outstanding =>
      simp only [hL]
      cases hR : inRange s f.addr with
      | false =>
        rw [runPhase_fetch_halt]
        simp [andThen, latchHalt, hF]
      | true =>
        simp only [if_true]
        rcases hA : hRead s f.addr.toNat .fetch with ⟨s', r⟩
        cases r with
        | wait => rfl
        | done w =>
          by_cases hw : w = haltWord
          · simp only [(decodeWord_halt_iff w).2 hw, runPhase_fetch_halt, if_pos hw]
            rfl
          · dsimp only
            rw [runPhase_fetch_other fun h => hw ((decodeWord_halt_iff w).1 h)]
            simp [andThen, hw]

/-- A step of a running machine is the six parts, one after another (R152); the states `s1` to `s5` are those between
the parts. -/
theorem step_parts {s : State} (hl : s.cfg.legal = true) (hr : s.stopped = false) :
    ∃ s1 s2 s3 s4,
      writebackPart { s with cycles := s.cycles + 1 } = .next s1 ∧ memoryPart s1 = .next s2 ∧
      executePart s2 = .next s3 ∧ decodePart s3 = .next s4 ∧ step s = .next (injectPart (fetchUpdate s4)) := by
  refine ⟨_, _, _, _, writebackPart_eq _, memoryPart_eq _, executePart_eq _, decodePart_eq _, ?_⟩
  simp only [step, cycle, hl, hr, stepParts, writebackPart_eq, memoryPart_eq, executePart_eq, decodePart_eq,
    fetchPart_eq, andThen, if_true, Bool.false_eq_true, if_false]

end Sys2Proof.Machine
end

