-- ==== Sys2Proof/Laws/Slots.lean ====
section
/-! SUPPORT. What each stage operation does, said once, by what its slot and the next one hold (50_pipeline.md R153 to
R172). -/

namespace Sys2Proof.Machine

/-- Writeback's operation (R153). -/
theorem commit_inFlight {s : State} {r : Decoded} (h : s.slotW = .inFlight r) :
    commit s = { s with x := if r.hasWriteback then (writeReg s r.rd r.writebackVal).x else s.x,
                        instrs := s.instrs + 1, slotW := .empty } := by
  unfold commit
  rw [h]
  cases hw : r.hasWriteback
  · simp only [hw, Bool.false_eq_true, if_false]
  · simp only [hw, if_true]
    rfl

/-- Memory's operation for an instruction that is not a memory instruction (R157). -/
theorem passMemory_inFlight {s : State} {r : Decoded} (h : s.slotM = .inFlight r) :
    passMemory s = { s with slotW := .inFlight { r with writebackVal := r.result, status := .normal },
                            slotM := .empty } := by
  unfold passMemory
  rw [h]
  rfl

/-- A LOAD out of range (R132). -/
theorem loadMemory_outside {s : State} {r : Decoded} (h : s.slotM = .inFlight r) (hr : inRange s r.result = false) :
    loadMemory s = { s with slotW := .inFlight { r with hasWriteback := false, status := .normal },
                            slotM := .empty } := by
  unfold loadMemory
  simp only [h, hr, Bool.false_eq_true, if_false]
  rfl

/-- A LOAD whose access is done (R157). -/
theorem loadMemory_done {s t : State} {r : Decoded} {w : Word} (h : s.slotM = .inFlight r)
    (hr : inRange s r.result = true) (ha : hRead s r.result.toNat .mem = (t, .done w)) :
    loadMemory s = { t with slotW := .inFlight { r with writebackVal := w, status := .normal }, slotM := .empty } := by
  unfold loadMemory
  simp only [h, hr, if_true, ha]
  rfl

/-- A LOAD that waits (R158). -/
theorem loadMemory_wait {s t : State} {r : Decoded} (h : s.slotM = .inFlight r) (hr : inRange s r.result = true)
    (ha : hRead s r.result.toNat .mem = (t, .wait)) :
    loadMemory s = { t with slotM := .inFlight { r with status := .stalled } } := by
  unfold loadMemory
  simp only [h, hr, if_true, ha]

/-- A STR out of range (R132). -/
theorem storeMemory_outside {s : State} {r : Decoded} (h : s.slotM = .inFlight r) (hr : inRange s r.result = false) :
    storeMemory s = { s with slotW := .inFlight { r with hasWriteback := false, status := .normal },
                             slotM := .empty } := by
  unfold storeMemory
  simp only [h, hr, Bool.false_eq_true, if_false]
  rfl

/-- A STR whose access is done (R157). -/
theorem storeMemory_done {s t : State} {r : Decoded} {w : Word} (h : s.slotM = .inFlight r)
    (hr : inRange s r.result = true) (ha : hWrite s r.result.toNat r.op3 .mem = (t, .done w)) :
    storeMemory s = { t with slotW := .inFlight { r with status := .normal }, slotM := .empty } := by
  unfold storeMemory
  simp only [h, hr, if_true, ha]
  rfl

/-- A STR that waits (R158). -/
theorem storeMemory_wait {s t : State} {r : Decoded} (h : s.slotM = .inFlight r) (hr : inRange s r.result = true)
    (ha : hWrite s r.result.toNat r.op3 .mem = (t, .wait)) :
    storeMemory s = { t with slotM := .inFlight { r with status := .stalled } } := by
  unfold storeMemory
  simp only [h, hr, if_true, ha]

/-- An instruction that stays in the pipeline moves to a free M, and stalls in X otherwise (R163). -/
theorem leaveExecute_eq (r : Decoded) (s : State) : leaveExecute r s =
    if s.slotM = .empty then { s with slotM := .inFlight { r with status := .normal }, slotX := .empty }
    else { s with slotX := .inFlight { r with status := .stalled } } := by
  unfold leaveExecute
  cases s.slotM <;> rfl

/-- Execute's operation for an instruction that computes a result (R160, R163). -/
theorem executeResult_inFlight {s : State} {r : Decoded} (h : s.slotX = .inFlight r) (f : Decoded → Word) :
    executeResult f s = leaveExecute { r with result := f r } s := by
  unfold executeResult
  rw [h]

/-- Execute's operation for a control instruction that is taken (R161). -/
theorem executeControl_taken {s : State} {r : Decoded} (h : s.slotX = .inFlight r) {taken : Decoded → Bool}
    (ht : taken r = true) : executeControl taken s = takeControl (controlTarget r.addr r.imm) s := by
  unfold executeControl
  simp only [h, ht, if_true]

/-- Execute's operation for a control instruction that is not taken (R163). -/
theorem executeControl_passes {s : State} {r : Decoded} (h : s.slotX = .inFlight r) {taken : Decoded → Bool}
    (ht : taken r = false) :
    executeControl taken s = leaveExecute { r with result := controlTarget r.addr r.imm } s := by
  unfold executeControl
  simp only [h, ht, Bool.false_eq_true, if_false]

/-- The squash frees the port of a fetch and leaves another owner's access (R162, R74). -/
theorem abort_port (s : State) (stage : Requester) :
    (abort s stage).port = s.port.filter fun p => p.owner != stage := by
  unfold abort
  cases hp : s.port with
  | none => simp [hp]
  | some p => by_cases ho : p.owner = stage <;> simp [hp, ho, Option.filter]

/-- What a taken control instruction leaves (R161, R162). -/
theorem takeControl_eq (t : Word) (s : State) : takeControl t s =
    { s with pc := t, slotF := none, slotD := .empty, slotX := .empty,
             port := s.port.filter fun p => p.owner != .fetch, fetchStopped := false, instrs := s.instrs + 1 } := by
  have h := abort_port { s with pc := t, slotF := none, slotD := .empty, slotX := .empty } .fetch
  unfold takeControl squash
  rw [abort_eq]
  simp only at h ⊢
  rw [h]

/-- Decode's operation (R165 to R167). -/
theorem issueDecode_inFlight {s : State} {q : DecodeEntry} (h : s.slotD = .inFlight q) (f : Fields) :
    issueDecode f s =
      if hazard s f.srcs then { s with slotD := .inFlight { q with status := .hazarded } }
      else if s.slotX = .empty then
        { s with slotX := .inFlight (withOperands s (recordOf f q.raw q.addr)), slotD := .empty }
      else { s with slotD := .inFlight { q with status := .stalled } } := by
  unfold issueDecode
  rw [h]
  cases hazard s f.srcs <;> cases s.slotX <;> rfl

/-- A hazard is a producer in X, M or W (R165). -/
theorem producesFor_iff (srcs : List RegIdx) (slot : Slot Decoded) :
    producesFor srcs slot = true ↔ ∃ p, slot = .inFlight p ∧ p.hasWriteback = true ∧ p.rd ∈ srcs := by
  cases slot <;> simp [producesFor]

/-- The hand-over from F to D (R170, R171). -/
theorem advanceFetch_word {s : State} {f : FetchEntry} {w : Word} (h : s.slotF = some f) (hl : f.latched = .word w) :
    advanceFetch s =
      if s.slotD = .empty then
        { s with slotD := .inFlight { addr := f.addr, raw := w, status := .normal }, pc := s.pc + 1, slotF := none }
      else { s with slotF := some { f with status := .stalled } } := by
  unfold advanceFetch
  simp only [h, hl]
  cases s.slotD <;> rfl

theorem advanceFetch_halt {s : State} {f : FetchEntry} (h : s.slotF = some f) (hl : f.latched = .halt) :
    advanceFetch s =
      if s.slotD = .empty then { s with slotD := .haltMarker, slotF := none }
      else { s with slotF := some { f with status := .stalled } } := by
  unfold advanceFetch
  simp only [h, hl]
  cases s.slotD <;> rfl

end Sys2Proof.Machine
end

