-- ==== Sys2Proof/Tests/Slice0.lean ====
section
/-! SUPPORT. Tests of the model against values the spec gives or a hand derivation from it, and, for every obligation with
hypotheses, a state and operands that meet them. Sources: "V", "A", "M", "B" name the rows of 95_test_vectors.md. -/

namespace Sys2Proof.Tests

open Sys2Proof Sys2Proof.Machine Sys2Proof.Claims

/-! ### Helpers -/

/-- The next state of an outcome (the reset state for a stop, which no test here meets). -/
def nextOf (o : Host.Outcome State Fault Refusal) : State :=
  match o with
  | .next s => s
  | .fault _ => State.reset
  | .refused _ => State.reset

/-- The outcome is a next state. -/
def goesOn (o : Host.Outcome State Fault Refusal) : Bool :=
  match o with
  | .next _ => true
  | .fault _ => false
  | .refused _ => false

theorem exists_next {o : Host.Outcome State Fault Refusal} (h : goesOn o = true) : ∃ t, o = .next t := by
  cases o with
  | next t => exact ⟨t, rfl⟩
  | fault f => cases h
  | refused r => cases h

/-- `REF0` at power-on. -/
def ref0 : State := State.powerOn Config.reference true false

/-- `REF2` at power-on: cache enabled, latencies 1 and 3. -/
def ref2 : State := State.powerOn Config.reference2 true true

/-- `REF3` at power-on: not pipelined, cache disabled. -/
def ref3 : State := State.powerOn Config.reference false false

/-- `ref0` with two registers preset. -/
def regs (r1 : RegIdx) (v1 : Word) (r2 : RegIdx) (v2 : Word) : State := presetReg r1 v1 (presetReg r2 v2 ref0)

/-- The state one instruction in program order leaves. -/
def did (i : Instr) (s : State) : State := nextOf (exec i s)

/-! ### Well-formedness: the one ill-formed term is refused -/

theorem test_nopOp0_of_zero_is_ill_formed : (Instr.nopOp0 0).wellFormed = false := by decide
theorem test_nopOp0_of_one_is_well_formed : (Instr.nopOp0 1).wellFormed = true := by decide

/-! ### Decoding: words written out bit by bit from the encodings (30_encoding.md R92, R100; V1 to V38) -/

theorem test_decode_add : decodeWord (0b00001_0010_0001_0001_000000000000000) = .add 2 1 1 0 ∧
    decodeWord (0b00001_1111_1111_1111_000000000000000) = .add 15 15 15 0 := by decide
theorem test_decode_sub : decodeWord (0b00010_0100_0001_0010_000000000000000) = .sub 4 1 2 0 := by decide
theorem test_decode_addi : decodeWord (0b00011_0101_0100_1111111111111111111) = .addi 5 4 (-1) ∧
    decodeWord (0b00011_0001_0010_0111111111111111111) = .addi 1 2 262143 := by decide
theorem test_decode_ldi : decodeWord (0b00100_1111_01111111111111111111111) = .ldi 15 4194303 ∧
    decodeWord (0b00100_0000_10000000000000000000000) = .ldi 0 (-4194304) := by decide
theorem test_decode_load : decodeWord (0b00101_0100_0011_0000_111111111111111) = .load 4 3 0 (-1) ∧
    decodeWord 0x2887FFFF = .load 1 0 15 (-1) := by decide
theorem test_decode_str : decodeWord (0b00110_0001_0011_0000_000000001000000) = .str 1 3 0 64 := by decide
theorem test_decode_bc : decodeWord (0b00111_0001_0010_01_00000000000000100) = .bc .lt 1 2 4 ∧
    decodeWord (0b00111_0010_0011_11_11111111111111110) = .bc .ne 2 3 (-2) ∧
    decodeWord 0x38900004 = .bc .eq 1 2 4 ∧ decodeWord 0x38940004 = .bc .ge 1 2 4 := by decide
theorem test_decode_j : decodeWord (0b01000_0000_11111111111111111111111) = .j 0 (-1) ∧
    decodeWord 0x47800003 = .j 15 3 := by decide
theorem test_decode_halt : decodeWord 0x00000000 = .halt := by decide
theorem test_decode_nop : decodeWord (0b01001_000000000000000000000000000) = .nop 0 ∧
    decodeWord 0x4FFFFFFF = .nop 0x7FFFFFF ∧ decodeWord 0x00000001 = .nopOp0 1 := by decide
theorem test_decode_unassigned_10_to_20 :
    decodeWord (0b01010_000000000000000000000000001) = .nopOp10 1 ∧
    decodeWord (0b01011_000000000000000000000000001) = .nopOp11 1 ∧
    decodeWord (0b01100_000000000000000000000000001) = .nopOp12 1 ∧
    decodeWord (0b01101_000000000000000000000000001) = .nopOp13 1 ∧
    decodeWord (0b01110_000000000000000000000000001) = .nopOp14 1 ∧
    decodeWord (0b01111_000000000000000000000000001) = .nopOp15 1 ∧
    decodeWord (0b10000_000000000000000000000000001) = .nopOp16 1 ∧
    decodeWord (0b10001_000000000000000000000000001) = .nopOp17 1 ∧
    decodeWord (0b10010_000000000000000000000000001) = .nopOp18 1 ∧
    decodeWord (0b10011_000000000000000000000000001) = .nopOp19 1 ∧
    decodeWord (0b10100_000000000000000000000000001) = .nopOp20 1 := by decide
theorem test_decode_unassigned_21_to_31 :
    decodeWord (0b10101_000000000000000000000000001) = .nopOp21 1 ∧
    decodeWord (0b10110_000000000000000000000000001) = .nopOp22 1 ∧
    decodeWord (0b10111_000000000000000000000000001) = .nopOp23 1 ∧
    decodeWord (0b11000_000000000000000000000000001) = .nopOp24 1 ∧
    decodeWord (0b11001_000000000000000000000000001) = .nopOp25 1 ∧
    decodeWord (0b11010_000000000000000000000000001) = .nopOp26 1 ∧
    decodeWord (0b11011_000000000000000000000000001) = .nopOp27 1 ∧
    decodeWord (0b11100_000000000000000000000000001) = .nopOp28 1 ∧
    decodeWord (0b11101_000000000000000000000000001) = .nopOp29 1 ∧
    decodeWord (0b11110_000000000000000000000000001) = .nopOp30 1 ∧
    decodeWord 0xF8123456 = .nopOp31 0x123456 ∧ decodeWord 0xFFFFFFFF = .nopOp31 0x7FFFFFF := by decide
theorem test_encode_written_words :
    encode (.sub 4 1 2 0) = 0x12090000 ∧ encode (.addi 1 2 (-262144)) = 0x18940000 ∧ encode (.ldi 1 (-1)) = 0x20FFFFFF ∧
    encode (.load 1 2 0 (-16384)) = 0x28904000 ∧ encode (.str 2 0 0 0) = 0x31000000 ∧
    encode (.bc .ne 15 15 (-65536)) = 0x3FFF0000 ∧ encode (.j 0 1000) = 0x400003E8 ∧ encode .halt = 0 := by decide
theorem test_decodeTableWord : decodeTableWord 32 0x09088000 = some (.add 2 1 1 0) ∧
    decodeTableWord 32 0 = some .halt ∧ decodeTableWord 64 0 = none ∧ decodeWords [] = .error .missingWord := by decide

/-- V33: the fields of `BC NE,R5,R3,5`. -/
theorem test_decodeRecord_bc : (decodeRecord 0x3A9E0005 7).rs1 = 5 ∧ (decodeRecord 0x3A9E0005 7).rs2 = 3 ∧
    (decodeRecord 0x3A9E0005 7).cond = 3 ∧ (decodeRecord 0x3A9E0005 7).imm = 5 ∧
    (decodeRecord 0x3A9E0005 7).hasWriteback = false ∧ (decodeRecord 0x3A9E0005 7).itype = .control := by decide
/-- V34: the store-data register of `STR R2,[R0+0]` is f1, and it is a source. -/
theorem test_decodeRecord_str : (decodeRecord 0x31000000 0).rsd = 2 ∧
    (fieldsOf (decodeOp 0x31000000)).srcs = [0, 2] := by decide

/-! ### Instructions in program order (A, M, B rows) -/

/-- A2, A4. -/
theorem test_add_wraps : readReg (did (.add 3 1 2 0) (regs 1 0x7FFFFFFF 2 1)) 3 = 0x80000000 ∧
    readReg (did (.add 1 1 1 0) (regs 1 0x40000000 2 0)) 1 = 0x80000000 := by decide
/-- A6, A9. -/
theorem test_sub_order : readReg (did (.sub 4 1 2 0) (regs 1 5 2 7)) 4 = 0xFFFFFFFE ∧
    readReg (did (.sub 4 1 2 0) (regs 1 0x80000000 2 1)) 4 = 0x7FFFFFFF := by decide
/-- A11, A12. -/
theorem test_addi_signed : readReg (did (.addi 5 4 (-1)) (regs 4 0xFFFFFFFE 0 0)) 5 = 0xFFFFFFFD ∧
    readReg (did (.addi 1 2 262143) (regs 2 1 0 0)) 1 = 262144 := by decide
/-- A17, A19. -/
theorem test_ldi_signed : readReg (did (.ldi 1 (-1)) ref0) 1 = 0xFFFFFFFF ∧
    readReg (did (.ldi 0 (-4194304)) ref0) 0 = 0xFFC00000 := by decide
/-- A20. -/
theorem test_nop_only_counts : did (.nop 0x7FFFFFF) ref0 = { ref0 with pc := 1, instrs := 1 } ∧
    did (.nopOp31 5) ref0 = { ref0 with pc := 1, instrs := 1 } := by decide
/-- M3, M7: a negative offset from an out-of-range base, and an address that wraps to 0. -/
theorem test_load_address : readReg (did (.load 4 3 0 (-1)) (forceWrite (regs 3 256 0 0) 255 77)) 4 = 77 ∧
    readReg (did (.load 2 3 0 1) (forceWrite (regs 3 0xFFFFFFFF 0 0) 0 5)) 2 = 5 := by decide
/-- M5, M6: out of range, the register keeps its value and the instruction is counted. -/
theorem test_load_out_of_range : readReg (did (.load 2 1 0 0) (regs 1 0xFFFFFFFF 2 9)) 2 = 9 ∧
    readReg (did (.load 2 3 0 0) (regs 3 256 2 9)) 2 = 9 ∧ (did (.load 2 3 0 0) (regs 3 256 2 9)).instrs = 1 := by decide
/-- M9, M10. -/
theorem test_str_stores : amem (did (.str 1 3 0 64) (regs 1 6 3 0)) 64 = 6 ∧
    amem (did (.str 1 1 0 0) (regs 1 20 2 0)) 20 = 20 := by decide
/-- M11, M12. -/
theorem test_str_out_of_range : (did (.str 2 1 0 0) (regs 1 0xFFFFFFFF 2 9)).ram = [] ∧
    (did (.str 2 3 0 0) (regs 3 256 2 9)).ram = [] := by decide
/-- B10, B11 at address 5. -/
theorem test_bc_target : (did (.bc .ne 2 3 (-2)) { regs 2 2 3 0 with pc := 5 }).pc = 3 ∧
    (did (.bc .ne 2 3 (-2)) { regs 2 0 3 0 with pc := 5 }).pc = 6 := by decide
/-- B4, B6: the comparison is signed. -/
theorem test_bc_signed : condHolds .lt 0xFFFFFFFF 0 = true ∧ condHolds .ge 0xFFFFFFFF 0 = false ∧
    condHolds .lt 0x80000000 0x7FFFFFFF = true ∧ condHolds .ge 0x80000000 0x7FFFFFFF = false := by decide
/-- B9, B14. -/
theorem test_j_target : (did (.j 0 3) { ref0 with pc := 1 }).pc = 4 ∧ (did (.j 0 (-1)) ref0).pc = 0xFFFFFFFF := by decide
/-- R144, T6: the pc stays and the HALT is not counted. -/
theorem test_halt_stops : did .halt { ref0 with pc := 1 } = { ref0 with pc := 1, stopped := true, fetchStopped := true } := by
  decide

/-! ### One step -/

/-- R233, T1: the first step after reset injects a fetch at 0 and does nothing else. -/
theorem test_first_step : goesOn (step ref0) = true ∧
    nextOf (step ref0) = { ref0 with cycles := 1, slotF := fetchAt 0 } := by decide
/-- R154: the step in which Writeback processes the marker stops the machine. -/
theorem test_marker_stops : nextOf (step { ref0 with slotW := .haltMarker, fetchStopped := true }) =
    { ref0 with cycles := 1, fetchStopped := true, stopped := true } := by decide
/-- R151, T3. -/
theorem test_stopped_step : nextOf (step { ref0 with stopped := true, cycles := 13 }) =
    { ref0 with stopped := true, cycles := 13 } := by decide
/-- R6. -/
theorem test_illegal_configuration : construct { Config.reference with nregs := 64 } true true =
    .refused .illegalConfiguration ∧ goesOn (construct Config.reference true true) = true := ⟨rfl, by decide⟩
/-- `ref0` with an absorbed LOAD of R2 in M and `STR R2,[R1+0]`, which reads R2, in D. -/
def absorbing : State :=
  { regs 1 0xFFFFFFFF 2 9 with
    pc := 4
    slotD := .inFlight { addr := 3, raw := 0x31080000, status := .hazarded }
    slotM := .inFlight { decodeRecord 0x29080000 2 with result := 0xFFFFFFFF } }

/-- P7 step 8: the absorbed LOAD is in W with its write cleared, and the consumer is in X with the old value 9 (log 22). -/
theorem test_absorbed_load_releases : tagged (nextOf (step absorbing)).slotW = some (2, 0x29080000) ∧
    tagged (nextOf (step absorbing)).slotX = some (3, 0x31080000) ∧
    ((nextOf (step absorbing)).slotX.record?.map fun r => r.op3) = some 9 ∧
    ((nextOf (step absorbing)).slotW.record?.map fun r => r.hasWriteback) = some false := by decide
/-- `withFetchWord` on the reset state: the next step fetches the word and, through `exec` in Fetch, hands it to Decode. -/
theorem test_withFetchWord : (nextOf (step (State.reset.withFetchWord 32 0x20800005))).slotD =
    .inFlight { addr := 0, raw := 0x20800005, status := .normal } ∧
    (nextOf (step (State.reset.withFetchWord 32 0))).slotD = .haltMarker := by decide
/-- 95_test_vectors.md section 3.2, the address decomposition vectors. -/
theorem test_decomposition : (lineIndex Config.reference 100, tagOf Config.reference 100, offsetOf Config.reference 100) =
    (1, 6, 0) ∧ (lineIndex Config.reference 21, tagOf Config.reference 21, offsetOf Config.reference 21) = (1, 1, 1) ∧
    blockBase Config.reference 6 1 = 100 := by decide

/-! ### The states the witnesses use -/

/-- `ref0` about to read the word 0 at address 0. -/
def atFetch : State := { ref0 with slotF := fetchAt 0 }

/-- `ref0` with a LDI in X, M and W each, an ADD of R5 and R6 in D, and a latched word in F. -/
def full : State :=
  { ref0 with
    pc := 5
    slotF := some { addr := 5, latched := .word 0x48000000, status := .normal }
    slotD := .inFlight { addr := 4, raw := 0x0AAB0000, status := .normal }
    slotX := .inFlight (decodeRecord 0x20800005 3)
    slotM := .inFlight (decodeRecord 0x21000002 2)
    slotW := .inFlight (decodeRecord 0x21800001 1) }

/-- `ref0` with `J 3` at address 1 in X. -/
def jumping : State := { ref0 with pc := 2, slotX := .inFlight (decodeRecord 0x40000003 1) }

/-- `ref0` with the halt marker in W. -/
def halting : State := { ref0 with slotW := .haltMarker, fetchStopped := true }

/-- `ref0` with `STR R2,[R0+0]` in M, storing 84 at 255, the last word of RAM. -/
def storingLast : State :=
  { ref0 with slotM := .inFlight { decodeRecord 0x31000000 0 with result := 255, op3 := 84 }, pc := 1 }

/-- `ref2` counting down the fetch of address 0. -/
def fetchWaits : State :=
  { ref2 with
    misses := 1
    slotF := some { addr := 0, latched := .outstanding, status := .stalled }
    port := some { owner := .fetch, count := 3, pending := { kind := .read, addr := 0, value := 0 } } }

/-- `ref2` counting down a LOAD of address 100 in M. -/
def loadWaits : State :=
  { ref2 with
    misses := 1
    pc := 1
    slotM := .inFlight { decodeRecord 0x28800000 0 with result := 100 }
    port := some { owner := .mem, count := 1, pending := { kind := .read, addr := 100, value := 0 } } }

/-- `loadWaits` with one WAIT more to come and an instruction stalled in X and in D and a word latched in F. -/
def blocked : State :=
  { loadWaits with
    pc := 3
    slotF := some { addr := 3, latched := .word 0x48000000, status := .stalled }
    slotD := .inFlight { addr := 2, raw := 0x0AAB0000, status := .stalled }
    slotX := .inFlight (decodeRecord 0x20800005 1)
    port := some { owner := .mem, count := 2, pending := { kind := .read, addr := 100, value := 0 } } }

/-- `ref2` with line 1 valid and dirty, holding the block of address 100. -/
def dirtyLine : State :=
  { ref2 with lines := [Line.reset 4, { valid := true, dirty := true, tag := 6, data := [84, 0, 0, 0] }, Line.reset 4,
                        Line.reset 4] }

/-- `ref3` at the injection of `LDI R1,5` at address 0. -/
def serial : State := { ref3 with ram := [(0, 0x20800005)], slotF := fetchAt 0 }

/-- The same, cache enabled with latencies 1 and 3. -/
def serialCached : State :=
  { State.powerOn Config.reference2 false true with ram := [(0, 0x20800005)], slotF := fetchAt 0 }

/-- A machine whose cache takes no time: every access is done in the call that issues it. -/
def instant : State := State.powerOn (Config.sized 0 0) true true

/-- A read of address 100. -/
def read100 : Request := { kind := .read, addr := 100, value := 0 }

theorem memoryOk_ref2 : MemoryOk ref2 :=
  ⟨by decide, ⟨by decide, by decide⟩, ⟨by decide, by decide, by decide, by decide, by decide⟩⟩
theorem memoryOk_dirtyLine : MemoryOk dirtyLine :=
  ⟨by decide, ⟨by decide, by decide⟩, ⟨by decide, by decide, by decide, by decide, by decide⟩⟩
theorem portOk_ref2 : PortOk ref2 := ⟨by decide, by decide, by decide⟩

theorem inv_full : Inv full :=
  ⟨by decide, by decide, ⟨by decide, by decide⟩, ⟨by decide, by decide, by decide, by decide, by decide⟩,
   ⟨by decide, by decide, by decide⟩, ⟨by decide, by decide⟩,
   ⟨by decide, by decide, by decide, by decide, by decide, by decide, by decide, by decide⟩,
   ⟨by decide, by decide, by decide, by decide, by decide, by decide, by decide, by decide, by decide, by decide⟩, by decide⟩
theorem inv_jumping : Inv jumping :=
  ⟨by decide, by decide, ⟨by decide, by decide⟩, ⟨by decide, by decide, by decide, by decide, by decide⟩,
   ⟨by decide, by decide, by decide⟩, ⟨by decide, by decide⟩,
   ⟨by decide, by decide, by decide, by decide, by decide, by decide, by decide, by decide⟩,
   ⟨by decide, by decide, by decide, by decide, by decide, by decide, by decide, by decide, by decide, by decide⟩, by decide⟩
theorem inv_halting : Inv halting :=
  ⟨by decide, by decide, ⟨by decide, by decide⟩, ⟨by decide, by decide, by decide, by decide, by decide⟩,
   ⟨by decide, by decide, by decide⟩, ⟨by decide, by decide⟩,
   ⟨by decide, by decide, by decide, by decide, by decide, by decide, by decide, by decide⟩,
   ⟨by decide, by decide, by decide, by decide, by decide, by decide, by decide, by decide, by decide, by decide⟩, by decide⟩
theorem inv_storingLast : Inv storingLast :=
  ⟨by decide, by decide, ⟨by decide, by decide⟩, ⟨by decide, by decide, by decide, by decide, by decide⟩,
   ⟨by decide, by decide, by decide⟩, ⟨by decide, by decide⟩,
   ⟨by decide, by decide, by decide, by decide, by decide, by decide, by decide, by decide⟩,
   ⟨by decide, by decide, by decide, by decide, by decide, by decide, by decide, by decide, by decide, by decide⟩, by decide⟩
theorem inv_fetchWaits : Inv fetchWaits :=
  ⟨by decide, by decide, ⟨by decide, by decide⟩, ⟨by decide, by decide, by decide, by decide, by decide⟩,
   ⟨by decide, by decide, by decide⟩, ⟨by decide, by decide⟩,
   ⟨by decide, by decide, by decide, by decide, by decide, by decide, by decide, by decide⟩,
   ⟨by decide, by decide, by decide, by decide, by decide, by decide, by decide, by decide, by decide, by decide⟩, by decide⟩
theorem inv_loadWaits : Inv loadWaits :=
  ⟨by decide, by decide, ⟨by decide, by decide⟩, ⟨by decide, by decide, by decide, by decide, by decide⟩,
   ⟨by decide, by decide, by decide⟩, ⟨by decide, by decide⟩,
   ⟨by decide, by decide, by decide, by decide, by decide, by decide, by decide, by decide⟩,
   ⟨by decide, by decide, by decide, by decide, by decide, by decide, by decide, by decide, by decide, by decide⟩, by decide⟩
theorem inv_dirtyLine : Inv dirtyLine :=
  ⟨by decide, by decide, ⟨by decide, by decide⟩, ⟨by decide, by decide, by decide, by decide, by decide⟩,
   ⟨by decide, by decide, by decide⟩, ⟨by decide, by decide⟩,
   ⟨by decide, by decide, by decide, by decide, by decide, by decide, by decide, by decide⟩,
   ⟨by decide, by decide, by decide, by decide, by decide, by decide, by decide, by decide, by decide, by decide⟩, by decide⟩
theorem inv_serialCached : Inv serialCached :=
  ⟨by decide, by decide, ⟨by decide, by decide⟩, ⟨by decide, by decide, by decide, by decide, by decide⟩,
   ⟨by decide, by decide, by decide⟩, ⟨by decide, by decide⟩,
   ⟨by decide, by decide, by decide, by decide, by decide, by decide, by decide, by decide⟩,
   ⟨by decide, by decide, by decide, by decide, by decide, by decide, by decide, by decide, by decide, by decide⟩, by decide⟩

/-! ### A witness for the hypotheses of every obligation that has some -/

theorem test_witness_DecodeOfEncode : (Instr.nopOp0 1).wellFormed = true ∧ (Instr.add 15 15 15 0x7FFF).wellFormed = true ∧
    Instr.halt.wellFormed = true := by decide
theorem test_witness_ImmediatesAreSignExtended : (1 ≤ opNumber 0x09088000 ∧ opNumber 0x09088000 ≤ 8) ∧
    (1 ≤ opNumber 0x47800003 ∧ opNumber 0x47800003 ≤ 8) ∧ opNumber 0x1AA7FFFF = 3 ∧ opNumber 0x27BFFFFF = 4 ∧
    opNumber 0x3FFF0000 = 7 := by decide
theorem test_witness_SentinelIsAWholeWord : ((1 : Word) ≠ 0 ∧ opNumber 1 = 0) ∧
    ((0x07FFFFFF : Word) ≠ 0 ∧ opNumber 0x07FFFFFF = 0) := by decide
theorem test_witness_NopRule : ((1 : Word) ≠ 0 ∧ opNumber 1 = 0) ∧ ((0x48000000 : Word) ≠ 0 ∧ 9 ≤ opNumber 0x48000000) ∧
    ((0xFFFFFFFF : Word) ≠ 0 ∧ 9 ≤ opNumber 0xFFFFFFFF) ∧ Instr.nop 0 ∈ nops 0 ∧ Instr.nopOp31 7 ∈ nops 7 := by decide
theorem test_witness_LoadRule : (forceWrite ref0 100 42).cacheEnabled = false ∧
    100 < (forceWrite ref0 100 42).cfg.ramWords ∧ (forceWrite ref0 100 42).ram.read 100 = 42 := by decide
theorem test_witness_StrRule : MemoryOk dirtyLine ∧
    (readReg dirtyLine 0 + (100 : BitVec 15).signExtend 32).toNat < dirtyLine.cfg.ramWords ∧
    dirtyLine.cfg.ramWords ≤ (readReg dirtyLine 0 + (256 : BitVec 15).signExtend 32).toNat :=
  ⟨memoryOk_dirtyLine, by decide, by decide⟩
theorem test_witness_JRule : Inv full ∧ (∃ t, step full = .next t) ∧ (tagged (nextOf (step full)).slotM).isSome = true ∧
    (tagged (nextOf (step full)).slotW).isSome = true := ⟨inv_full, exists_next (by decide), by decide, by decide⟩
theorem test_witness_HaltRule : HaltArrives atFetch ∧
    (jumping.cfg.legal = true ∧ jumping.stopped = false ∧ takenInX jumping = some 4) :=
  ⟨⟨by decide, by decide, by decide, by decide, by decide, by decide⟩, by decide⟩
theorem test_witness_RegistersAreIndependent : (∃ t, step full = .next t) ∧ (16 : Nat) ≤ 16 ∧ 16 ≤ 31 ∧ 31 < 32 :=
  ⟨exists_next (by decide), by decide⟩
theorem test_witness_StepRunsTheDecodedInstruction :
    (full.cfg.legal = true ∧ full.stopped = false) ∧
    (Instr.add 2 1 1 0 ≠ .halt ∧ decodeWord (decodeRecord 0x09088000 0).raw = .add 2 1 1 0) ∧
    ((0 : Word).toNat < ref0.cfg.ramWords ∧
      hRead { ref0 with slotF := some { addr := 0, latched := .outstanding, status := .normal } } (0 : Word).toNat .fetch =
        ({ ref0 with slotF := some { addr := 0, latched := .outstanding, status := .normal } }, .done 0)) ∧
    (serial.phase = .program ∧ serial.stopped = false ∧ serial.pc.toNat < serial.cfg.ramWords) ∧
    ({ ref0 with cfg := { Config.reference with wordsPerLine := 0 } } : State).cfg.legal = false := by decide
theorem test_witness_NothingTraps : ref0.cfg.legal = true ∧ ({ ref0 with stopped := true } : State).cfg.legal = true := by
  decide
theorem test_witness_StoppedStepChangesNothing : ({ ref0 with stopped := true } : State).cfg.legal = true ∧
    ({ ref0 with stopped := true } : State).stopped = true := by decide
theorem test_witness_StepCounts : (full.stopped = false ∧ ∃ t, step full = .next t) ∧
    (jumping.stopped = false ∧ ∃ t, step jumping = .next t) ∧ full.cacheEnabled = false :=
  ⟨⟨by decide, exists_next (by decide)⟩, ⟨by decide, exists_next (by decide)⟩, by decide⟩
theorem test_witness_CountersAreOutputs : (∃ t, step full = .next t) ∧ ∃ t, step { full with stopped := true } = .next t :=
  ⟨exists_next (by decide), exists_next (by decide)⟩
theorem test_witness_WritebackCommits : full.stopped = false ∧ (∃ t, step full = .next t) ∧
    full.slotW = .inFlight (decodeRecord 0x21800001 1) ∧ (decodeRecord 0x21800001 1).hasWriteback = true ∧
    (∃ t, step jumping = .next t) ∧ jumping.slotW = .empty ∧ (decodeRecord 0x31000000 0).hasWriteback = false :=
  ⟨by decide, exists_next (by decide), by decide, by decide, exists_next (by decide), by decide, by decide⟩
theorem test_witness_HaltOnlyFromTheMarker : (Inv halting ∧ halting.stopped = false ∧ halting.slotW = .haltMarker) ∧
    (Inv full ∧ full.stopped = false ∧ full.slotW ≠ .haltMarker) :=
  ⟨⟨inv_halting, by decide, by decide⟩, inv_full, by decide, by decide⟩
theorem test_witness_MemoryStage : ∃ t, writebackPart full = .next t := exists_next (by decide)
theorem test_witness_TakenControlSquashes : jumping.cfg.legal = true ∧ jumping.stopped = false ∧
    jumping.slotW ≠ .haltMarker ∧ takenInX jumping = some 4 := by decide
theorem test_witness_Injection : ref3.stopped = false ∧ ref3.pipelineEnabled = false ∧ ref3.slotF = none ∧
    (∃ t, step ref3 = .next t) ∧ (nextOf (step ref3)).slotF ≠ none :=
  ⟨by decide, by decide, by decide, exists_next (by decide), by decide⟩
theorem test_witness_PcIsWrittenInTwoPlaces :
    (Inv jumping ∧ jumping.stopped = false ∧ (∃ t, step jumping = .next t) ∧ takenInX jumping = some 4) ∧
    (Inv full ∧ full.stopped = false ∧ (∃ t, step full = .next t) ∧ takenInX full = none ∧
      (nextOf (step full)).pc = full.pc + 1) ∧
    (Inv fetchWaits ∧ (∃ t, step fetchWaits = .next t) ∧ (nextOf (step fetchWaits)).pc = fetchWaits.pc) :=
  ⟨⟨inv_jumping, by decide, exists_next (by decide), by decide⟩,
   ⟨inv_full, by decide, exists_next (by decide), by decide, by decide⟩, inv_fetchWaits, exists_next (by decide), by decide⟩
theorem test_witness_OperandsAreCommitted : full.stopped = false ∧ (∃ t, step full = .next t) ∧
    (∃ r, (nextOf (step full)).slotX = .inFlight r ∧ r.status = .normal) ∧
    (∃ p, (nextOf (step full)).slotM = .inFlight p ∧ p.hasWriteback = true) ∧
    ∃ p, (nextOf (step full)).slotW = .inFlight p ∧ p.hasWriteback = true :=
  ⟨by decide, exists_next (by decide), ⟨_, rfl, by decide⟩, ⟨_, rfl, by decide⟩, ⟨_, rfl, by decide⟩⟩
theorem test_witness_NoOvertaking : full.stopped = false ∧ (∃ t, step full = .next t) ∧
    tagged full.slotM = some (2, 0x21000002) ∧ tagged full.slotX = some (3, 0x20800005) ∧
    taggedD full.slotD = some (4, 0x0AAB0000) ∧ takenInX full = none ∧
    tagged (nextOf (step full)).slotW = some (2, 0x21000002) ∧ tagged (nextOf (step full)).slotM = some (3, 0x20800005) ∧
    tagged (nextOf (step full)).slotX = some (4, 0x0AAB0000) ∧ taggedD (nextOf (step full)).slotD = some (5, 0x48000000) ∧
    (blocked.stopped = false ∧ (∃ t, step blocked = .next t) ∧ takenInX blocked = none ∧
      tagged (nextOf (step blocked)).slotX = some (1, 0x20800005) ∧
      taggedD (nextOf (step blocked)).slotD = some (2, 0x0AAB0000) ∧
      ((nextOf (step blocked)).slotF.map fun f => f.latched) = some (.word 0x48000000)) ∧
    (fetchWaits.stopped = false ∧ (∃ t, step fetchWaits = .next t) ∧ takenInX fetchWaits = none ∧
      (fetchWaits.slotF.map fun f => f.latched) = some .outstanding) :=
  ⟨by decide, exists_next (by decide), by decide, by decide, by decide, by decide, by decide, by decide, by decide, by decide,
   ⟨by decide, exists_next (by decide), by decide, by decide, by decide, by decide⟩,
   by decide, exists_next (by decide), by decide, by decide⟩
theorem test_witness_ModesAreLatchedAtReset : (∃ t, step full = .next t) ∧ Line.reset 4 ∈ (hostReset true true full).lines :=
  ⟨exists_next (by decide), by decide⟩
theorem test_witness_AddressDecomposition : Config.reference.legal = true := by decide
theorem test_witness_PortArbitrationAndDelay : Requester.fetch ≠ Requester.mem ∧ delayOf instant 100 = 0 ∧
    (1 ≤ 1 ∧ 1 ≤ delayOf ref2 100) ∧ (1 ≤ 3 ∧ 3 ≤ delayOf ref2 100) ∧ instant.cacheEnabled = true ∧
    (access instant read100 .mem).2 = .done 0 := by decide
theorem test_witness_CacheDisabledAccess : (forceWrite ref0 100 42).ram.wf = true := by decide
theorem test_witness_HitPath : hitAt dirtyLine 100 = true ∧ hitAt dirtyLine 103 = true := by decide
theorem test_witness_MissPath : MemoryOk dirtyLine ∧ (hitAt dirtyLine 4 = false ∧ 4 < dirtyLine.cfg.ramWords) ∧
    (hitAt dirtyLine 255 = false ∧ 255 < dirtyLine.cfg.ramWords) ∧ (hitAt dirtyLine 0 = false ∧ 0 < dirtyLine.cfg.ramWords) ∧
    0 < dirtyLine.cfg.ramLatency := ⟨memoryOk_dirtyLine, by decide, by decide, by decide, by decide⟩
theorem test_witness_AbortsAndChangedRequests :
    ({ kind := .read, addr := 0, value := 0 } : Request) ≠ read100 ∧
    (Inv fetchWaits ∧ ∃ p f, fetchWaits.port = some p ∧ p.owner = .fetch ∧ fetchWaits.slotF = some f) ∧
    (Inv loadWaits ∧ ∃ p r, loadWaits.port = some p ∧ p.owner = .mem ∧ loadWaits.slotM = .inFlight r) ∧
    Requester.fetch ≠ Requester.mem ∧ (MemoryOk dirtyLine ∧ 0 < delayOf dirtyLine 4) :=
  ⟨by decide, ⟨inv_fetchWaits, _, _, rfl, by decide, rfl⟩, ⟨inv_loadWaits, _, _, rfl, by decide, rfl⟩, by decide,
   memoryOk_dirtyLine, by decide⟩
theorem test_witness_RequestsAreCountedOnce : Requester.fetch ≠ Requester.mem ∧
    ({ kind := .read, addr := 0, value := 0 } : Request) ≠ read100 := by decide
theorem test_witness_Backdoor : (forceWrite ref0 255 1).ram.wf = true ∧ ref0.cfg.ramWords ≤ 256 := by decide
theorem test_witness_HierarchyServesTheMemoryView : MemoryOk ref2 ∧ PortOk ref2 ∧
    read100.addr < ref2.cfg.ramWords ∧ (access ref2 read100 .mem).2 = .wait ∧
    (access ref0 read100 .mem).2 = .done 0 ∧ (access ref0 { read100 with kind := .write, value := 7 } .mem).2 = .done 0 :=
  ⟨memoryOk_ref2, portOk_ref2, by decide, by decide, by decide, by decide⟩
theorem test_witness_OnlyStoresChangeMemory : (Inv storingLast ∧ storingLast.stopped = false ∧
      (∃ t, step storingLast = .next t) ∧ storing storingLast = some (255, 84) ∧ 255 < storingLast.cfg.ramWords ∧
      (nextOf (step storingLast)).slotW ≠ .empty) ∧
    (Inv full ∧ full.stopped = false ∧ (∃ t, step full = .next t) ∧ storing full = none) :=
  ⟨⟨inv_storingLast, by decide, exists_next (by decide), by decide, by decide, by decide⟩,
   inv_full, by decide, exists_next (by decide), by decide⟩
theorem test_witness_PortOwnersFinish :
    (Inv loadWaits ∧ loadWaits.stopped = false ∧ ∃ p, loadWaits.port = some p ∧ p.owner = .mem) ∧
    (Inv fetchWaits ∧ fetchWaits.stopped = false ∧ ∃ p, fetchWaits.port = some p ∧ p.owner = .fetch) :=
  ⟨⟨inv_loadWaits, by decide, _, rfl, by decide⟩, inv_fetchWaits, by decide, _, rfl, by decide⟩
theorem test_witness_ResetAndPowerOn : Config.reference2.legal = true ∧
    Line.reset 4 ∈ (hostReset true true full).lines := by decide
theorem test_witness_EntryPoint : full.cfg.legal = true ∧ serialCached.cfg.legal = true := by decide
theorem test_witness_LoadWritesRamAlone : (forceWrite ref0 100 42).ram.wf = true := by decide
theorem test_witness_RunSteps : ref0.cfg.legal = true ∧ 0 < 1 ∧ 1 < 2 := by decide
theorem test_witness_BreakpointRun : ref0.cfg.legal = true ∧ 0 < 1 ∧ 1 < 2 := by decide
theorem test_witness_HostReads : ref0.cfg.legal = true ∧ 15 < ref0.cfg.nregs ∧ ref0.cfg.nregs ≤ 16 := by decide
theorem test_witness_HostKeepsSoundness : Config.reference2.legal = true ∧ Inv dirtyLine ∧ Inv full ∧
    ∀ k, (lineAt full k).valid = false := by
  refine ⟨by decide, inv_dirtyLine, inv_full, fun k => ?_⟩
  match k with
  | 0 => rfl
  | 1 => rfl
  | 2 => rfl
  | 3 => rfl
  | _ + 4 => rfl
theorem test_witness_StepKeepsSoundness : (Inv jumping ∧ ∃ t, step jumping = .next t) ∧
    (Inv loadWaits ∧ ∃ t, step loadWaits = .next t) :=
  ⟨⟨inv_jumping, exists_next (by decide)⟩, inv_loadWaits, exists_next (by decide)⟩
theorem test_witness_SerialInstructionTakesItsEffect :
    (serial.cfg.legal = true ∧ serial.phase = .program ∧ SerialStart serial ∧ serial.cacheEnabled = false ∧
      serial.pc.toNat < serial.cfg.ramWords ∧ decodeWord (serial.ram.read serial.pc.toNat) = .ldi 1 5 ∧
      Instr.ldi 1 5 ≠ .halt ∧ ∃ t, exec (.ldi 1 5) serial = .next t) ∧
    (let s : State := { ref3 with slotF := fetchAt 0 }
     SerialStart s ∧ s.cacheEnabled = false ∧ s.ram.read s.pc.toNat = 0) ∧
    (let s : State := { ref3 with pc := 256, slotF := fetchAt 256 }
     SerialStart s ∧ ¬ s.pc.toNat < s.cfg.ramWords) :=
  ⟨⟨by decide, by decide, ⟨by decide, by decide, by decide, by decide, by decide⟩, by decide, by decide, by decide,
     by decide, exists_next (by decide)⟩,
   ⟨⟨by decide, by decide, by decide, by decide, by decide⟩, by decide, by decide⟩,
   ⟨by decide, by decide, by decide, by decide, by decide⟩, by decide⟩
theorem test_witness_SerialInstructionInEveryCacheMode : Inv serialCached ∧ SerialStart serialCached ∧
    serialCached.pc.toNat < serialCached.cfg.ramWords ∧
    decodeWord (amem serialCached serialCached.pc.toNat) = .ldi 1 5 ∧ Instr.ldi 1 5 ≠ .halt ∧
    ∃ t, exec (.ldi 1 5) serialCached = .next t :=
  ⟨inv_serialCached, ⟨by decide, by decide, by decide, by decide, by decide⟩, by decide, by decide, by decide,
   exists_next (by decide)⟩

end Sys2Proof.Tests
end

section
/-! The scope of the model (00_scope.md): which configurations are legal and what construction answers for each. -/

namespace Sys2Proof

/-- The test of R6 is the conjunction of the legal ranges of R5, in the order R5 lists them. -/
theorem Config.legal_iff (c : Config) : c.legal = true ↔
    (c.nregs = 16 ∨ c.nregs = 32) ∧ 1 ≤ c.ramWords ∧ c.ramWords ≤ 2 ^ 32 ∧ c.ramWords % c.wordsPerLine = 0 ∧
      1 ≤ c.cacheLines ∧ 1 ≤ c.wordsPerLine := by
  simp only [Config.legal, Bool.and_eq_true, Bool.or_eq_true, beq_iff_eq, decide_eq_true_eq]
  constructor
  · rintro ⟨⟨⟨⟨⟨hregs, hpos⟩, hmax⟩, hlines⟩, hwords⟩, hmod⟩
    exact ⟨hregs, hpos, hmax, hmod, hlines, hwords⟩
  · rintro ⟨hregs, hpos, hmax, hmod, hlines, hwords⟩
    exact ⟨⟨⟨⟨⟨hregs, hpos⟩, hmax⟩, hlines⟩, hwords⟩, hmod⟩

end Sys2Proof

namespace Sys2Proof.Machine

theorem construct_of_legal {c : Config} (hc : c.legal = true) (p e : Bool) :
    construct c p e = .next (State.powerOn c p e) :=
  if_pos hc

theorem construct_of_not_legal {c : Config} (hc : ¬ c.legal = true) (p e : Bool) :
    construct c p e = .refused .illegalConfiguration :=
  if_neg hc

/-- Settles O22: construction branches on the test of R6, and the test is R5's list of legal values. -/
theorem illegalConfigurationsAreRefused : Obligations.IllegalConfigurationsAreRefused := by
  intro c p e
  rw [← Config.legal_iff]
  by_cases hc : c.legal = true
  · exact .inl ⟨hc, construct_of_legal hc p e⟩
  · exact .inr ⟨hc, construct_of_not_legal hc p e⟩

end Sys2Proof.Machine
end

section
/-! The words of memory (20_memory.md): the parts of an address, and the accesses that reach RAM without the cache. -/

namespace Sys2Proof.Machine

/-! ### The parts of an address (R62) -/

/-- The number of the memory block of `a`, from its tag and its line index. -/
theorem tagOf_mul_add_lineIndex (c : Config) (a : Nat) :
    tagOf c a * c.cacheLines + lineIndex c a = a / c.wordsPerLine := by
  rw [tagOf, lineIndex, Nat.mul_comm c.cacheLines, ← Nat.div_div_eq_div_mul, Nat.div_add_mod']

theorem baseOf_eq (c : Config) (a : Nat) : baseOf c a = a / c.wordsPerLine * c.wordsPerLine := by
  have h := Nat.div_add_mod' a c.wordsPerLine
  unfold baseOf offsetOf
  omega

theorem blockBase_of_address (c : Config) (a : Nat) : blockBase c (tagOf c a) (lineIndex c a) = baseOf c a := by
  rw [blockBase, ← Nat.add_mul, tagOf_mul_add_lineIndex, baseOf_eq]

theorem baseOf_add_offsetOf (c : Config) (a : Nat) : baseOf c a + offsetOf c a = a := by
  rw [baseOf_eq, offsetOf, Nat.div_add_mod']

theorem lineIndex_lt {c : Config} (hc : c.legal = true) (a : Nat) : lineIndex c a < c.cacheLines := by
  obtain ⟨-, -, -, -, hlines, -⟩ := (Config.legal_iff c).1 hc
  exact Nat.mod_lt _ hlines

theorem offsetOf_lt {c : Config} (hc : c.legal = true) (a : Nat) : offsetOf c a < c.wordsPerLine := by
  obtain ⟨-, -, -, -, -, hwords⟩ := (Config.legal_iff c).1 hc
  exact Nat.mod_lt _ hwords

/-- The block of an address of RAM lies in RAM, as RAM is a whole number of blocks (R5, R67). -/
theorem baseOf_block_inside {c : Config} (hc : c.legal = true) {a : Nat} (ha : a < c.ramWords) :
    baseOf c a + c.wordsPerLine ≤ c.ramWords := by
  obtain ⟨-, -, -, hmod, -, -⟩ := (Config.legal_iff c).1 hc
  obtain ⟨blocks, hblocks⟩ := Nat.dvd_of_mod_eq_zero hmod
  have hblock : a / c.wordsPerLine < blocks := Nat.div_lt_of_lt_mul (hblocks ▸ ha)
  calc baseOf c a + c.wordsPerLine
      = c.wordsPerLine * (a / c.wordsPerLine + 1) := by rw [baseOf_eq]; ring
    _ ≤ c.wordsPerLine * blocks := Nat.mul_le_mul_left _ hblock
    _ = c.ramWords := hblocks.symm

/-- Settles O39: tag and line index together count the blocks before that of `a`. -/
theorem addressDecomposition : Obligations.AddressDecomposition := by
  intro c a hc
  have hbase : tagOf c a * c.cacheLines * c.wordsPerLine + lineIndex c a * c.wordsPerLine = baseOf c a :=
    blockBase_of_address c a
  refine ⟨rfl, rfl, rfl, ?_, rfl, hbase, lineIndex_lt hc a, offsetOf_lt hc a⟩
  rw [hbase, baseOf_add_offsetOf]

/-! ### RAM without the cache (R65, R76) -/

/-- Settles O41: the disabled cache passes every access to RAM. -/
theorem cacheDisabledAccess : Obligations.CacheDisabledAccess := by
  intro s a v stage
  refine ⟨access_disabled rfl _ stage, s.ram.write a v, access_disabled rfl _ stage, fun hwf => ?_⟩
  exact ⟨Memory.wf_write hwf a v, Memory.read_write hwf a v⟩

theorem forceWrite_inside {s : State} {a : Nat} (ha : a < s.cfg.ramWords) (w : Word) :
    forceWrite s a w = { s with ram := s.ram.write a w } := if_pos ha

theorem forceWrite_outside {s : State} {a : Nat} (ha : s.cfg.ramWords ≤ a) (w : Word) : forceWrite s a w = s :=
  if_neg (Nat.not_lt.2 ha)

/-- The backdoor's read law: the word written at its address, if that lies in RAM, every other word as before. -/
theorem forceRead_forceWrite {s : State} (hwf : s.ram.wf = true) (a : Nat) (w : Word) (b : Nat) :
    forceRead (forceWrite s a w) b = if b = a ∧ a < s.cfg.ramWords then w else forceRead s b := by
  by_cases ha : a < s.cfg.ramWords
  · simp only [forceWrite_inside ha, forceRead, Memory.read_write hwf]
    by_cases hb : b = a
    · simp [hb, ha]
    · simp [hb]
  · simp [forceWrite_outside (Nat.le_of_not_lt ha), ha]

/-- `forceWrite` touches RAM alone. -/
theorem forceWrite_eq (s : State) (a : Nat) (w : Word) :
    forceWrite s a w = { s with ram := (forceWrite s a w).ram } := by
  unfold forceWrite
  split <;> rfl

/-- Settles O46: inside RAM the backdoor is RAM's own read and write, outside it does nothing. -/
theorem backdoor : Obligations.Backdoor := fun s a w hwf =>
  ⟨rfl, forceWrite_wf hwf a w, forceRead_forceWrite hwf a w, forceWrite_eq s a w, fun ha => forceWrite_outside ha w⟩

end Sys2Proof.Machine
end

section
/-! A request from its acceptance to its completion (20_memory.md R64, R66 to R71): the WAITs of its delay, then the one
call of `completeAccess` that answers it, which the hit path and the miss path then evaluate. -/

namespace Sys2Proof.Machine

open Sys2Proof.Claims

/-! ### Completion: fill after a miss, then service the word (R71) -/

/-- The word of a request whose line is in place is answered or updated (R66). -/
def serviceWord (s : State) (q : Request) : State × Reply :=
  match q.kind with
  | .write => (writeCachedWord s q.addr q.value, .done 0)
  | .read => (s, .done (cachedWord s q.addr))

theorem serviceWord_read {q : Request} (hq : q.kind = .read) (s : State) :
    serviceWord s q = (s, .done (cachedWord s q.addr)) := by
  simp only [serviceWord, hq]

theorem serviceWord_write {q : Request} (hq : q.kind = .write) (s : State) :
    serviceWord s q = (writeCachedWord s q.addr q.value, .done 0) := by
  simp only [serviceWord, hq]

theorem completeAccess_eq_serviceWord (s : State) (q : Request) :
    completeAccess s q = serviceWord (if hitAt s q.addr then s else fillLine s q.addr) q := by
  obtain ⟨k, a, v⟩ := q
  cases k <;> rfl

theorem completeAccess_of_hit {s : State} {q : Request} (h : hitAt s q.addr = true) :
    completeAccess s q = serviceWord s q := by
  rw [completeAccess_eq_serviceWord, if_pos h]

theorem completeAccess_of_miss {s : State} {q : Request} (h : hitAt s q.addr = false) :
    completeAccess s q = serviceWord (fillLine s q.addr) q := by
  rw [completeAccess_eq_serviceWord, if_neg (Bool.eq_false_iff.1 h)]

/-- Completion touches the lines alone. -/
theorem completeAccess_eq (s : State) (q : Request) :
    (completeAccess s q).1 = { s with lines := (completeAccess s q).1.lines } := by
  unfold completeAccess
  cases q.kind <;> cases hitAt s q.addr <;> rfl

theorem completeAccess_done (s : State) (q : Request) : ∃ w, (completeAccess s q).2 = .done w := by
  unfold completeAccess
  cases q.kind
  · exact ⟨_, rfl⟩
  · exact ⟨_, rfl⟩

theorem completeAccess_port (s : State) (q : Request) : (completeAccess s q).1.port = s.port := by
  rw [completeAccess_eq]

theorem completeAccess_hits (s : State) (q : Request) : (completeAccess s q).1.hits = s.hits := by
  rw [completeAccess_eq]

theorem completeAccess_misses (s : State) (q : Request) : (completeAccess s q).1.misses = s.misses := by
  rw [completeAccess_eq]

/-! ### Counting down the delay (R64, R69, R70) -/

/-- `s` with the port held by `stage` for `q`, and `n` WAITs still to be charged (R34). -/
def portHeld (s : State) (q : Request) (stage : Requester) (n : Nat) : State :=
  { s with cacheEnabled := true, port := some { owner := stage, count := n, pending := q } }

theorem access_portHeld_waits (s : State) (q : Request) (stage : Requester) {n : Nat} (hn : 1 ≤ n) :
    access (portHeld s q stage (n + 1)) q stage = (portHeld s q stage n, .wait) :=
  access_waits (s := portHeld s q stage (n + 1)) rfl rfl (Nat.succ_le_succ hn)

theorem access_portHeld_done (s : State) (q : Request) (stage : Requester) :
    access (portHeld s q stage 1) q stage = completeAccess (idle s) q :=
  access_completes (s := portHeld s q stage 1) rfl rfl rfl

/-- Each issue of the owner's request, while WAITs are left, only counts down. -/
theorem issueTimes_portHeld_waits (s : State) (q : Request) (stage : Requester) {c : Nat} (hc : 1 ≤ c) (n : Nat) :
    issueTimes q stage (n + 1) (portHeld s q stage (c + n + 1)) = (portHeld s q stage c, .wait) := by
  induction n with
  | zero => exact access_portHeld_waits s q stage hc
  | succ n ih =>
    rw [issueTimes, access_portHeld_waits s q stage (by omega)]
    exact ih

/-- As many issues as WAITs are left complete the request. -/
theorem issueTimes_portHeld_done (s : State) (q : Request) (stage : Requester) (n : Nat) :
    issueTimes q stage (n + 1) (portHeld s q stage (n + 1)) = completeAccess (idle s) q := by
  induction n with
  | zero => exact access_portHeld_done s q stage
  | succ n ih =>
    rw [issueTimes, access_portHeld_waits s q stage (Nat.succ_pos n)]
    exact ih

/-! ### A request that finds the port free -/

/-- Acceptance neither reads nor writes the port and the cache flag. -/
theorem countAccess_idle (s : State) (a : Nat) : countAccess (idle s) a = idle (countAccess s a) := by
  have hh : hitAt (idle s) a = hitAt s a := rfl
  have hv : dirtyVictim (idle s) a = dirtyVictim s a := rfl
  unfold countAccess
  rw [hh, hv]
  cases hitAt s a
  · cases dirtyVictim s a <;> rfl
  · rfl

theorem countAccess_port (s : State) (a : Nat) : (countAccess s a).port = s.port := by
  unfold countAccess
  split
  · rfl
  · split <;> rfl

theorem access_idle_immediate {s : State} {q : Request} (hd : delayOf s q.addr = 0) (stage : Requester) :
    access (idle s) q stage = completeAccess (idle (countAccess s q.addr)) q := by
  rw [← countAccess_idle]
  exact if_pos hd

theorem access_idle_delayed {s : State} {q : Request} (hd : delayOf s q.addr ≠ 0) (stage : Requester) :
    access (idle s) q stage = (portHeld (countAccess s q.addr) q stage (delayOf s q.addr), .wait) := by
  have h : access (idle s) q stage =
      ({ countAccess (idle s) q.addr with
          port := some { owner := stage, count := delayOf s q.addr, pending := q } }, .wait) := if_neg hd
  rw [h, countAccess_idle]
  rfl

/-- The first issue moves the counter of misses and RAM as acceptance does, whether or not it completes the request. -/
theorem access_idle_misses_ram (s : State) (q : Request) (stage : Requester) :
    (access (idle s) q stage).1.misses = (countAccess s q.addr).misses ∧
      (access (idle s) q stage).1.ram = (countAccess s q.addr).ram := by
  by_cases hd : delayOf s q.addr = 0
  · rw [access_idle_immediate hd, completeAccess_misses, completeAccess_ram]
    exact ⟨rfl, rfl⟩
  · rw [access_idle_delayed hd]
    exact ⟨rfl, rfl⟩

/-- The first `delayOf s q.addr` issues get WAIT. -/
theorem issueTimes_idle_waits (s : State) (q : Request) (stage : Requester) {n : Nat} (hn : 1 ≤ n)
    (hd : n ≤ delayOf s q.addr) :
    issueTimes q stage n (idle s) =
      (portHeld (countAccess s q.addr) q stage (delayOf s q.addr - (n - 1)), .wait) := by
  have hfirst := access_idle_delayed (s := s) (q := q) (by omega) stage
  match n, hn with
  | 1, _ => exact hfirst
  | n + 2, _ =>
    obtain ⟨c, hc, hdelay⟩ : ∃ c, 1 ≤ c ∧ delayOf s q.addr = c + n + 1 :=
      ⟨delayOf s q.addr - (n + 1), by omega⟩
    rw [issueTimes, hfirst, hdelay, issueTimes_portHeld_waits _ q stage hc, show c + n + 1 - (n + 2 - 1) = c by omega]

/-- The issue after them completes the request, whatever the delay. -/
theorem issueTimes_idle_done (s : State) (q : Request) (stage : Requester) :
    issueTimes q stage (delayOf s q.addr + 1) (idle s) = completeAccess (idle (countAccess s q.addr)) q := by
  cases hdelay : delayOf s q.addr with
  | zero => exact access_idle_immediate hdelay stage
  | succ n =>
    rw [issueTimes, access_idle_delayed (by omega) stage, hdelay]
    exact issueTimes_portHeld_done _ q stage n

theorem acceptRequest_done_port {s t : State} {q : Request} {stage : Requester} {w : Word} (hs : s.port = none)
    (h : acceptRequest s q stage = (t, .done w)) : t.port = none := by
  unfold acceptRequest at h
  split at h
  · have ht : t = (completeAccess (countAccess s q.addr) q).1 := by rw [h]
    rw [ht, completeAccess_port, countAccess_port, hs]
  · simp at h

theorem abort_owner_port {s : State} {p : Access} (hp : s.port = some p) : (abort s p.owner).port = none := by
  rw [abort_port, hp]
  simp [Option.filter]

/-- A DONE leaves the port free (R70). -/
theorem access_done_port {s t : State} {q : Request} {stage : Requester} {w : Word} (he : s.cacheEnabled = true)
    (h : access s q stage = (t, .done w)) : t.port = none := by
  unfold access at h
  rw [if_pos he] at h
  split at h
  case h_1 hp => exact acceptRequest_done_port hp h
  case h_2 p hp =>
    split at h
    case isTrue refused => simp at h
    case isFalse ho =>
      obtain rfl := not_not.1 ho
      split at h
      case isTrue changed => exact acceptRequest_done_port (abort_owner_port hp) h
      case isFalse =>
        split at h
        case isTrue =>
          have ht : t = (completeAccess { s with port := none } q).1 := by rw [h]
          rw [ht, completeAccess_port]
        case isFalse waits => simp at h

/-- Settles O40: the delay is counted down by the owner's issues alone, and only a delay takes the port. -/
theorem portArbitrationAndDelay : Obligations.PortArbitrationAndDelay := by
  refine ⟨fun s p q stage ho => access_refused rfl rfl ho q, fun s q stage => ⟨fun hd => ?_, fun n hn hd => ?_, ?_⟩,
    fun s t q stage w h he => access_done_port he h⟩
  · rw [access_idle_immediate hd, completeAccess_port]
    rfl
  · rw [issueTimes_idle_waits s q stage hn hd, access_idle_delayed (by omega)]
    exact ⟨rfl, rfl⟩
  · obtain ⟨w, hw⟩ := completeAccess_done (idle (countAccess s q.addr)) q
    exact ⟨_, w, (issueTimes_idle_done s q stage).trans (Prod.ext rfl hw), completeAccess_port _ q⟩

/-! ### The hit path (R66) -/

theorem delayOf_of_hit {s : State} {a : Nat} (h : hitAt s a = true) : delayOf s a = s.cfg.cacheLatency := if_pos h

theorem countAccess_of_hit {s : State} {a : Nat} (h : hitAt s a = true) :
    countAccess s a = { s with hits := s.hits + 1 } := if_pos h

/-- Settles O42: acceptance only counts a hit, so completion finds the line in place and services its word. -/
theorem hitPath : Obligations.HitPath := by
  intro s q stage h
  refine ⟨delayOf_of_hit h, ?_⟩
  have hlast : issueTimes q stage (s.cfg.cacheLatency + 1) (idle s) =
      serviceWord (idle { s with hits := s.hits + 1 }) q := by
    rw [← delayOf_of_hit h, issueTimes_idle_done, countAccess_of_hit h]
    exact completeAccess_of_hit h
  rw [hlast]
  cases hq : q.kind
  case read => exact serviceWord_read hq _
  case write => exact serviceWord_write hq _

/-! ### The miss path (R67, R68) -/

theorem lineAt_fillLine {s : State} {a : Nat} (hk : lineIndex s.cfg a < s.lines.length) (j : Nat) :
    lineAt (fillLine s a) j =
      if j = lineIndex s.cfg a then
        { valid := true, dirty := false, tag := tagOf s.cfg a,
          data := s.ram.readBlock (baseOf s.cfg a) s.cfg.wordsPerLine }
      else lineAt s j :=
  lineAt_setLine s _ j _ hk

theorem lineAt_writeCachedWord {s : State} {a : Nat} (hk : lineIndex s.cfg a < s.lines.length) (v : Word) (j : Nat) :
    lineAt (writeCachedWord s a v) j =
      if j = lineIndex s.cfg a then
        { lineAt s j with dirty := true, data := (lineAt s j).data.set (offsetOf s.cfg a) v }
      else lineAt s j := by
  rw [writeCachedWord, lineAt_setLine s _ j _ hk]
  split
  case isTrue h => rw [h]
  case isFalse => rfl

/-- The fill keeps the number of lines, so its line is still one of them. -/
theorem lineIndex_lt_fillLine {s : State} {a : Nat} (hk : lineIndex s.cfg a < s.lines.length) :
    lineIndex (fillLine s a).cfg a < (fillLine s a).lines.length := by
  rw [fillLine, setLine_lines, List.length_set]
  exact hk

/-- Servicing a word leaves every other line. -/
theorem lineAt_serviceWord_of_ne {s : State} {q : Request} (hk : lineIndex s.cfg q.addr < s.lines.length) {j : Nat}
    (hj : j ≠ lineIndex s.cfg q.addr) : lineAt (serviceWord s q).1 j = lineAt s j := by
  cases hq : q.kind
  case read => rw [serviceWord_read hq]
  case write => rw [serviceWord_write hq, lineAt_writeCachedWord hk, if_neg hj]

/-- A read of the line just filled answers RAM's word. -/
theorem cachedWord_fillLine {s : State} (hc : s.cfg.legal = true) {a : Nat} (hk : lineIndex s.cfg a < s.lines.length) :
    cachedWord (fillLine s a) a = s.ram.read a := by
  rw [cachedWord, fillLine_cfg, lineAt_fillLine hk, if_pos rfl]
  simp only
  rw [Memory.readBlock_getD _ _ _ _ (offsetOf_lt hc a), baseOf_add_offsetOf]

section
variable {s : State} {q : Request}

/-- Completing a read that missed: RAM's word is answered, and the line holds RAM's block, clean (R67). -/
theorem completeAccess_missed_read (hc : s.cfg.legal = true) (hk : lineIndex s.cfg q.addr < s.lines.length)
    (h : hitAt s q.addr = false) (hq : q.kind = .read) :
    (completeAccess s q).2 = .done (s.ram.read q.addr) ∧
      lineAt (completeAccess s q).1 (lineIndex s.cfg q.addr) =
        { valid := true, dirty := false, tag := tagOf s.cfg q.addr,
          data := s.ram.readBlock (baseOf s.cfg q.addr) s.cfg.wordsPerLine } := by
  rw [completeAccess_of_miss h, serviceWord_read hq, cachedWord_fillLine hc hk, lineAt_fillLine hk, if_pos rfl]
  exact ⟨rfl, rfl⟩

/-- Completing a write that missed: the line holds RAM's block with the word written, dirty (R67). -/
theorem completeAccess_missed_write (hk : lineIndex s.cfg q.addr < s.lines.length)
    (h : hitAt s q.addr = false) (hq : q.kind = .write) :
    (completeAccess s q).2 = .done 0 ∧
      lineAt (completeAccess s q).1 (lineIndex s.cfg q.addr) =
        { valid := true, dirty := true, tag := tagOf s.cfg q.addr,
          data := (s.ram.readBlock (baseOf s.cfg q.addr) s.cfg.wordsPerLine).set (offsetOf s.cfg q.addr) q.value } := by
  rw [completeAccess_of_miss h, serviceWord_write hq, lineAt_writeCachedWord (lineIndex_lt_fillLine hk), fillLine_cfg,
    if_pos rfl, lineAt_fillLine hk, if_pos rfl]
  exact ⟨rfl, rfl⟩

/-- Completing a request that missed leaves every line but its own. -/
theorem lineAt_completeAccess_missed (hk : lineIndex s.cfg q.addr < s.lines.length) (h : hitAt s q.addr = false)
    {j : Nat} (hj : j ≠ lineIndex s.cfg q.addr) : lineAt (completeAccess s q).1 j = lineAt s j := by
  rw [completeAccess_of_miss h, lineAt_serviceWord_of_ne (lineIndex_lt_fillLine hk) hj, lineAt_fillLine hk, if_neg hj]

end

theorem lineIndex_lt_lines {s : State} (hm : MemoryOk s) (a : Nat) : lineIndex s.cfg a < s.lines.length :=
  hm.cache.count ▸ lineIndex_lt hm.legal a

theorem lineAt_data_length {s : State} (hm : MemoryOk s) {k : Nat} (hk : k < s.lines.length) :
    (lineAt s k).data.length = s.cfg.wordsPerLine := by
  have hline : lineAt s k = s.lines[k] := by simp [lineAt, List.getD, hk]
  rw [hline]
  exact hm.cache.width _ (List.getElem_mem hk)

/-- The flushed line becomes clean and keeps its tag and data; every other line is untouched. -/
theorem lineAt_flushLine {s : State} {k : Nat} (hk : k < s.lines.length) (j : Nat) :
    lineAt (flushLine s k) j = if j = k then { lineAt s j with dirty := false } else lineAt s j := by
  refine (lineAt_setLine _ k j _ hk).trans ?_
  split
  case isTrue h => rw [h]
  case isFalse => rfl

/-- `s` with the port free, once a missing request to `a` has been accepted: its dirty victim flushed and the miss
counted (R67, R68). -/
def missed (s : State) (a : Nat) : State :=
  idle { (if dirtyVictim s a then flushLine s (lineIndex s.cfg a) else s) with misses := s.misses + 1 }

section
variable {s : State} {a : Nat}

theorem missed_of_dirty (hv : dirtyVictim s a = true) :
    missed s a = idle { flushLine s (lineIndex s.cfg a) with misses := s.misses + 1 } := by
  rw [missed, if_pos hv]

theorem missed_of_clean (hv : dirtyVictim s a = false) : missed s a = idle { s with misses := s.misses + 1 } := by
  rw [missed, if_neg (Bool.eq_false_iff.1 hv)]

theorem idle_countAccess_of_miss (h : hitAt s a = false) : idle (countAccess s a) = missed s a := by
  rw [countAccess, if_neg (Bool.eq_false_iff.1 h)]
  cases hv : dirtyVictim s a
  case false => exact (missed_of_clean hv).symm
  case true => exact (missed_of_dirty hv).symm

/-- Acceptance of a miss leaves the configuration and the counter of hits, and the number of lines. -/
theorem missed_frame (s : State) (a : Nat) :
    (missed s a).cfg = s.cfg ∧ (missed s a).hits = s.hits ∧ (missed s a).lines.length = s.lines.length := by
  cases hv : dirtyVictim s a
  case false => rw [missed_of_clean hv]; exact ⟨rfl, rfl, rfl⟩
  case true => rw [missed_of_dirty hv]; exact ⟨rfl, rfl, List.length_set⟩

/-- A dirty victim becomes clean and keeps its tag and data; every other line is untouched. -/
theorem lineAt_missed (hk : lineIndex s.cfg a < s.lines.length) (j : Nat) :
    lineAt (missed s a) j =
      if j = lineIndex s.cfg a ∧ dirtyVictim s a = true then { lineAt s j with dirty := false } else lineAt s j := by
  cases hv : dirtyVictim s a
  case false =>
    simp only [missed_of_clean hv, Bool.false_eq_true, and_false, if_false]
    rfl
  case true =>
    simp only [missed_of_dirty hv, and_true]
    exact lineAt_flushLine hk j

/-- RAM receives a dirty victim's words at its old block, and changes nowhere else. -/
theorem read_missed (hm : MemoryOk s) (b : Nat) :
    (missed s a).ram.read b =
      if dirtyVictim s a = true ∧ blockBase s.cfg (lineAt s (lineIndex s.cfg a)).tag (lineIndex s.cfg a) ≤ b ∧
          b < blockBase s.cfg (lineAt s (lineIndex s.cfg a)).tag (lineIndex s.cfg a) + s.cfg.wordsPerLine then
        (lineAt s (lineIndex s.cfg a)).data.getD
          (b - blockBase s.cfg (lineAt s (lineIndex s.cfg a)).tag (lineIndex s.cfg a)) 0
      else s.ram.read b := by
  cases hv : dirtyVictim s a
  case false =>
    simp only [missed_of_clean hv, Bool.false_eq_true, false_and, if_false]
    rfl
  case true =>
    simp only [missed_of_dirty hv, true_and, ← lineAt_data_length hm (lineIndex_lt_lines hm a)]
    exact Memory.read_writeBlock hm.ram.canonical _ _ b

/-- The flush of its victim leaves a miss a miss: the victim keeps its tag. -/
theorem hitAt_missed (hk : lineIndex s.cfg a < s.lines.length) : hitAt (missed s a) a = hitAt s a := by
  unfold hitAt
  rw [(missed_frame s a).1, lineAt_missed hk]
  split <;> rfl

end

theorem delayOf_of_miss {s : State} {a : Nat} (h : hitAt s a = false) : delayOf s a = s.cfg.ramLatency :=
  if_neg (Bool.eq_false_iff.1 h)

/-- The whole of a request that misses: acceptance, the WAITs of `RAM_LATENCY`, completion. -/
theorem issueTimes_missed {s : State} {q : Request} (h : hitAt s q.addr = false) (stage : Requester) :
    issueTimes q stage (s.cfg.ramLatency + 1) (idle s) = completeAccess (missed s q.addr) q := by
  rw [← delayOf_of_miss h, issueTimes_idle_done, idle_countAccess_of_miss h]

/-- The first issue of a request that misses, in the counter of misses, in RAM and, while it waits, in the lines. -/
theorem access_missed {s : State} {q : Request} (h : hitAt s q.addr = false) (stage : Requester) :
    (access (idle s) q stage).1.misses = s.misses + 1 ∧
      (access (idle s) q stage).1.ram = (missed s q.addr).ram ∧
      (0 < s.cfg.ramLatency → ∀ j, lineAt (access (idle s) q stage).1 j = lineAt (missed s q.addr) j) := by
  obtain ⟨hmisses, hram⟩ := access_idle_misses_ram s q stage
  rw [← idle_countAccess_of_miss h]
  refine ⟨?_, hram, fun hd j => ?_⟩
  · rw [hmisses]
    exact congrArg State.misses (idle_countAccess_of_miss h)
  · rw [access_idle_delayed (by rw [delayOf_of_miss h]; omega)]
    rfl

/-- Settles O43: acceptance counts and flushes, which leaves the request a miss, so completion fills the line. -/
theorem missPath : Obligations.MissPath := by
  intro s q stage hm h ha
  have hk := lineIndex_lt_lines hm q.addr
  obtain ⟨hcfg, hhits, hlines⟩ := missed_frame s q.addr
  obtain ⟨hfirstMisses, hfirstRam, hfirstLines⟩ := access_missed h stage
  have hk' : lineIndex (missed s q.addr).cfg q.addr < (missed s q.addr).lines.length := by rwa [hcfg, hlines]
  have h' : hitAt (missed s q.addr) q.addr = false := (hitAt_missed hk).trans h
  simp only [issueTimes_missed h, completeAccess_misses, completeAccess_hits, completeAccess_ram]
  refine ⟨delayOf_of_miss h, rfl, hhits, hfirstMisses, hfirstRam, baseOf_block_inside hm.legal ha,
    fun hd => ?_, read_missed hm, fun j hj => ?_, ?_⟩
  · rw [hfirstLines hd, lineAt_missed hk]
    simp only [true_and]
    rfl
  · rw [lineAt_completeAccess_missed hk' h' (by rwa [hcfg]), lineAt_missed hk]
    simp only [hj, false_and, if_false]
  · rw [← hcfg]
    cases hq : q.kind
    case read => exact completeAccess_missed_read (hcfg ▸ hm.legal) hk' h' hq
    case write => exact completeAccess_missed_write hk' h' hq

end Sys2Proof.Machine
end

section
/-! The decode function (30_encoding.md R91 to R105): what an immediate is, bit by bit, and the row of R103 for each
opcode number. -/

namespace Sys2Proof.Machine

open Sys2Proof.Claims

/-! ### Condition codes (R98) -/

/-- The branch comparison is the one R98 gives its code number, on the signed readings. -/
theorem condHolds_eq_comparison (cc : Cond) (p q : Word) :
    condHolds cc p q = comparison cc.toBits.toNat p.toInt q.toInt := by
  cases cc with
  | eq => exact (beq_eq_decide p q).trans (decide_eq_decide.2 BitVec.toInt_inj.symm)
  | lt => rfl
  | ge => rfl
  | ne => exact by simp [condHolds, comparison, bne, beq_eq_decide, BitVec.toInt_inj, Cond.toBits]

/-- Settles O7: a code is the code of the condition it names, so the comparison of that condition is the code's own. -/
theorem conditionCodes : Obligations.ConditionCodes := by
  refine ⟨fun c p q => ?_, rfl, rfl, rfl, rfl, Cond.toBits_ofBits⟩
  rw [condCodeHolds, condHolds_eq_comparison, Cond.toBits_ofBits]

/-! ### Fields and immediates (R91 to R96) -/

theorem bits_eq_field (w : Word) (lo n : Nat) : bits w lo n = field w lo n := by
  apply BitVec.eq_of_toNat_eq
  rw [bits, field, BitVec.extractLsb'_toNat, BitVec.toNat_ofNat, Nat.shiftRight_eq_div_pow]

theorem opNumber_eq_toNat (w : Word) : opNumber w = (opcodeOf w).toNat := by
  have hw := w.isLt
  rw [opcodeOf, bits, BitVec.extractLsb'_toNat, Nat.shiftRight_eq_div_pow, opNumber]
  omega

section
variable {n : Nat}

/-- The sign extension of the low `n` bits replicates bit `n - 1` upward. -/
theorem getLsbD_sext_bits (w : Word) (hn : 0 < n) {k : Nat} (hk : k < 32) :
    (sext (bits w 0 n)).getLsbD k = w.getLsbD (min k (n - 1)) := by
  rw [sext, BitVec.getLsbD_signExtend, BitVec.msb_eq_getLsbD_last]
  by_cases h : k < n
  · have hmin : min k (n - 1) = k := by omega
    simp [bits, hk, h, hmin]
  · have hmin : min k (n - 1) = n - 1 := by omega
    simp [bits, hk, h, hn, hmin]

/-- Shifting the field to the top and back replicates bit `n - 1` upward. -/
theorem getLsbD_sextLow (w : Word) (hn : 0 < n) (hn' : n ≤ 32) {k : Nat} (hk : k < 32) :
    (sextLow w n).getLsbD k = w.getLsbD (min k (n - 1)) := by
  rw [sextLow, BitVec.getLsbD_sshiftRight, BitVec.msb_eq_getLsbD_last, BitVec.getLsbD_shiftLeft,
    BitVec.getLsbD_shiftLeft]
  by_cases h : k < n
  · have hin : 32 - n + k < 32 := by omega
    have hsub : 32 - n + k - (32 - n) = k := by omega
    have hmin : min k (n - 1) = k := by omega
    simp [hk, hin, hsub, hmin]
  · have hout : ¬ 32 - n + k < 32 := by omega
    have htop : ¬ 32 - 1 < 32 - n := by omega
    have hsub : 32 - 1 - (32 - n) = n - 1 := by omega
    have hmin : min k (n - 1) = n - 1 := by omega
    simp only [Nat.not_le.2 hk, hout, htop, hsub, hmin, decide_false, Bool.not_false, Bool.true_and, if_false]
    rfl

/-- The two readings of `sext_n` (R8) agree. -/
theorem sext_bits_eq_sextLow (w : Word) (hn : 0 < n) (hn' : n ≤ 32) : sext (bits w 0 n) = sextLow w n :=
  BitVec.eq_of_getLsbD_eq fun _ hk => (getLsbD_sext_bits w hn hk).trans (getLsbD_sextLow w hn hn' hk).symm

/-- Sign extension keeps the range of an `n`-bit signed number. -/
theorem toInt_sext_range (v : BitVec n) (hn : n ≤ 32) :
    -(2 ^ (n - 1) : Int) ≤ (sext v).toInt ∧ (sext v).toInt ≤ (2 ^ (n - 1) : Int) - 1 := by
  rw [sext, BitVec.toInt_signExtend_of_le hn]
  exact ⟨BitVec.le_toInt v, Int.le_sub_one_of_lt BitVec.toInt_lt⟩

end

/-! ### The rows of R103 by opcode number -/

/-- The row of R103 that the opcode number `op` selects, its fields filled in from `w`. -/
def rowOfOpcode (w : Word) (op : Nat) : Fields :=
  match op with
  | 1 => addFields (f1Of w) (f2Of w) (f3Of w) (imm15Of w)
  | 2 => subFields (f1Of w) (f2Of w) (f3Of w) (imm15Of w)
  | 3 => addiFields (f1Of w) (f2Of w) (imm19Of w)
  | 4 => ldiFields (f1Of w) (imm23Of w)
  | 5 => loadFields (f1Of w) (f2Of w) (imm15Of w)
  | 6 => strFields (f1Of w) (f2Of w) (imm15Of w)
  | 7 => bcFields (Cond.ofBits (cndOf w)) (f1Of w) (f2Of w) (imm17Of w)
  | 8 => jFields (imm23Of w)
  | _ => nopFields

/-- The 24 opcodes that `OPMAP` gives no instruction share the row of NOP (R101); the others have a row each. -/
theorem fieldsOf_decodeOp (w : Word) : fieldsOf (decodeOp w) = rowOfOpcode w (opNumber w) := by
  rw [opNumber_eq_toNat, decodeOp]
  split <;> simp [rowOfOpcode, fieldsOf, *]

theorem decodeRecord_eq_recordOf_row (raw addr : Word) :
    decodeRecord raw addr = recordOf (rowOfOpcode raw (opNumber raw)) raw addr := by
  rw [decodeRecord, fieldsOf_decodeOp]

/-- The number of bits of the immediate of the opcode number `op` (R92, R100). -/
def immWidth (op : Nat) : Nat :=
  match op with
  | 3 => 19
  | 4 | 8 => 23
  | 7 => 17
  | _ => 15

theorem immWidth_range (op : Nat) : 0 < immWidth op ∧ immWidth op ≤ 32 := by
  unfold immWidth
  split <;> decide

/-- Each of the eight rows with an immediate takes it from the low bits of the word. -/
theorem rowOfOpcode_imm (w : Word) {op : Nat} (h1 : 1 ≤ op) (h8 : op ≤ 8) :
    (rowOfOpcode w op).imm = sext (bits w 0 (immWidth op)) := by
  interval_cases op <;> rfl

/-- Settles O5: the immediate is the sign extension of the low bits of the word, whatever the class. -/
theorem immediatesAreSignExtended : Obligations.ImmediatesAreSignExtended := by
  refine ⟨fun raw addr h1 h8 => ?_, by norm_num⟩
  obtain ⟨hpos, hle⟩ := immWidth_range (opNumber raw)
  have himm : (decodeRecord raw addr).imm = sext (bits raw 0 (immWidth (opNumber raw))) := by
    rw [decodeRecord_eq_recordOf_row]
    exact rowOfOpcode_imm raw h1 h8
  rw [himm]
  exact ⟨fun k hk => getLsbD_sext_bits raw hpos hk, toInt_sext_range _ hle⟩

/-- The record of R105 as the spec writes it is the record of the row of R103. -/
theorem decodeAsWritten_eq_recordOf_row (raw addr : Word) :
    decodeAsWritten raw addr = recordOf (rowOfOpcode raw (opNumber raw)) raw addr := by
  have h15 := sext_bits_eq_sextLow (n := 15) raw (by decide) (by decide)
  have h17 := sext_bits_eq_sextLow (n := 17) raw (by decide) (by decide)
  have h19 := sext_bits_eq_sextLow (n := 19) raw (by decide) (by decide)
  have h23 := sext_bits_eq_sextLow (n := 23) raw (by decide) (by decide)
  simp only [decodeAsWritten, ← bits_eq_field, ← h15, ← h17, ← h19, ← h23]
  generalize opNumber raw = op
  match op with
  | 7 => rw [rowOfOpcode, bcFields, Cond.toBits_ofBits]; rfl
  | 0 | 1 | 2 | 3 | 4 | 5 | 6 | 8 | _ + 9 => rfl

theorem sourcesOf_eq_row_srcs (raw : Word) : sourcesOf raw = (rowOfOpcode raw (opNumber raw)).srcs := by
  simp only [sourcesOf, ← bits_eq_field]
  generalize opNumber raw = op
  match op with
  | 0 | 1 | 2 | 3 | 4 | 5 | 6 | 7 | 8 | _ + 9 => rfl

/-- Settles O6: both sides are the row of R103 that the opcode number selects. -/
theorem decodeFunction : Obligations.DecodeFunction := fun raw addr =>
  ⟨(decodeRecord_eq_recordOf_row raw addr).trans (decodeAsWritten_eq_recordOf_row raw addr).symm,
    by rw [fieldsOf_decodeOp, sourcesOf_eq_row_srcs]⟩

end Sys2Proof.Machine
end

section
/-! The ALU instructions and NOP (40_alu.md): their words, their effect in program order and their way through the
stages. The facts about a stage hold for every instruction but HALT and are stated so. -/

namespace Sys2Proof.Machine

open Sys2Proof.Claims

/-! ### The words (R92, R100, R110) -/

/-- The sentinel has opcode 0, so a word with another opcode is what the lookup says. -/
theorem decodeWord_of_opcodeOf_ne_zero {w : Word} (h : opcodeOf w ≠ 0) : decodeWord w = decodeOp w :=
  decodeWord_of_ne fun hw => h (hw ▸ rfl)

theorem decodeWord_classA_add (rd rs1 rs2 : RegIdx) (ign : BitVec 15) :
    decodeWord (classA 1 rd rs1 rs2 ign) = .add rd rs1 rs2 ign := by
  rw [decodeWord_of_opcodeOf_ne_zero (by simp [opcodeOf_classA])]
  simp [decodeOp, opcodeOf_classA, f1Of_classA, f2Of_classA, f3Of_classA, imm15Of_classA]

theorem decodeWord_classA_sub (rd rs1 rs2 : RegIdx) (ign : BitVec 15) :
    decodeWord (classA 2 rd rs1 rs2 ign) = .sub rd rs1 rs2 ign := by
  rw [decodeWord_of_opcodeOf_ne_zero (by simp [opcodeOf_classA])]
  simp [decodeOp, opcodeOf_classA, f1Of_classA, f2Of_classA, f3Of_classA, imm15Of_classA]

theorem decodeWord_classB_addi (rd rs1 : RegIdx) (imm : BitVec 19) :
    decodeWord (classB 3 rd rs1 imm) = .addi rd rs1 imm := by
  rw [decodeWord_of_opcodeOf_ne_zero (by simp [opcodeOf_classB])]
  simp [decodeOp, opcodeOf_classB, f1Of_classB, f2Of_classB, imm19Of_classB]

theorem decodeWord_classD_ldi (rd : RegIdx) (imm : BitVec 23) :
    decodeWord (classD 4 rd imm) = .ldi rd imm := by
  rw [decodeWord_of_opcodeOf_ne_zero (by simp [opcodeOf_classD])]
  simp [decodeOp, opcodeOf_classD, f1Of_classD, imm23Of_classD]

/-! ### The effect in program order (R10, level 1) -/

/-- Writing a register and retiring is all that `WritesOnly` allows. -/
theorem writesOnly_retire_writeReg (s : State) (rd : RegIdx) (v : Word) :
    WritesOnly s (retire (writeReg s rd v)) rd v := by
  refine ⟨?_, fun i hi hne => ?_, rfl⟩
  · exact (readReg_writeReg s rd rd v).trans (if_pos rfl)
  · exact Vector.getElem_set_ne (Nat.lt_trans rd.isLt (by decide)) hi hne.symm

/-- In program order `i` writes `v s` to `rd` and does nothing else but advance the pc and be counted. -/
def ProgramWrites (i : Instr) (rd : RegIdx) (v : State → Word) : Prop :=
  ∀ s : State, ∃ t, exec i { s with phase := .program } = .next t ∧ WritesOnly { s with phase := .program } t rd (v s)

theorem ProgramWrites.of_exec {i : Instr} {rd : RegIdx} {v : State → Word}
    (h : ∀ s : State, exec i { s with phase := .program } =
      .next (retire (writeReg { s with phase := .program } rd (v s)))) : ProgramWrites i rd v :=
  fun s => ⟨_, h s, writesOnly_retire_writeReg _ rd (v s)⟩

/-- What the register written reads as afterwards, for the worked examples. -/
theorem ProgramWrites.readReg_eq {i : Instr} {rd : RegIdx} {v : State → Word} (h : ProgramWrites i rd v) {s : State}
    {c : Word} (hc : v s = c) : ∃ t, exec i { s with phase := .program } = .next t ∧ readReg t rd = c := by
  obtain ⟨t, ht, hval, -, -⟩ := h s
  exact ⟨t, ht, hval.trans hc⟩

theorem programWrites_add (rd rs1 rs2 : RegIdx) (ign : BitVec 15) :
    ProgramWrites (.add rd rs1 rs2 ign) rd fun s => readReg s rs1 + readReg s rs2 :=
  .of_exec fun _ => rfl

theorem programWrites_sub (rd rs1 rs2 : RegIdx) (ign : BitVec 15) :
    ProgramWrites (.sub rd rs1 rs2 ign) rd fun s => readReg s rs1 - readReg s rs2 :=
  .of_exec fun _ => rfl

theorem programWrites_addi (rd rs1 : RegIdx) (imm : BitVec 19) :
    ProgramWrites (.addi rd rs1 imm) rd fun s => readReg s rs1 + imm.signExtend 32 :=
  .of_exec fun _ => rfl

theorem programWrites_ldi (rd : RegIdx) (imm : BitVec 23) :
    ProgramWrites (.ldi rd imm) rd fun _ => imm.signExtend 32 :=
  .of_exec fun _ => rfl

/-! ### The stages (R153 to R168) -/

section
variable {i : Instr}

theorem silentInFetch (hi : i ≠ .halt) : SilentInFetch i := fun _ => exec_fetch hi rfl

theorem decodesAs_fieldsOf (hi : i ≠ .halt) : DecodesAs i (fieldsOf i) := fun _ _ =>
  (exec_decode hi rfl).trans (congrArg _ (issueDecode_inFlight rfl _))

/-- An instruction whose row of R160 is the result `g` computes `g`. -/
theorem computes_of_executeByKind (hi : i ≠ .halt) {g : Decoded → Word}
    (hx : executeByKind (fieldsOf i).kind = executeResult g) : Computes i g := fun s r => by
  rw [exec_execute hi rfl, hx, executeResult_inFlight rfl, leaveExecute_eq]
  rfl

/-- An instruction whose type is not MEMORY passes the Memory stage. -/
theorem passesMemory_of_memoryByKind (hi : i ≠ .halt) (hm : memoryByKind (fieldsOf i).kind = passMemory) :
    PassesMemory i := fun s r => by
  rw [exec_memory hi rfl, hm, passMemory_inFlight rfl]

theorem commits (hi : i ≠ .halt) : Commits i := fun _ _ =>
  (exec_writeback hi rfl).trans (congrArg _ (commit_inFlight rfl))

/-- The rows of R160 and R157 for an instruction's kind fix its way through all five stages. -/
theorem aluStages_of_byKind (hi : i ≠ .halt) {g : Decoded → Word}
    (hx : executeByKind (fieldsOf i).kind = executeResult g) (hm : memoryByKind (fieldsOf i).kind = passMemory) :
    AluStages i (fieldsOf i) g :=
  ⟨silentInFetch hi, decodesAs_fieldsOf hi, computes_of_executeByKind hi hx, passesMemory_of_memoryByKind hi hm,
    commits hi⟩

end

/-! ### ADD, SUB, ADDI, LDI -/

/-- Settles O9: the word is a Class A word of opcode 1, and `2 1 1` with 42 in R1 is the worked example. -/
theorem addRule : Obligations.AddRule := by
  refine ⟨fun rd rs1 rs2 ign => ⟨decodeWord_classA_add rd rs1 rs2 ign, programWrites_add rd rs1 rs2 ign,
    aluStages_of_byKind (by simp) rfl rfl⟩, by decide, by decide, fun s => ?_⟩
  have hword : decodeWord 0x09088000 = .add 2 1 1 0 := by decide
  rw [hword]
  exact (programWrites_add 2 1 1 0).readReg_eq (s := writeReg s 1 42) (by simp)

/-- Settles O10: as O9 with opcode 2; the worked example subtracts 7 in R2 from 5 in R1. -/
theorem subRule : Obligations.SubRule := by
  refine ⟨fun rd rs1 rs2 ign => ⟨decodeWord_classA_sub rd rs1 rs2 ign, programWrites_sub rd rs1 rs2 ign,
    aluStages_of_byKind (by simp) rfl rfl⟩, by decide, by decide, fun s => ?_⟩
  have hword : decodeWord 0x12090000 = .sub 4 1 2 0 := by decide
  rw [hword]
  exact (programWrites_sub 4 1 2 0).readReg_eq (s := writeReg (writeReg s 1 5) 2 7) (by simp)

/-- Settles O11: a Class B word of opcode 3; the worked example adds -1 to -2. -/
theorem addiRule : Obligations.AddiRule := by
  refine ⟨fun rd rs1 imm => ⟨decodeWord_classB_addi rd rs1 imm, programWrites_addi rd rs1 imm,
    aluStages_of_byKind (by simp) rfl rfl⟩, fun s => ?_⟩
  have hword : decodeWord 0x1AA7FFFF = .addi 5 4 (-1) := by decide
  rw [hword]
  exact (programWrites_addi 5 4 (-1)).readReg_eq (s := writeReg s 4 0xFFFFFFFE) (by simp)

/-- Settles O12: a Class D word of opcode 4, which reads no register; the extreme immediates are read off its effect. -/
theorem ldiRule : Obligations.LdiRule :=
  ⟨fun rd imm => ⟨decodeWord_classD_ldi rd imm, programWrites_ldi rd imm, aluStages_of_byKind (by simp) rfl rfl⟩,
    by decide, by decide, fun _ =>
    ⟨(programWrites_ldi 1 0x7FFFFF).readReg_eq (by decide), (programWrites_ldi 1 0x3FFFFF).readReg_eq (by decide),
      (programWrites_ldi 1 0x400000).readReg_eq (by decide)⟩⟩

/-! ### NOP (R101, R124) -/

theorem rowOfOpcode_unassigned (w : Word) {op : Nat} (h : op = 0 ∨ 9 ≤ op) : rowOfOpcode w op = nopFields := by
  match op with
  | 1 | 2 | 3 | 4 | 5 | 6 | 7 | 8 => omega
  | 0 | _ + 9 => rfl

/-- The instructions of kind NOP are the 24 of the opcode table. -/
theorem mem_nops_of_kind_nop {i : Instr} (hi : i ≠ .halt) (hk : (fieldsOf i).kind = .nop) :
    ∃ ign : BitVec 27, i ∈ nops ign := by
  cases i
  case halt => exact absurd rfl hi
  case add | sub | addi | ldi | load | str | bc | j => exact Kind.noConfusion hk
  all_goals
    rename_i ign
    exact ⟨ign, by simp [nops]⟩

theorem decodeWord_mem_nops {w : Word} (hw : w ≠ 0) (hop : opNumber w = 0 ∨ 9 ≤ opNumber w) :
    ∃ ign : BitVec 27, decodeWord w ∈ nops ign := by
  rw [decodeWord_of_ne hw]
  refine mem_nops_of_kind_nop (decodeOp_ne_halt w) ?_
  rw [fieldsOf_decodeOp, rowOfOpcode_unassigned w hop]
  rfl

section
variable {ign : BitVec 27} {i : Instr}

theorem ne_halt_of_mem_nops (h : i ∈ nops ign) : i ≠ .halt := by
  rintro rfl
  simp [nops] at h

/-- The 24 rows have one row of R103. -/
theorem fieldsOf_of_mem_nops (h : i ∈ nops ign) : fieldsOf i = nopFields := by
  have hall : (nops ign).map fieldsOf = List.replicate 24 nopFields := rfl
  exact List.eq_of_mem_replicate (hall ▸ List.mem_map_of_mem h)

/-- The 24 rows have one meaning. -/
theorem exec_of_mem_nops (h : i ∈ nops ign) (s : State) : exec i s = .next (performNop s) := by
  have hall : (nops ign).map (exec · s) = List.replicate 24 (.next (performNop s)) := rfl
  exact List.eq_of_mem_replicate (hall ▸ List.mem_map_of_mem (f := (exec · s)) h)

theorem aluStages_of_mem_nops (h : i ∈ nops ign) : AluStages i nopFields fun _ => 0 := by
  have hf := fieldsOf_of_mem_nops h
  rw [← hf]
  exact aluStages_of_byKind (ne_halt_of_mem_nops h) (by rw [hf]; rfl) (by rw [hf]; rfl)

end

/-- Settles O13: the 24 rows share NOP's row of R103 and its meaning, and are the instructions of kind NOP. -/
theorem nopRule : Obligations.NopRule :=
  ⟨fun _ hw hop => decodeWord_mem_nops hw hop,
    fun _ _ hi => ⟨fun _ => exec_of_mem_nops hi _, aluStages_of_mem_nops hi⟩,
    by decide, by decide, by decide, by decide⟩

end Sys2Proof.Machine
end

section
/-! LOAD and STR (41_memory_ops.md): their words, the law of the architectural memory view after a write, their effect in
program order in and out of range, and the one request each makes in Memory. -/

namespace Sys2Proof.Machine

open Sys2Proof.Claims

/-! ### The words (R92, R100, R110) -/

theorem decodeWord_classA_load (rd rs1 ign : RegIdx) (imm : BitVec 15) :
    decodeWord (classA 5 rd rs1 ign imm) = .load rd rs1 ign imm := by
  rw [decodeWord_of_opcodeOf_ne_zero (by simp [opcodeOf_classA])]
  simp [decodeOp, opcodeOf_classA, f1Of_classA, f2Of_classA, f3Of_classA, imm15Of_classA]

theorem decodeWord_classA_str (rsd rs1 ign : RegIdx) (imm : BitVec 15) :
    decodeWord (classA 6 rsd rs1 ign imm) = .str rsd rs1 ign imm := by
  rw [decodeWord_of_opcodeOf_ne_zero (by simp [opcodeOf_classA])]
  simp [decodeOp, opcodeOf_classA, f1Of_classA, f2Of_classA, f3Of_classA, imm15Of_classA]

/-! ### The architectural memory view after a write (R9, R80) -/

/-- An address is determined by its tag, its line index and its offset (R62). -/
theorem eq_of_decomposition {c : Config} {a b : Nat} (htag : tagOf c b = tagOf c a)
    (hline : lineIndex c b = lineIndex c a) (hoff : offsetOf c b = offsetOf c a) : b = a :=
  calc b = blockBase c (tagOf c b) (lineIndex c b) + offsetOf c b := by rw [blockBase_of_address, baseOf_add_offsetOf]
    _ = blockBase c (tagOf c a) (lineIndex c a) + offsetOf c a := by rw [htag, hline, hoff]
    _ = a := by rw [blockBase_of_address, baseOf_add_offsetOf]

/-- Two addresses that hit in one line have the tag of that line. -/
theorem tagOf_eq_of_hits {s : State} {a b : Nat} (ha : hitAt s a = true) (hb : hitAt s b = true)
    (hline : lineIndex s.cfg b = lineIndex s.cfg a) : tagOf s.cfg b = tagOf s.cfg a := by
  simp only [hitAt, Bool.and_eq_true, beq_iff_eq] at ha hb
  rw [← hb.2, ← ha.2, hline]

/-- A write to a cached word leaves valid bits and tags, so the same addresses hit. -/
theorem hitAt_writeCachedWord {s : State} {a : Nat} (hk : lineIndex s.cfg a < s.lines.length) (v : Word) (b : Nat) :
    hitAt (writeCachedWord s a v) b = hitAt s b := by
  simp only [hitAt, writeCachedWord_cfg, lineAt_writeCachedWord hk]
  split <;> rfl

/-- Among the addresses that hit, a write to a cached word changes the word written alone. -/
theorem cachedWord_writeCachedWord {s : State} (hm : MemoryOk s) {a b : Nat} (ha : hitAt s a = true)
    (hb : hitAt s b = true) (v : Word) :
    cachedWord (writeCachedWord s a v) b = if b = a then v else cachedWord s b := by
  have hk := lineIndex_lt_lines hm a
  have hoff : offsetOf s.cfg a < (lineAt s (lineIndex s.cfg a)).data.length :=
    lineAt_data_length hm hk ▸ offsetOf_lt hm.legal a
  simp only [cachedWord, writeCachedWord_cfg, lineAt_writeCachedWord hk]
  by_cases hline : lineIndex s.cfg b = lineIndex s.cfg a
  · by_cases hba : b = a
    · simp [hba, List.getD, hoff]
    · have hne : offsetOf s.cfg a ≠ offsetOf s.cfg b := fun h =>
        hba (eq_of_decomposition (tagOf_eq_of_hits ha hb hline) hline h.symm)
      simp [hline, hba, List.getD, List.getElem?_set_ne hne]
  · have hba : b ≠ a := fun h => hline (h ▸ rfl)
    simp [hline, hba]

theorem memWrite_cached {s : State} {a : Nat} (h : (s.cacheEnabled && hitAt s a) = true) (v : Word) :
    memWrite s a v = writeCachedWord s a v := if_pos h

theorem memWrite_uncached {s : State} {a : Nat} (h : (s.cacheEnabled && hitAt s a) = false) (v : Word) :
    memWrite s a v = { s with ram := s.ram.write a v } := if_neg (Bool.eq_false_iff.1 h)

/-- The architectural write moves RAM and the lines alone. -/
theorem memWrite_eq (s : State) (a : Nat) (v : Word) :
    memWrite s a v = { s with ram := (memWrite s a v).ram, lines := (memWrite s a v).lines } := by
  cases h : s.cacheEnabled && hitAt s a
  case false => rw [memWrite_uncached h]
  case true => rw [memWrite_cached h]; rfl

/-- The architectural write replaces exactly the word at its address, wherever that word is held (R9, R80). -/
theorem amem_memWrite {s : State} (hm : MemoryOk s) (a : Nat) (v : Word) (b : Nat) :
    amem (memWrite s a v) b = if b = a then v else amem s b := by
  cases ha : s.cacheEnabled && hitAt s a
  case false =>
    rw [memWrite_uncached ha]
    have hhit : hitAt { s with ram := s.ram.write a v } b = hitAt s b := rfl
    have hword : cachedWord { s with ram := s.ram.write a v } b = cachedWord s b := rfl
    simp only [amem, hhit, hword, Memory.read_write hm.ram.canonical]
    by_cases hba : b = a
    · simp [hba, ha]
    · simp [hba]
  case true =>
    obtain ⟨hen, hhit⟩ := Bool.and_eq_true_iff.1 ha
    rw [memWrite_cached ha]
    simp only [amem, writeCachedWord_cacheEnabled, writeCachedWord_ram,
      hitAt_writeCachedWord (lineIndex_lt_lines hm a), hen, Bool.true_and]
    by_cases hb : hitAt s b = true
    · simp only [hb, if_true, cachedWord_writeCachedWord hm hhit hb]
    · have hba : b ≠ a := fun h => hb (h ▸ hhit)
      simp [hb, hba]

theorem amem_disabled {s : State} (h : s.cacheEnabled = false) (a : Nat) : amem s a = s.ram.read a := by
  simp [amem, h]

theorem memoryOk_inPhase {s : State} (hm : MemoryOk s) (p : Phase) : MemoryOk (inPhase s p) := by
  obtain ⟨legal, ⟨canonical, inside⟩, ⟨count, width, block, clean, disabled⟩⟩ := hm
  exact ⟨legal, ⟨canonical, inside⟩, ⟨count, width, block, clean, disabled⟩⟩

/-! ### The effect in program order (R10, level 1) -/

theorem inRange_iff {s : State} {a : Word} : inRange s a = true ↔ a.toNat < s.cfg.ramWords := decide_eq_true_iff

/-- The meaning of LOAD in program order (R130, R132). -/
theorem exec_load_program (s : State) (rd rs1 ign : RegIdx) (imm : BitVec 15) :
    exec (.load rd rs1 ign imm) (inPhase s .program) =
      .next (retire (if inRange s (effectiveAddr (readReg s rs1) imm) then
        writeReg (inPhase s .program) rd (amem s (effectiveAddr (readReg s rs1) imm).toNat)
        else inPhase s .program)) := rfl

/-- The meaning of STR in program order (R131, R132). -/
theorem exec_str_program (s : State) (rsd rs1 ign : RegIdx) (imm : BitVec 15) :
    exec (.str rsd rs1 ign imm) (inPhase s .program) =
      .next (retire (if inRange s (effectiveAddr (readReg s rs1) imm) then
        memWrite (inPhase s .program) (effectiveAddr (readReg s rs1) imm).toNat (readReg s rsd)
        else inPhase s .program)) := rfl

section
variable {s : State} {rs1 : RegIdx} {imm : BitVec 15}

theorem exec_load_inside (h : (effectiveAddr (readReg s rs1) imm).toNat < s.cfg.ramWords) (rd ign : RegIdx) :
    exec (.load rd rs1 ign imm) (inPhase s .program) =
      .next (retire (writeReg (inPhase s .program) rd (amem s (effectiveAddr (readReg s rs1) imm).toNat))) := by
  rw [exec_load_program, if_pos (inRange_iff.2 h)]

theorem exec_load_outside (h : ¬ (effectiveAddr (readReg s rs1) imm).toNat < s.cfg.ramWords) (rd ign : RegIdx) :
    exec (.load rd rs1 ign imm) (inPhase s .program) = .next (passed (inPhase s .program)) := by
  rw [exec_load_program, if_neg (mt inRange_iff.1 h)]
  rfl

theorem exec_str_inside (h : (effectiveAddr (readReg s rs1) imm).toNat < s.cfg.ramWords) (rsd ign : RegIdx) :
    exec (.str rsd rs1 ign imm) (inPhase s .program) =
      .next (retire (memWrite (inPhase s .program) (effectiveAddr (readReg s rs1) imm).toNat (readReg s rsd))) := by
  rw [exec_str_program, if_pos (inRange_iff.2 h)]

theorem exec_str_outside (h : ¬ (effectiveAddr (readReg s rs1) imm).toNat < s.cfg.ramWords) (rsd ign : RegIdx) :
    exec (.str rsd rs1 ign imm) (inPhase s .program) = .next (passed (inPhase s .program)) := by
  rw [exec_str_program, if_neg (mt inRange_iff.1 h)]
  rfl

end

/-! ### The request in Memory (R132, R157, R158) -/

/-- Memory's operation for a LOAD: one read request of the Memory stage, or none out of range. -/
theorem loadMemory_inFlight {s : State} {r : Decoded} (h : s.slotM = .inFlight r) :
    loadMemory s =
      if r.result.toNat < s.cfg.ramWords then
        match hRead s r.result.toNat .mem with
        | (v, .done w) => { v with slotM := .empty, slotW := .inFlight { r with writebackVal := w, status := .normal } }
        | (v, .wait) => { v with slotM := .inFlight { r with status := .stalled } }
      else { s with slotM := .empty, slotW := .inFlight { r with hasWriteback := false, status := .normal } } := by
  by_cases hr : r.result.toNat < s.cfg.ramWords
  · rw [if_pos hr]
    have hin := inRange_iff.2 hr
    rcases ha : hRead s r.result.toNat .mem with ⟨t, reply⟩
    cases reply with
    | done w => exact loadMemory_done h hin ha
    | wait => exact loadMemory_wait h hin ha
  · rw [if_neg hr]
    exact loadMemory_outside h (Bool.eq_false_iff.2 (mt inRange_iff.1 hr))

/-- Memory's operation for a STR: one write request of the Memory stage, or none out of range. -/
theorem storeMemory_inFlight {s : State} {r : Decoded} (h : s.slotM = .inFlight r) :
    storeMemory s =
      if r.result.toNat < s.cfg.ramWords then
        match hWrite s r.result.toNat r.op3 .mem with
        | (v, .done _) => { v with slotM := .empty, slotW := .inFlight { r with status := .normal } }
        | (v, .wait) => { v with slotM := .inFlight { r with status := .stalled } }
      else { s with slotM := .empty, slotW := .inFlight { r with hasWriteback := false, status := .normal } } := by
  by_cases hr : r.result.toNat < s.cfg.ramWords
  · rw [if_pos hr]
    have hin := inRange_iff.2 hr
    rcases ha : hWrite s r.result.toNat r.op3 .mem with ⟨t, reply⟩
    cases reply with
    | done w => exact storeMemory_done h hin ha
    | wait => exact storeMemory_wait h hin ha
  · rw [if_neg hr]
    exact storeMemory_outside h (Bool.eq_false_iff.2 (mt inRange_iff.1 hr))

/-! ### LOAD and STR -/

/-- Settles O14: in range the register receives `AMem`'s word, out of range nothing happens; in Memory the operation is
`loadMemory`. The worked example reads RAM, as the cache is disabled. -/
theorem loadRule : Obligations.LoadRule := by
  refine ⟨fun rd rs1 ign imm => ⟨decodeWord_classA_load rd rs1 ign imm, fun s => ?_, silentInFetch (by simp),
    decodesAs_fieldsOf (by simp), computes_of_executeByKind (by simp) rfl,
    fun s r => (exec_memory (by simp) rfl).trans (congrArg _
      (loadMemory_inFlight (s := { s with phase := .memory, slotM := .inFlight r }) rfl)), commits (by simp)⟩,
    by decide, fun s hoff hin hword => ?_⟩
  · by_cases h : (effectiveAddr (readReg s rs1) imm).toNat < s.cfg.ramWords
    · exact ⟨_, exec_load_inside h rd ign, (if_pos h).mpr (writesOnly_retire_writeReg _ rd _)⟩
    · exact ⟨_, exec_load_outside h rd ign, (if_neg h).mpr rfl⟩
  · have haddr : (effectiveAddr (readReg (writeReg s 0 100) 0) 0).toNat = 100 := by
      rw [readReg_writeReg, if_pos rfl]
      decide
    refine ⟨_, exec_load_inside (haddr ▸ hin) 1 0, ?_⟩
    obtain ⟨hread, -, -⟩ :=
      writesOnly_retire_writeReg (inPhase (writeReg s 0 100) .program) 1 (amem (writeReg s 0 100) 100)
    rw [haddr, hread, amem_disabled (s := writeReg s 0 100) hoff]
    exact hword

/-- Settles O15: in range the effect is that of `memWrite`, out of range nothing happens; in Memory the operation is
`storeMemory`. -/
theorem strRule : Obligations.StrRule := by
  refine ⟨fun rsd rs1 ign imm => ⟨decodeWord_classA_str rsd rs1 ign imm, fun s hm => ?_, silentInFetch (by simp),
    decodesAs_fieldsOf (by simp), computes_of_executeByKind (by simp) rfl,
    fun s r => (exec_memory (by simp) rfl).trans (congrArg _
      (storeMemory_inFlight (s := { s with phase := .memory, slotM := .inFlight r }) rfl)), commits (by simp)⟩,
    by decide⟩
  by_cases h : (effectiveAddr (readReg s rs1) imm).toNat < s.cfg.ramWords
  · refine ⟨_, exec_str_inside h rsd ign, fun a => ?_, ?_, fun hout => absurd h (Nat.not_lt.2 hout)⟩
    · refine (amem_memWrite (memoryOk_inPhase hm .program) _ _ a).trans ?_
      exact if_congr (iff_and_self.2 fun _ => h) rfl rfl
    · exact congrArg retire (memWrite_eq _ _ _)
  · refine ⟨_, exec_str_outside h rsd ign, fun a => ?_, rfl, fun _ => rfl⟩
    exact (if_neg fun hcase => h hcase.1).symm

end Sys2Proof.Machine
end

section
/-! One step as a composition of updates (50_pipeline.md R150, R152): what each part does, case by case, and what it
leaves unchanged. -/

namespace Sys2Proof.Machine

/-! ### The parts as updates -/

/-- Part 1 as an update. -/
def writebackUpdate (s : State) : State :=
  match s.slotW with
  | .empty => s
  | .haltMarker => commitMarker s
  | .inFlight _ => commit s

/-- Part 2 as an update. -/
def memoryUpdate (s : State) : State :=
  match s.slotM with
  | .empty => s
  | .haltMarker => moveMarkerFromMemory s
  | .inFlight r => memoryByKind (kindOf r.raw) s

/-- Part 3 as an update. -/
def executeUpdate (s : State) : State :=
  match s.slotX with
  | .empty => s
  | .haltMarker => moveMarkerFromExecute s
  | .inFlight r => executeByKind (kindOf r.raw) s

/-- Part 4 as an update. -/
def decodeUpdate (s : State) : State :=
  match s.slotD with
  | .empty => s
  | .haltMarker => moveMarkerFromDecode s
  | .inFlight q => issueDecode (fieldsOf (decodeOp q.raw)) s

theorem writebackPart_eq_update (s : State) : writebackPart s = .next (writebackUpdate s) := writebackPart_eq s

theorem memoryPart_eq_update (s : State) : memoryPart s = .next (memoryUpdate s) := memoryPart_eq s

theorem executePart_eq_update (s : State) : executePart s = .next (executeUpdate s) := executePart_eq s

theorem decodePart_eq_update (s : State) : decodePart s = .next (decodeUpdate s) := decodePart_eq s

/-- The state in which part 3 of a step finds the machine. -/
def beforeExecute (s : State) : State := memoryUpdate (writebackUpdate { s with cycles := s.cycles + 1 })

/-- The state a step of a running machine leaves. -/
def stepUpdate (s : State) : State := injectPart (fetchUpdate (decodeUpdate (executeUpdate (beforeExecute s))))

theorem step_running {s : State} (hl : s.cfg.legal = true) (hr : s.stopped = false) :
    step s = .next (stepUpdate s) := by
  obtain ⟨s1, s2, s3, s4, h1, h2, h3, h4, hstep⟩ := step_parts hl hr
  cases (writebackPart_eq_update _).symm.trans h1
  cases (memoryPart_eq_update _).symm.trans h2
  cases (executePart_eq_update _).symm.trans h3
  cases (decodePart_eq_update _).symm.trans h4
  exact hstep

theorem step_stopped {s : State} (hl : s.cfg.legal = true) (hr : s.stopped = true) : step s = .next s := by
  rw [step, cycle, if_pos hl, if_pos hr]

/-! ### A part with an empty slot does nothing -/

section
variable {s : State}

theorem writebackUpdate_of_empty (h : s.slotW = .empty) : writebackUpdate s = s := by rw [writebackUpdate, h]

theorem memoryUpdate_of_empty (h : s.slotM = .empty) : memoryUpdate s = s := by rw [memoryUpdate, h]

theorem executeUpdate_of_empty (h : s.slotX = .empty) : executeUpdate s = s := by rw [executeUpdate, h]

theorem decodeUpdate_of_empty (h : s.slotD = .empty) : decodeUpdate s = s := by rw [decodeUpdate, h]

/-- With nothing in flight behind Fetch the first four parts do nothing. -/
theorem partsBeforeFetch_idle (hD : s.slotD = .empty) (hX : s.slotX = .empty) (hM : s.slotM = .empty)
    (hW : s.slotW = .empty) : decodeUpdate (executeUpdate (memoryUpdate (writebackUpdate s))) = s := by
  rw [writebackUpdate_of_empty hW, memoryUpdate_of_empty hM, executeUpdate_of_empty hX, decodeUpdate_of_empty hD]

theorem fetchUpdate_of_none (h : s.slotF = none) : fetchUpdate s = s := by rw [fetchUpdate, h]

end

/-! ### What Memory can do with an instruction (R157, R158) -/

theorem hRead_same {s t : State} {a : Nat} {stage : Requester} {reply : Reply} (h : hRead s a stage = (t, reply)) :
    SameButHierarchy s t := by
  have hsame : SameButHierarchy s (hRead s a stage).1 := access_same s _ stage
  rw [h] at hsame
  exact hsame

theorem hWrite_same {s t : State} {a : Nat} {v : Word} {stage : Requester} {reply : Reply}
    (h : hWrite s a v stage = (t, reply)) : SameButHierarchy s t := by
  have hsame : SameButHierarchy s (hWrite s a v stage).1 := access_same s _ stage
  rw [h] at hsame
  exact hsame

theorem hRead_disabled {s : State} (h : s.cacheEnabled = false) (a : Nat) (stage : Requester) :
    hRead s a stage = (s, .done (s.ram.read a)) := access_disabled h _ stage

/-- What part 2 can leave of the instruction `r` in M: after a call of the hierarchy, or none, `r` is in W or stalls in
M, with the same address and word. -/
inductive MemoryOutcome (s : State) (r : Decoded) : State → Prop
  | moved (u : State) (r' : Decoded) (hsame : SameButHierarchy s u) (haddr : r'.addr = r.addr) (hraw : r'.raw = r.raw) :
      MemoryOutcome s r { u with slotW := .inFlight r', slotM := .empty }
  | stalled (u : State) (r' : Decoded) (hsame : SameButHierarchy s u) (haddr : r'.addr = r.addr)
      (hraw : r'.raw = r.raw) : MemoryOutcome s r { u with slotM := .inFlight r' }

section
variable {s : State} {r : Decoded}

theorem passMemory_outcome (h : s.slotM = .inFlight r) : MemoryOutcome s r (passMemory s) := by
  rw [passMemory_inFlight h]
  exact .moved s _ (.refl s) rfl rfl

theorem loadMemory_outcome (h : s.slotM = .inFlight r) : MemoryOutcome s r (loadMemory s) := by
  cases hin : inRange s r.result with
  | false =>
    rw [loadMemory_outside h hin]
    exact .moved s _ (.refl s) rfl rfl
  | true =>
    rcases ha : hRead s r.result.toNat .mem with ⟨u, reply⟩
    have hsame := hRead_same ha
    cases reply with
    | done w =>
      rw [loadMemory_done h hin ha]
      exact .moved u _ hsame rfl rfl
    | wait =>
      rw [loadMemory_wait h hin ha]
      exact .stalled u _ hsame rfl rfl

theorem storeMemory_outcome (h : s.slotM = .inFlight r) : MemoryOutcome s r (storeMemory s) := by
  cases hin : inRange s r.result with
  | false =>
    rw [storeMemory_outside h hin]
    exact .moved s _ (.refl s) rfl rfl
  | true =>
    rcases ha : hWrite s r.result.toNat r.op3 .mem with ⟨u, reply⟩
    have hsame := hWrite_same ha
    cases reply with
    | done w =>
      rw [storeMemory_done h hin ha]
      exact .moved u _ hsame rfl rfl
    | wait =>
      rw [storeMemory_wait h hin ha]
      exact .stalled u _ hsame rfl rfl

theorem memoryUpdate_outcome (h : s.slotM = .inFlight r) : MemoryOutcome s r (memoryUpdate s) := by
  have hupdate : memoryUpdate s = memoryByKind (kindOf r.raw) s := by rw [memoryUpdate, h]
  rw [hupdate]
  cases kindOf r.raw with
  | load => exact loadMemory_outcome h
  | str => exact storeMemory_outcome h
  | add | sub | addi | ldi | bc | j | nop => exact passMemory_outcome h

end

/-! ### What Execute can do with an instruction (R160 to R163) -/

theorem executeUpdate_of_taken {s : State} {target : Word} (h : takenInX s = some target) :
    executeUpdate s = takeControl target s := by
  cases hX : s.slotX with
  | empty | haltMarker => simp [takenInX, hX] at h
  | inFlight r =>
    have hupdate : executeUpdate s = executeByKind (kindOf r.raw) s := by rw [executeUpdate, hX]
    simp only [takenInX, hX] at h
    rw [hupdate]
    cases hk : kindOf r.raw with
    | j =>
      simp only [hk, Option.some.injEq] at h
      exact h ▸ executeControl_taken hX rfl
    | bc =>
      simp only [hk, Option.ite_none_right_eq_some, Option.some.injEq] at h
      obtain ⟨hcond, rfl⟩ := h
      exact executeControl_taken hX hcond
    | add | sub | addi | ldi | load | str | nop => simp [hk] at h

/-- An instruction that is not taken leaves Execute with a result; it is no J, as a J is always taken (R142). -/
theorem executeUpdate_of_not_taken {s : State} {r : Decoded} (hX : s.slotX = .inFlight r) (h : takenInX s = none) :
    kindOf r.raw ≠ .j ∧ ∃ v, executeUpdate s = leaveExecute { r with result := v } s := by
  have hupdate : executeUpdate s = executeByKind (kindOf r.raw) s := by rw [executeUpdate, hX]
  simp only [takenInX, hX] at h
  rw [hupdate]
  cases hk : kindOf r.raw with
  | j => simp [hk] at h
  | bc =>
    simp only [hk, ite_eq_right_iff, reduceCtorEq, imp_false, Bool.not_eq_true] at h
    exact ⟨by simp, _, executeControl_passes hX h⟩
  | add | sub | addi | ldi | load | str | nop => exact ⟨by simp, _, executeResult_inFlight hX _⟩

/-! ### What each part leaves unchanged -/

theorem writebackUpdate_frame (s : State) : writebackUpdate s =
    { s with x := (writebackUpdate s).x, instrs := (writebackUpdate s).instrs,
             stopped := (writebackUpdate s).stopped, slotW := (writebackUpdate s).slotW } := by
  cases h : s.slotW with
  | empty => rw [writebackUpdate_of_empty h]
  | haltMarker => simp only [writebackUpdate, commitMarker, h]
  | inFlight r => simp only [writebackUpdate, h, commit_inFlight h]

@[simp] theorem writebackUpdate_slotW (s : State) : (writebackUpdate s).slotW = .empty := by
  cases h : s.slotW with
  | empty => rw [writebackUpdate_of_empty h, h]
  | haltMarker => simp only [writebackUpdate, commitMarker, h]
  | inFlight r => simp only [writebackUpdate, h, commit_inFlight h]

theorem memoryUpdate_frame (s : State) :
    SameButHierarchy { s with slotM := (memoryUpdate s).slotM, slotW := (memoryUpdate s).slotW } (memoryUpdate s) := by
  cases h : s.slotM with
  | empty => rw [memoryUpdate_of_empty h]; exact .refl s
  | haltMarker => simp only [memoryUpdate, h, moveMarkerFromMemory, SameButHierarchy]
  | inFlight r =>
    have houtcome := memoryUpdate_outcome h
    generalize memoryUpdate s = t at houtcome
    cases houtcome with
    | moved u r' hsame => rw [hsame]; rfl
    | stalled u r' hsame => rw [hsame]; rfl

/-- Execute leaves W alone. -/
theorem executeUpdate_slotW (s : State) : (executeUpdate s).slotW = s.slotW := by
  cases hX : s.slotX with
  | empty => rw [executeUpdate_of_empty hX]
  | haltMarker =>
    simp only [executeUpdate, moveMarkerFromExecute, hX]
    split <;> rfl
  | inFlight r =>
    cases htaken : takenInX s with
    | some target => rw [executeUpdate_of_taken htaken, takeControl_eq]
    | none =>
      obtain ⟨-, v, hupdate⟩ := executeUpdate_of_not_taken hX htaken
      rw [hupdate, leaveExecute_eq]
      split <;> rfl

theorem moveMarkerFromDecode_frame (s : State) : moveMarkerFromDecode s =
    { s with slotD := (moveMarkerFromDecode s).slotD, slotX := (moveMarkerFromDecode s).slotX } := by
  unfold moveMarkerFromDecode
  split <;> rfl

theorem issueDecode_frame (f : Fields) (s : State) : issueDecode f s =
    { s with slotD := (issueDecode f s).slotD, slotX := (issueDecode f s).slotX } := by
  unfold issueDecode
  split
  · split
    · rfl
    · split <;> rfl
  · rfl
  · rfl

theorem decodeUpdate_frame (s : State) : decodeUpdate s =
    { s with slotD := (decodeUpdate s).slotD, slotX := (decodeUpdate s).slotX } := by
  unfold decodeUpdate
  split
  · rfl
  · exact moveMarkerFromDecode_frame s
  · exact issueDecode_frame _ s

theorem advanceFetch_frame (s : State) : advanceFetch s =
    { s with slotF := (advanceFetch s).slotF, slotD := (advanceFetch s).slotD, pc := (advanceFetch s).pc } := by
  unfold advanceFetch
  split
  · rfl
  · split
    · rfl
    · split <;> rfl
    · split <;> rfl

/-- `t` is `s` but for what Fetch and the hierarchy own. -/
def SameButFetch (s t : State) : Prop :=
  SameButHierarchy { s with slotF := t.slotF, slotD := t.slotD, pc := t.pc, fetchStopped := t.fetchStopped } t

theorem advanceFetch_same {s u : State} (h : SameButFetch s u) : SameButFetch s (advanceFetch u) := by
  unfold SameButFetch SameButHierarchy at *
  rw [advanceFetch_frame, h]

theorem fetchUpdate_same (s : State) : SameButFetch s (fetchUpdate s) := by
  unfold fetchUpdate
  split
  · rfl
  · next f hF =>
    split
    · split
      · rcases ha : hRead s f.addr.toNat .fetch with ⟨u, reply⟩
        have hsame := hRead_same ha
        have hlatch (f' : FetchEntry) (b : Bool) : SameButFetch s { u with slotF := some f', fetchStopped := b } := by
          rw [hsame]
          rfl
        cases reply with
        | wait => exact hlatch _ u.fetchStopped
        | done w =>
          dsimp only
          split
          · exact advanceFetch_same (hlatch _ true)
          · exact advanceFetch_same (hlatch _ u.fetchStopped)
      · exact advanceFetch_same rfl
    · exact advanceFetch_same rfl
    · exact advanceFetch_same rfl

/-- A read that answers the sentinel latches `Halt` and stops fetching (R169). -/
theorem fetchUpdate_of_sentinel {s u : State} {f : FetchEntry} (hF : s.slotF = some f) (hL : f.latched = .outstanding)
    (hin : inRange s f.addr = true) (ha : hRead s f.addr.toNat .fetch = (u, .done haltWord)) :
    fetchUpdate s = advanceFetch { u with slotF := some { f with latched := .halt }, fetchStopped := true } := by
  simp only [fetchUpdate, hF, hL, hin, ha, if_true]

/-- While fetching is stopped nothing is injected (R172). -/
theorem injectPart_of_fetchStopped {s : State} (h : s.fetchStopped = true) : injectPart s = s := by
  simp [injectPart, h]

theorem injectPart_frame (s : State) : injectPart s = { s with slotF := (injectPart s).slotF } := by
  unfold injectPart
  split <;> rfl

/-- The parts before Execute leave X alone. -/
theorem beforeExecute_slotX (s : State) : (beforeExecute s).slotX = s.slotX := by
  have hwriteback := writebackUpdate_frame { s with cycles := s.cycles + 1 }
  have hmemory := memoryUpdate_frame (writebackUpdate { s with cycles := s.cycles + 1 })
  rw [beforeExecute, hmemory, hwriteback]

/-- The parts after Execute leave M alone. -/
theorem stepUpdate_slotM (s : State) : (stepUpdate s).slotM = (executeUpdate (beforeExecute s)).slotM := by
  rw [stepUpdate, injectPart_frame, fetchUpdate_same, decodeUpdate_frame]

/-- The parts after Memory leave W alone. -/
theorem stepUpdate_slotW (s : State) : (stepUpdate s).slotW = (beforeExecute s).slotW := by
  rw [stepUpdate, injectPart_frame, fetchUpdate_same, decodeUpdate_frame]
  exact executeUpdate_slotW (beforeExecute s)

end Sys2Proof.Machine
end

section
/-! BC, J and HALT (42_control.md): their words, their effect in program order, Execute's two ways out for a control
instruction, and the way of the halt marker through an empty pipeline. -/

namespace Sys2Proof.Machine

open Sys2Proof.Claims

/-! ### The words (R92, R100, R110) -/

theorem decodeWord_classC_bc (cc : Cond) (ra rb : RegIdx) (disp : BitVec 17) :
    decodeWord (classC 7 ra rb cc.toBits disp) = .bc cc ra rb disp := by
  rw [decodeWord_of_opcodeOf_ne_zero (by simp [opcodeOf_classC])]
  simp [decodeOp, opcodeOf_classC, f1Of_classC, f2Of_classC, cndOf_classC, imm17Of_classC, Cond.ofBits_toBits]

theorem decodeWord_classD_j (ign : RegIdx) (disp : BitVec 23) : decodeWord (classD 8 ign disp) = .j ign disp := by
  rw [decodeWord_of_opcodeOf_ne_zero (by simp [opcodeOf_classD])]
  simp [decodeOp, opcodeOf_classD, f1Of_classD, imm23Of_classD]

/-! ### The comparison (R98, R141) -/

/-- Of equal registers `EQ` and `GE` hold and `LT` and `NE` do not. -/
theorem comparison_self (p : Int) : comparison 0 p p = true ∧ comparison 2 p p = true ∧ comparison 1 p p = false ∧
    comparison 3 p p = false := by
  simp [comparison]

/-! ### The effect in program order (R10, level 1) -/

theorem exec_bc_program (s : State) (cc : Cond) (ra rb : RegIdx) (disp : BitVec 17) :
    exec (.bc cc ra rb disp) { s with phase := .program } = .next
      { s with
        phase := .program
        pc := if comparison cc.toBits.toNat (readReg s ra).toInt (readReg s rb).toInt then s.pc + disp.signExtend 32
          else s.pc + 1
        instrs := s.instrs + 1 } := by
  rw [← condHolds_eq_comparison]
  cases htaken : condHolds cc (readReg s ra) (readReg s rb) with
  | true => exact congrArg _ (if_pos htaken)
  | false => exact congrArg _ (if_neg (Bool.eq_false_iff.1 htaken))

/-! ### The stages of a control instruction (R160 to R163) -/

/-- Execute's operation for a control instruction: the squash if it is taken, else the way to Memory. -/
theorem executeControl_inFlight {s : State} {r : Decoded} (h : s.slotX = .inFlight r) (taken : Decoded → Bool) :
    executeControl taken s =
      if taken r then squashedTo s (r.addr + r.imm) else leftExecute s { r with result := r.addr + r.imm } := by
  cases ht : taken r with
  | true => rw [executeControl_taken h ht, takeControl_eq, if_pos rfl]; rfl
  | false => rw [executeControl_passes h ht, leaveExecute_eq, if_neg Bool.false_ne_true]; rfl

/-- A control instruction, whose row of R160 is the condition `taken`, does so in Execute. -/
theorem exec_execute_control {i : Instr} (hi : i ≠ .halt) {taken : Decoded → Bool}
    (hx : executeByKind (fieldsOf i).kind = executeControl taken) {u : State} (hp : u.phase = .execute) {r : Decoded}
    (h : u.slotX = .inFlight r) :
    exec i u = .next
      (if taken r then squashedTo u (r.addr + r.imm) else leftExecute u { r with result := r.addr + r.imm }) := by
  rw [exec_execute hi hp, hx, executeControl_inFlight h]

/-- Settles O16: the meaning's signed comparison is R98's, in program order on the registers and in Execute on the record;
the worked example compares 2 with 0 under NE at address 5. -/
theorem bcRule : Obligations.BcRule := by
  refine ⟨fun cc ra rb disp => ⟨decodeWord_classC_bc cc ra rb disp, fun s => exec_bc_program s cc ra rb disp,
    silentInFetch (by simp), decodesAs_fieldsOf (by simp), fun s r => ?_,
    passesMemory_of_memoryByKind (by simp) rfl, commits (by simp)⟩, by decide, by decide, by decide,
    fun p => comparison_self p.toInt, fun s => ?_⟩
  · obtain ⟨hcond, -⟩ := conditionCodes
    rw [← hcond]
    exact exec_execute_control (i := .bc cc ra rb disp) (by simp) rfl rfl rfl
  · have hword : decodeWord 0x391FFFFE = .bc .ne 2 3 (-2) := by decide
    have htwo : readReg (writeReg (writeReg s 2 2) 3 0) 2 = 2 := by simp
    have hzero : readReg (writeReg (writeReg s 2 2) 3 0) 3 = 0 := by simp
    have htaken : comparison 3 (readReg (writeReg (writeReg s 2 2) 3 0) 2).toInt
        (readReg (writeReg (writeReg s 2 2) 3 0) 3).toInt = true := by
      rw [htwo, hzero]
      decide
    have htarget : (5 : Word) + (-2 : BitVec 17).signExtend 32 = 3 := by decide
    rw [hword]
    exact ⟨_, exec_bc_program { writeReg (writeReg s 2 2) 3 0 with pc := 5 } .ne 2 3 (-2),
      (if_pos htaken).trans htarget⟩

/-! ### J never reaches Memory or Writeback (R142) -/

/-- The slot holds no J. -/
def NoJump (slot : Slot Decoded) : Prop := ∀ r, slot = .inFlight r → kindOf r.raw ≠ .j

theorem noJump_empty : NoJump .empty := nofun

theorem noJump_haltMarker : NoJump .haltMarker := nofun

theorem noJump_inFlight {r : Decoded} (h : kindOf r.raw ≠ .j) : NoJump (.inFlight r) := by
  rintro _ ⟨⟩
  exact h

/-- Memory fills W only from M. -/
theorem noJump_memoryUpdate {s : State} (hM : NoJump s.slotM) (hW : NoJump s.slotW) :
    NoJump (memoryUpdate s).slotM ∧ NoJump (memoryUpdate s).slotW := by
  cases h : s.slotM with
  | empty =>
    rw [memoryUpdate_of_empty h]
    exact ⟨hM, hW⟩
  | haltMarker =>
    simp only [memoryUpdate, moveMarkerFromMemory, h]
    exact ⟨noJump_empty, noJump_haltMarker⟩
  | inFlight r =>
    have hr := hM r h
    have houtcome := memoryUpdate_outcome h
    generalize memoryUpdate s = t at houtcome
    cases houtcome with
    | moved u r' hsame _ hraw => exact ⟨noJump_empty, noJump_inFlight (hraw ▸ hr)⟩
    | stalled u r' hsame _ hraw => exact ⟨noJump_inFlight (hraw ▸ hr), by rw [hsame]; exact hW⟩

/-- Execute hands a J to no one, as it is always taken. -/
theorem noJump_executeUpdate {s : State} (hM : NoJump s.slotM) : NoJump (executeUpdate s).slotM := by
  cases hX : s.slotX with
  | empty =>
    rw [executeUpdate_of_empty hX]
    exact hM
  | haltMarker =>
    simp only [executeUpdate, moveMarkerFromExecute, hX]
    split
    · exact noJump_haltMarker
    · exact hM
  | inFlight r =>
    cases htaken : takenInX s with
    | some target => rw [executeUpdate_of_taken htaken, takeControl_eq]; exact hM
    | none =>
      obtain ⟨hkind, v, hupdate⟩ := executeUpdate_of_not_taken hX htaken
      rw [hupdate, leaveExecute_eq]
      split
      · exact noJump_inFlight hkind
      · exact hM

/-- After a step of a machine with no J in M there is none in M or W. -/
theorem noJump_stepUpdate {s : State} (hM : NoJump s.slotM) :
    NoJump (stepUpdate s).slotM ∧ NoJump (stepUpdate s).slotW := by
  rw [stepUpdate_slotM, stepUpdate_slotW]
  have hwriteback := writebackUpdate_frame { s with cycles := s.cycles + 1 }
  obtain ⟨hM', hW'⟩ := noJump_memoryUpdate (s := writebackUpdate { s with cycles := s.cycles + 1 })
    (by rw [hwriteback]; exact hM) (by rw [writebackUpdate_slotW]; exact noJump_empty)
  exact ⟨noJump_executeUpdate hM', hW'⟩

/-- Settles O17: J's condition is `true`, so that Execute never hands one to Memory; W is filled from M alone. -/
theorem jRule : Obligations.JRule := by
  refine ⟨fun ign disp => ⟨decodeWord_classD_j ign disp, fun _ => rfl, silentInFetch (by simp),
    decodesAs_fieldsOf (by simp), fun s r => ?_⟩, fun s t hinv hstep => ?_, fun s => ?_⟩
  · exact (exec_execute_control (i := .j ign disp) (by simp) rfl rfl rfl).trans (congrArg _ (if_pos rfl))
  · have hM : NoJump s.slotM := fun r hr => hinv.records.noJumpM r (by simp [hr, Slot.record?])
    have hW : NoJump s.slotW := fun r hr => hinv.records.noJumpW r (by simp [hr, Slot.record?])
    cases hr : s.stopped with
    | true =>
      cases (step_stopped hinv.legal hr).symm.trans hstep
      exact ⟨hM, hW⟩
    | false =>
      cases (step_running hinv.legal hr).symm.trans hstep
      exact noJump_stepUpdate hM
  · have hword : decodeWord 0x40000003 = .j 0 3 := by decide
    have htarget : (1 : Word) + (3 : BitVec 23).signExtend 32 = 4 := by decide
    rw [hword]
    exact ⟨_, rfl, htarget⟩

/-! ### HALT (R144) -/

theorem moveMarkerFromDecode_free {s : State} (hD : s.slotD = .haltMarker) (hX : s.slotX = .empty) :
    moveMarkerFromDecode s = { s with slotX := .haltMarker, slotD := .empty } := by
  simp only [moveMarkerFromDecode, hD, hX]

theorem moveMarkerFromDecode_blocked {s : State} (hX : s.slotX ≠ .empty) : moveMarkerFromDecode s = s := by
  unfold moveMarkerFromDecode
  split
  · next _ hfree => exact absurd hfree hX
  · rfl

theorem moveMarkerFromExecute_free {s : State} (hX : s.slotX = .haltMarker) (hM : s.slotM = .empty) :
    moveMarkerFromExecute s = { s with slotM := .haltMarker, slotX := .empty } := by
  simp only [moveMarkerFromExecute, hX, hM]

theorem moveMarkerFromExecute_blocked {s : State} (hM : s.slotM ≠ .empty) : moveMarkerFromExecute s = s := by
  unfold moveMarkerFromExecute
  split
  · next _ hfree => exact absurd hfree hM
  · rfl

/-- A control instruction taken in X: nothing of what was younger is left but the fetch injected anew (R161, R162). -/
theorem stepUpdate_taken {s : State} {target : Word} (h : takenInX s = some target) :
    stepUpdate s = injectPart (takeControl target (beforeExecute s)) := by
  have htaken : takenInX (beforeExecute s) = some target := by rw [← h, takenInX, beforeExecute_slotX, takenInX]
  have hsquash := takeControl_eq target (beforeExecute s)
  rw [stepUpdate, executeUpdate_of_taken htaken, decodeUpdate_of_empty (by rw [hsquash]),
    fetchUpdate_of_none (by rw [hsquash])]

/-- With the cache disabled and D free, a word 0 in RAM at the Fetch slot's address is a marker in D (R169, R171). -/
theorem fetchUpdate_of_ram_sentinel {s : State} {f : FetchEntry} (hdirect : s.cacheEnabled = false)
    (hF : s.slotF = some f) (hL : f.latched = .outstanding) (hin : f.addr.toNat < s.cfg.ramWords)
    (hword : s.ram.read f.addr.toNat = haltWord) (hD : s.slotD = .empty) :
    fetchUpdate s = { s with slotF := none, slotD := .haltMarker, fetchStopped := true } := by
  have hread := hRead_disabled hdirect f.addr.toNat .fetch
  rw [hword] at hread
  rw [fetchUpdate_of_sentinel hF hL (inRange_iff.2 hin) hread, advanceFetch_halt rfl rfl, if_pos hD]

/-- The machine at cycle `n`, empty but for what D, X, M and W are given, fetching stopped: `s` draining a halt. -/
def draining (s : State) (n : Nat) (d : Slot DecodeEntry) (x m w : Slot Decoded) : State :=
  { s with cycles := n, slotF := none, slotD := d, slotX := x, slotM := m, slotW := w, fetchStopped := true }

/-- With nothing older in flight, the step that reads the sentinel sends the marker to D (R169, R171). -/
theorem step_haltArrives {s : State} (h : HaltArrives s) :
    step s = .next (draining s (s.cycles + 1) .haltMarker .empty .empty .empty) := by
  obtain ⟨hlegal, hrunning, hdirect, hfetch, ⟨hin, hword⟩, hD, hX, hM, hW⟩ := h
  have hidle := partsBeforeFetch_idle (s := { s with cycles := s.cycles + 1 }) hD hX hM hW
  have hhalt := fetchUpdate_of_ram_sentinel (s := { s with cycles := s.cycles + 1 }) hdirect hfetch rfl hin hword hD
  rw [step_running hlegal hrunning, stepUpdate, beforeExecute, hidle, hhalt, injectPart_of_fetchStopped rfl, draining,
    hX, hM, hW]

section
variable {s : State} (hl : s.cfg.legal = true) (hr : s.stopped = false)
include hl hr

theorem step_draining (n : Nat) (d : Slot DecodeEntry) (x m w : Slot Decoded) :
    step (draining s n d x m w) = .next (stepUpdate (draining s n d x m w)) :=
  step_running hl hr

/-- The marker moves from D to X (R164). -/
theorem step_draining_decode (n : Nat) : step (draining s n .haltMarker .empty .empty .empty) =
    .next (draining s (n + 1) .empty .haltMarker .empty .empty) :=
  (step_draining hl hr ..).trans rfl

/-- The marker moves from X to M (R164). -/
theorem step_draining_execute (n : Nat) : step (draining s n .empty .haltMarker .empty .empty) =
    .next (draining s (n + 1) .empty .empty .haltMarker .empty) :=
  (step_draining hl hr ..).trans rfl

/-- The marker moves from M to W (R156). -/
theorem step_draining_memory (n : Nat) : step (draining s n .empty .empty .haltMarker .empty) =
    .next (draining s (n + 1) .empty .empty .empty .haltMarker) :=
  (step_draining hl hr ..).trans rfl

/-- Writeback processes the marker and the machine stops (R154). -/
theorem step_draining_writeback (n : Nat) : step (draining s n .empty .empty .empty .haltMarker) =
    .next { draining s (n + 1) .empty .empty .empty .empty with stopped := true } :=
  (step_draining hl hr ..).trans rfl

end

theorem signal_of_running {s : State} (h : s.stopped = false) : signal s = .running := by simp [signal, h]

/-- Settles O18: each clause is one operation of the marker; the squash empties what stands behind a taken control
instruction; and the five steps are the sentinel's arrival and the marker's four moves. -/
theorem haltRule : Obligations.HaltRule := by
  refine ⟨decodeWord_halt_iff, fun _ => rfl, fun _ _ => rfl, fun s => ?_, fun s => ?_, fun _ => rfl, fun _ => rfl,
    fun s target hl hr htaken => ?_, fun s h => ?_⟩
  · by_cases hX : s.slotX = .empty
    · rw [if_pos hX, if_pos hX]
      exact congrArg _ (moveMarkerFromDecode_free (s := { s with phase := .decode, slotD := .haltMarker }) rfl hX)
    · rw [if_neg hX, if_neg hX]
      exact congrArg _ (moveMarkerFromDecode_blocked (s := { s with phase := .decode, slotD := .haltMarker }) hX)
  · by_cases hM : s.slotM = .empty
    · rw [if_pos hM, if_pos hM]
      exact congrArg _ (moveMarkerFromExecute_free (s := { s with phase := .execute, slotX := .haltMarker }) rfl hM)
    · rw [if_neg hM, if_neg hM]
      exact congrArg _ (moveMarkerFromExecute_blocked (s := { s with phase := .execute, slotX := .haltMarker }) hM)
  · have hsquash := takeControl_eq target (beforeExecute s)
    refine ⟨_, step_running hl hr, ?_⟩
    rw [stepUpdate_taken htaken, injectPart_frame, hsquash]
    exact ⟨rfl, rfl, rfl⟩
  · have hl := h.legal
    have hr := h.running
    obtain ⟨hD, hX, hM, hW⟩ := h.alone
    refine ⟨_, _, _, _, _, step_haltArrives h, step_draining_decode hl hr _, step_draining_execute hl hr _,
      step_draining_memory hl hr _, step_draining_writeback hl hr _, rfl, rfl, rfl, rfl, signal_of_running hr, rfl, ?_⟩
    rw [draining, hD, hX, hM, hW]

end Sys2Proof.Machine
end

section
/-! The pipeline's state operations (50_pipeline.md R153 to R172): what each part of a step makes of its slot's
occupant, and which fields of the state it keeps. -/

namespace Sys2Proof.Machine

open Sys2Proof.Claims

/-- A running machine that answers a next state has a legal configuration, and the answer is the six parts' update. -/
theorem eq_stepUpdate_of_step {s t : State} (hr : s.stopped = false) (h : step s = .next t) : t = stepUpdate s := by
  cases hl : s.cfg.legal with
  | true => exact Host.Outcome.next.inj (h.symm.trans (step_running hl hr))
  | false => simp [step, cycle, hl] at h

/-! ### Writeback (R153, R154) -/

theorem writebackUpdate_of_inFlight {s : State} {r : Decoded} (h : s.slotW = .inFlight r) :
    writebackUpdate s = committed s r := by
  rw [writebackUpdate, h]
  exact commit_inFlight h

theorem writebackUpdate_of_haltMarker {s : State} (h : s.slotW = .haltMarker) :
    writebackUpdate s = { s with stopped := true, slotW := .empty } := by
  simp only [writebackUpdate, commitMarker, h]

theorem writebackUpdate_stopped {s : State} (h : s.slotW ≠ .haltMarker) :
    (writebackUpdate s).stopped = s.stopped := by
  cases hW : s.slotW with
  | empty => rw [writebackUpdate_of_empty hW]
  | haltMarker => exact absurd hW h
  | inFlight r => rw [writebackUpdate_of_inFlight hW]; rfl

theorem writebackUpdate_slotF (s : State) : (writebackUpdate s).slotF = s.slotF := by rw [writebackUpdate_frame]

theorem writebackUpdate_pipelineEnabled (s : State) : (writebackUpdate s).pipelineEnabled = s.pipelineEnabled := by
  rw [writebackUpdate_frame]

/-- Writeback counts an instruction and no marker. -/
theorem writebackUpdate_instrs (s : State) :
    (writebackUpdate s).instrs = s.instrs + if (tagged s.slotW).isSome then 1 else 0 := by
  cases hW : s.slotW with
  | empty => rw [writebackUpdate_of_empty hW]; rfl
  | haltMarker => rw [writebackUpdate_of_haltMarker hW]; rfl
  | inFlight r => rw [writebackUpdate_of_inFlight hW]; rfl

/-- The register file is written for an instruction in W whose record says so. -/
theorem writebackUpdate_x_of_writes {s : State} {r : Decoded} (h : s.slotW = .inFlight r)
    (hw : r.hasWriteback = true) : (writebackUpdate s).x = (writeReg s r.rd r.writebackVal).x := by
  rw [writebackUpdate_of_inFlight h]
  exact if_pos hw

/-- The register file is written for no other occupant of W. -/
theorem writebackUpdate_x_of_not_writes {s : State} (h : ∀ r, s.slotW = .inFlight r → r.hasWriteback = false) :
    (writebackUpdate s).x = s.x := by
  cases hW : s.slotW with
  | empty => rw [writebackUpdate_of_empty hW]
  | haltMarker => rw [writebackUpdate_of_haltMarker hW]
  | inFlight r =>
    rw [writebackUpdate_of_inFlight hW]
    exact if_neg (Bool.eq_false_iff.1 (h r hW))

/-- Entry by entry, a register write replaces the entry it names (R9). -/
theorem getElem_writeReg_x (s : State) (rd : RegIdx) (v : Word) (i : Nat) (h : i < 32) :
    (writeReg s rd v).x[i] = if i = rd.toNat then v else s.x[i] := by
  simp only [writeReg, Vector.getElem_set, eq_comm (a := rd.toNat)]

/-! ### Memory (R156 to R158) -/

theorem memoryUpdate_of_haltMarker {s : State} (h : s.slotM = .haltMarker) :
    memoryUpdate s = { s with slotW := .haltMarker, slotM := .empty } := by
  simp only [memoryUpdate, moveMarkerFromMemory, h]

/-- The kind of a word is that of its opcode number's row (R100, R103). -/
theorem kindOf_eq_row_kind (w : Word) : kindOf w = (rowOfOpcode w (opNumber w)).kind := by
  rw [kindOf, fieldsOf_decodeOp]

/-- The memory instructions are those of opcodes 5 and 6 (R100, R157). -/
theorem memoryByKind_kindOf (w : Word) : memoryByKind (kindOf w) =
    if opNumber w = 5 then loadMemory else if opNumber w = 6 then storeMemory else passMemory := by
  rw [kindOf_eq_row_kind]
  generalize opNumber w = op
  match op with
  | 0 | 1 | 2 | 3 | 4 | 5 | 6 | 7 | 8 | _ + 9 => rfl

theorem memoryUpdate_of_inFlight {s : State} {r : Decoded} (h : s.slotM = .inFlight r) :
    memoryUpdate s = memoryByKind (kindOf r.raw) s := by rw [memoryUpdate, h]

/-- The instruction in M is in W or still in M afterwards (R157, R158). -/
theorem memoryUpdate_tagged {s : State} {p : Word × Word} (h : tagged s.slotM = some p) :
    tagged (memoryUpdate s).slotW = some p ∨ tagged (memoryUpdate s).slotM = some p := by
  cases hM : s.slotM with
  | empty | haltMarker => simp [tagged, hM] at h
  | inFlight r =>
    rw [hM] at h
    have houtcome := memoryUpdate_outcome hM
    generalize memoryUpdate s = t at houtcome
    cases houtcome with
    | moved u r' _ haddr hraw => exact .inl (by rw [← h, tagged, tagged, haddr, hraw])
    | stalled u r' _ haddr hraw => exact .inr (by rw [← h, tagged, tagged, haddr, hraw])

/-! ### The state in which Execute finds the machine -/

/-- Writeback has left W empty for Memory, which moves M, W and the hierarchy's fields alone. -/
theorem beforeExecute_frame (s : State) :
    SameButHierarchy
      { writebackUpdate { s with cycles := s.cycles + 1 } with
        slotM := (beforeExecute s).slotM, slotW := (beforeExecute s).slotW }
      (beforeExecute s) :=
  memoryUpdate_frame _

theorem beforeExecute_x (s : State) :
    (beforeExecute s).x = (writebackUpdate { s with cycles := s.cycles + 1 }).x := by
  rw [beforeExecute_frame]

theorem beforeExecute_stopped {s : State} (h : s.slotW ≠ .haltMarker) : (beforeExecute s).stopped = s.stopped := by
  rw [beforeExecute_frame]
  exact writebackUpdate_stopped (s := { s with cycles := s.cycles + 1 }) h

theorem beforeExecute_instrs (s : State) :
    (beforeExecute s).instrs = s.instrs + if (tagged s.slotW).isSome then 1 else 0 := by
  rw [beforeExecute_frame]
  exact writebackUpdate_instrs { s with cycles := s.cycles + 1 }

theorem beforeExecute_slotF (s : State) : (beforeExecute s).slotF = s.slotF := by
  rw [beforeExecute_frame]
  exact writebackUpdate_slotF { s with cycles := s.cycles + 1 }

theorem beforeExecute_pipelineEnabled (s : State) : (beforeExecute s).pipelineEnabled = s.pipelineEnabled := by
  rw [beforeExecute_frame]
  exact writebackUpdate_pipelineEnabled { s with cycles := s.cycles + 1 }

theorem beforeExecute_tagged {s : State} {p : Word × Word} (h : tagged s.slotM = some p) :
    tagged (beforeExecute s).slotW = some p ∨ tagged (beforeExecute s).slotM = some p :=
  memoryUpdate_tagged (by rw [writebackUpdate_frame]; exact h)

/-! ### Execute (R160 to R164) -/

/-- The operation of a word's kind is its opcode number's row of the table of R160, then the squash or the way to M. -/
theorem executeByKind_inFlight {s : State} {r : Decoded} (h : s.slotX = .inFlight r) :
    executeByKind (kindOf r.raw) s =
      if takenOf r then squashedTo s (resultOf r) else leftExecute s { r with result := resultOf r } := by
  have hresult (g : Decoded → Word) : executeResult g s = leftExecute s { r with result := g r } :=
    (executeResult_inFlight h g).trans (leaveExecute_eq _ s)
  obtain ⟨hcond, -⟩ := conditionCodes
  rw [kindOf_eq_row_kind, takenOf, resultOf]
  generalize opNumber r.raw = op
  match op with
  | 7 => rw [← hcond]; exact executeControl_inFlight h _
  | 8 => exact executeControl_inFlight h _
  | 0 | 1 | 2 | 3 | 4 | 5 | 6 | _ + 9 => exact hresult _

theorem executeUpdate_of_inFlight {s : State} {r : Decoded} (h : s.slotX = .inFlight r) :
    executeUpdate s =
      if takenOf r then squashedTo s (resultOf r) else leftExecute s { r with result := resultOf r } := by
  rw [executeUpdate, h]
  exact executeByKind_inFlight h

theorem executeUpdate_of_haltMarker {s : State} (h : s.slotX = .haltMarker) :
    executeUpdate s = moveMarkerFromExecute s := by rw [executeUpdate, h]

/-- Unless a control instruction is taken, Execute touches X and M alone (R163, R164). -/
theorem executeUpdate_frame_of_not_taken {s : State} (h : takenInX s = none) : executeUpdate s =
    { s with slotX := (executeUpdate s).slotX, slotM := (executeUpdate s).slotM } := by
  cases hX : s.slotX with
  | empty => rw [executeUpdate_of_empty hX]
  | haltMarker =>
    rw [executeUpdate_of_haltMarker hX, moveMarkerFromExecute]
    split <;> rfl
  | inFlight r =>
    obtain ⟨-, v, hupdate⟩ := executeUpdate_of_not_taken hX h
    rw [hupdate, leaveExecute_eq]
    split <;> rfl

/-- Execute never touches the registers, the modes or `stopped`. -/
theorem executeUpdate_frame (s : State) : executeUpdate s =
    { s with
      pc := (executeUpdate s).pc, fetchStopped := (executeUpdate s).fetchStopped
      instrs := (executeUpdate s).instrs, slotF := (executeUpdate s).slotF, slotD := (executeUpdate s).slotD
      slotX := (executeUpdate s).slotX, slotM := (executeUpdate s).slotM, port := (executeUpdate s).port } := by
  cases htaken : takenInX s with
  | some target => rw [executeUpdate_of_taken htaken, takeControl_eq]
  | none => rw [executeUpdate_frame_of_not_taken htaken]

theorem executeUpdate_x (s : State) : (executeUpdate s).x = s.x := by rw [executeUpdate_frame]

theorem executeUpdate_stopped (s : State) : (executeUpdate s).stopped = s.stopped := by rw [executeUpdate_frame]

theorem executeUpdate_pipelineEnabled (s : State) : (executeUpdate s).pipelineEnabled = s.pipelineEnabled := by
  rw [executeUpdate_frame]

/-- Execute empties F or leaves it. -/
theorem executeUpdate_slotF_of_none {s : State} (h : s.slotF = none) : (executeUpdate s).slotF = none := by
  cases htaken : takenInX s with
  | some target => rw [executeUpdate_of_taken htaken, takeControl_eq]
  | none => rw [executeUpdate_frame_of_not_taken htaken]; exact h

/-! ### Decode (R165 to R167) -/

theorem hazard_iff {s : State} {srcs : List RegIdx} : hazard s srcs = true ↔
    ∃ p, (s.slotX = .inFlight p ∨ s.slotM = .inFlight p ∨ s.slotW = .inFlight p) ∧ p.hasWriteback = true ∧
      p.rd ∈ srcs := by
  simp only [hazard, Bool.or_eq_true, producesFor_iff, ← exists_or, ← or_and_right, or_assoc]

theorem decodeUpdate_of_inFlight {s : State} {q : DecodeEntry} (h : s.slotD = .inFlight q) :
    decodeUpdate s = issueDecode (rowOfOpcode q.raw (opNumber q.raw)) s := by
  rw [decodeUpdate, h, ← fieldsOf_decodeOp]

/-! ### Fetch and injection (R168 to R172) -/

/-- What has been latched is handed to D, or F stalls (R170, R171). -/
theorem advanceFetch_latched {s : State} {a : Word} {l : Latched} {st : Status}
    (hF : s.slotF = some { addr := a, latched := l, status := st }) (hL : l ≠ .outstanding) :
    advanceFetch s = leftFetch s a l st := by
  cases l with
  | outstanding => exact absurd rfl hL
  | word w => exact advanceFetch_word hF rfl
  | halt => exact advanceFetch_halt hF rfl

/-- What Fetch leaves does not depend on what F held. -/
theorem leftFetch_slotF (s : State) (f : Option FetchEntry) (a : Word) (l : Latched) (st : Status) :
    leftFetch { s with slotF := f } a l st = leftFetch s a l st := by
  unfold leftFetch
  split
  · cases l <;> rfl
  · rfl

/-- A latched word or halt makes no request. -/
theorem fetchUpdate_latched {s : State} {a : Word} {l : Latched} {st : Status}
    (hF : s.slotF = some { addr := a, latched := l, status := st }) (hL : l ≠ .outstanding) :
    fetchUpdate s = leftFetch s a l st := by
  rw [← advanceFetch_latched hF hL, fetchUpdate, hF]
  cases l with
  | outstanding => exact absurd rfl hL
  | word w => rfl
  | halt => rfl

/-- Fetch's operation while the read is outstanding. -/
theorem fetchUpdate_outstanding {s : State} {a : Word} {st : Status}
    (hF : s.slotF = some { addr := a, latched := .outstanding, status := st }) : fetchUpdate s =
      if a.toNat < s.cfg.ramWords then
        match hRead s a.toNat .fetch with
        | (v, .wait) => { v with slotF := some { addr := a, latched := .outstanding, status := .stalled } }
        | (v, .done w) =>
          if w = 0 then leftFetch { v with fetchStopped := true } a .halt st else leftFetch v a (.word w) st
      else leftFetch { s with fetchStopped := true } a .halt st := by
  have hlatch (v : State) (l : Latched) (hL : l ≠ .outstanding) :
      advanceFetch { v with slotF := some { addr := a, latched := l, status := st } } = leftFetch v a l st :=
    (advanceFetch_latched rfl hL).trans (leftFetch_slotF v _ a l st)
  simp only [fetchUpdate, hF, inRange_iff]
  split
  · rcases hRead s a.toNat .fetch with ⟨v, reply⟩
    cases reply with
    | wait => rfl
    | done w =>
      exact if_congr Iff.rfl (hlatch { v with fetchStopped := true } .halt nofun) (hlatch v (.word w) nofun)
  · exact hlatch { s with fetchStopped := true } .halt nofun

theorem backEndEmpty_iff {s : State} : backEndEmpty s = true ↔
    s.slotD = .empty ∧ s.slotX = .empty ∧ s.slotM = .empty ∧ s.slotW = .empty := by
  simp only [backEndEmpty, Bool.and_eq_true, beq_iff_eq, and_assoc]

theorem injectPart_eq (s : State) : injectPart s =
    if s.slotF = none ∧ s.fetchStopped = false ∧
        (s.pipelineEnabled = true ∨ (s.slotD = .empty ∧ s.slotX = .empty ∧ s.slotM = .empty ∧ s.slotW = .empty)) then
      { s with slotF := fetchAt s.pc }
    else s := by
  refine if_congr ?_ rfl rfl
  simp only [Bool.and_eq_true, Bool.or_eq_true, decide_eq_true_eq, Bool.not_eq_true', backEndEmpty_iff, and_assoc]

/-- After a squash D, X and F are empty and fetching is allowed, so the mode, M and W alone decide (R162, R172). -/
theorem injectPart_squashedTo (s : State) (target : Word) : injectPart (squashedTo s target) =
    { squashedTo s target with
      slotF := if s.pipelineEnabled = true ∨ (s.slotM = .empty ∧ s.slotW = .empty) then fetchAt target else none } := by
  rw [injectPart_eq]
  by_cases h : s.pipelineEnabled = true ∨ (s.slotM = .empty ∧ s.slotW = .empty)
  · rw [if_pos h, if_pos ⟨rfl, rfl, h.imp_right fun hMW => ⟨rfl, rfl, hMW⟩⟩]
    rfl
  · rw [if_neg h, if_neg fun ⟨_, _, hmode⟩ => h (hmode.imp_right fun ⟨_, _, hMW⟩ => hMW)]
    rfl

/-- Part 6 fills an empty F only under the conditions of R172. -/
theorem injectPart_of_slotF_ne_none {s : State} (hF : s.slotF = none) (h : (injectPart s).slotF ≠ none) :
    injectPart s = { s with slotF := fetchAt s.pc } ∧
      (s.pipelineEnabled = true ∨ (s.slotD = .empty ∧ s.slotX = .empty ∧ s.slotM = .empty ∧ s.slotW = .empty)) := by
  rw [injectPart_eq] at h ⊢
  split at h
  · next hcond =>
    have ⟨_, _, hmode⟩ := hcond
    exact ⟨if_pos hcond, hmode⟩
  · exact absurd hF h

/-! ### What a step keeps -/

/-- After Writeback no part writes a register (R21). -/
theorem stepUpdate_x (s : State) : (stepUpdate s).x = (writebackUpdate { s with cycles := s.cycles + 1 }).x := by
  rw [stepUpdate, injectPart_frame, fetchUpdate_same, decodeUpdate_frame]
  exact (executeUpdate_x _).trans (beforeExecute_x s)

/-- Only the marker in W stops the machine (R154). -/
theorem stepUpdate_stopped {s : State} (h : s.slotW ≠ .haltMarker) : (stepUpdate s).stopped = s.stopped := by
  rw [stepUpdate, injectPart_frame, fetchUpdate_same, decodeUpdate_frame]
  exact (executeUpdate_stopped _).trans (beforeExecute_stopped h)

theorem beforeFetch_slotF_of_none {s : State} (h : s.slotF = none) :
    (decodeUpdate (executeUpdate (beforeExecute s))).slotF = none := by
  rw [decodeUpdate_frame]
  exact executeUpdate_slotF_of_none ((beforeExecute_slotF s).trans h)

theorem beforeFetch_pipelineEnabled (s : State) :
    (decodeUpdate (executeUpdate (beforeExecute s))).pipelineEnabled = s.pipelineEnabled := by
  rw [decodeUpdate_frame]
  exact (executeUpdate_pipelineEnabled _).trans (beforeExecute_pipelineEnabled s)

/-- With F empty a step's only business in F is the injection (R168, R172). -/
theorem stepUpdate_of_slotF_none {s : State} (h : s.slotF = none) :
    stepUpdate s = injectPart (decodeUpdate (executeUpdate (beforeExecute s))) := by
  rw [stepUpdate, fetchUpdate_of_none (beforeFetch_slotF_of_none h)]

end Sys2Proof.Machine
end

section
/-! The statements about the pipeline's parts (50_pipeline.md): each is assembled from what the parts leave. -/

namespace Sys2Proof.Machine

open Sys2Proof.Claims

theorem signal_of_stopped {s : State} (h : s.stopped = true) : signal s = .halt := by simp [signal, h]

theorem cyclesN_stopped {s : State} (hl : s.cfg.legal = true) (hr : s.stopped = true) (n : Nat) :
    cyclesN n s = .next s := by
  induction n with
  | zero => rfl
  | succ n ih => rw [cyclesN, step_stopped hl hr, andThen, ih]

/-- Settles O23: a step of a stopped machine is the identity, so any number of them is; reset clears `stopped`. -/
theorem stoppedStepChangesNothing : Obligations.StoppedStepChangesNothing := fun _ hl hr =>
  ⟨step_stopped hl hr, signal_of_stopped hr, cyclesN_stopped hl hr, fun _ _ => signal_of_running rfl⟩

/-- Settles O26: the registers after a step are those Writeback left, as no later part writes one. -/
theorem writebackCommits : Obligations.WritebackCommits := by
  refine ⟨fun s r => (writebackPart_eq_update _).trans (congrArg _ (writebackUpdate_of_inFlight rfl)),
    fun s t hr hstep => ?_⟩
  cases eq_stepUpdate_of_step hr hstep
  rw [stepUpdate_x]
  refine ⟨fun r hW hw i hi => ?_, fun hnone => ?_⟩
  · have hx := writebackUpdate_x_of_writes (s := { s with cycles := s.cycles + 1 }) hW hw
    simp only [hx]
    exact getElem_writeReg_x _ r.rd r.writebackVal i hi
  · exact writebackUpdate_x_of_not_writes (s := { s with cycles := s.cycles + 1 }) hnone

/-- With D, X, M and F empty and fetching stopped the parts after Writeback do nothing. -/
theorem partsAfterWriteback_idle {s : State} (hM : s.slotM = .empty) (hX : s.slotX = .empty) (hD : s.slotD = .empty)
    (hF : s.slotF = none) (hstop : s.fetchStopped = true) :
    injectPart (fetchUpdate (decodeUpdate (executeUpdate (memoryUpdate s)))) = s := by
  rw [memoryUpdate_of_empty hM, executeUpdate_of_empty hX, decodeUpdate_of_empty hD, fetchUpdate_of_none hF,
    injectPart_of_fetchStopped hstop]

/-- With the marker in W and nothing behind it, a step stops the machine and does nothing else (R154). -/
theorem stepUpdate_of_marker {s : State} (hW : s.slotW = .haltMarker) (hM : s.slotM = .empty) (hX : s.slotX = .empty)
    (hD : s.slotD = .empty) (hF : s.slotF = none) (hstop : s.fetchStopped = true) :
    stepUpdate s = { s with cycles := s.cycles + 1, stopped := true, slotW := .empty } := by
  rw [stepUpdate, beforeExecute, writebackUpdate_of_haltMarker (s := { s with cycles := s.cycles + 1 }) hW]
  exact partsAfterWriteback_idle hM hX hD hF hstop

/-- Settles O27: in a sound state nothing is behind a marker in W and fetching is stopped; any other occupant of W
leaves `stopped` as it was. -/
theorem haltOnlyFromTheMarker : Obligations.HaltOnlyFromTheMarker := by
  refine fun s hinv hr => ⟨fun hW => ?_, fun hW => ?_⟩
  · obtain ⟨hM, hX, hD, hF⟩ := hinv.slots.behindW hW
    have hstop : s.fetchStopped = true := by simp [hinv.slots.fetchStopped, markerPresent, hW]
    exact ⟨(step_running hinv.legal hr).trans (congrArg _ (stepUpdate_of_marker hW hM hX hD hF hstop)), hF, hD, hX, hM⟩
  · exact ⟨_, step_running hinv.legal hr, signal_of_running ((stepUpdate_stopped hW).trans hr)⟩

/-- Settles O28: opcode 5 makes the read of `loadMemory`, opcode 6 the write of `storeMemory`, every other none. -/
theorem memoryStage : Obligations.MemoryStage := by
  refine ⟨fun s => (memoryPart_eq_update _).trans (congrArg _ (memoryUpdate_of_haltMarker rfl)),
    fun s => (memoryPart_eq_update _).trans (congrArg _ (memoryUpdate_of_empty rfl)), fun s s1 h => ?_,
    fun s r => ?_⟩
  · cases (writebackPart_eq_update s).symm.trans h
    exact writebackUpdate_slotW s
  · intro u
    have hM : u.slotM = .inFlight r := rfl
    rw [memoryPart_eq_update, memoryUpdate_of_inFlight hM, memoryByKind_kindOf]
    by_cases hload : opNumber r.raw = 5
    · simp only [hload, if_true, true_or]
      exact congrArg _ (loadMemory_inFlight hM)
    · by_cases hstore : opNumber r.raw = 6
      · simp only [hstore, if_true, or_true]
        exact congrArg _ (storeMemory_inFlight hM)
      · rw [if_neg hload, if_neg hstore, if_neg (not_or.2 ⟨hload, hstore⟩), passMemory_inFlight hM]

/-- Settles O29: the kinds' operations in Execute are the rows of R160. -/
theorem executeStage : Obligations.ExecuteStage := fun _ _ =>
  (executePart_eq_update _).trans (congrArg _ (executeUpdate_of_inFlight rfl))

/-- Only Memory can own the port once a fetch's access has been dropped. -/
theorem owner_mem_of_filter {port : Option Access} {p : Access}
    (h : (port.filter fun p => p.owner != .fetch) = some p) : p.owner = .mem := by
  obtain ⟨-, hne⟩ := Option.filter_eq_some_iff.1 h
  cases ho : p.owner with
  | fetch => simp [ho] at hne
  | mem => rfl

/-- Settles O30: the step is Writeback and Memory, then the squash, then an injection. -/
theorem takenControlSquashes : Obligations.TakenControlSquashes := by
  intro s target hl hr hW htaken
  have hstep : stepUpdate s = injectPart (squashedTo (beforeExecute s) target) := by
    rw [stepUpdate_taken htaken, takeControl_eq]
    rfl
  refine ⟨_, step_running hl hr, ?_⟩
  rw [hstep, injectPart_squashedTo, beforeExecute_pipelineEnabled]
  refine ⟨rfl, rfl, rfl, rfl, rfl, (beforeExecute_stopped hW).trans hr, fun p => owner_mem_of_filter, ?_,
    fun p => beforeExecute_tagged⟩
  calc (beforeExecute s).instrs + 1 = s.instrs + (if (tagged s.slotW).isSome then 1 else 0) + 1 := by
        rw [beforeExecute_instrs]
    _ = s.instrs + 1 + (if (tagged s.slotW).isSome then 1 else 0) := Nat.add_right_comm ..

/-- Settles O32: the sources compared and the record are those of the row the word's opcode selects. -/
theorem decodeStage : Obligations.DecodeStage := by
  intro s q u r
  have hD : u.slotD = .inFlight q := rfl
  have hr : r = recordOf (rowOfOpcode q.raw (opNumber q.raw)) q.raw q.addr := decodeAsWritten_eq_recordOf_row _ _
  rw [decodePart_eq_update, decodeUpdate_of_inFlight hD, issueDecode_inFlight hD, sourcesOf_eq_row_srcs, hr]
  by_cases hz : hazard u (rowOfOpcode q.raw (opNumber q.raw)).srcs = true
  · exact .inl ⟨hazard_iff.1 hz, congrArg _ (if_pos hz)⟩
  · exact .inr ⟨fun p hslot hw hmem => hz (hazard_iff.2 ⟨p, hslot, hw, hmem⟩), congrArg _ (if_neg hz)⟩

/-- Settles O33: an outstanding read is made or refused by the range test; what is latched is handed on as it is. -/
theorem fetchStage : Obligations.FetchStage :=
  ⟨fun _ _ _ => (fetchPart_eq _).trans (congrArg _ (fetchUpdate_outstanding rfl)),
    fun _ _ _ _ => (fetchPart_eq _).trans (congrArg _ (fetchUpdate_latched rfl nofun)),
    fun _ _ _ => (fetchPart_eq _).trans (congrArg _ (fetchUpdate_latched rfl nofun)),
    fun _ => (fetchPart_eq _).trans (congrArg _ (fetchUpdate_of_none rfl))⟩

/-- Settles O34: a step that finds F empty leaves it so unless part 6 injects, which asks for the other slots to be
empty when the machine is not pipelined. -/
theorem injection : Obligations.Injection := by
  refine ⟨injectPart_eq, fun s t hr hserial hF hstep hfetch => ?_⟩
  cases eq_stepUpdate_of_step hr hstep
  rw [stepUpdate_of_slotF_none hF] at hfetch ⊢
  obtain ⟨hinjected, hpipelined | hslots⟩ := injectPart_of_slotF_ne_none (beforeFetch_slotF_of_none hF) hfetch
  · have hmode := (beforeFetch_pipelineEnabled s).symm.trans hpipelined
    exact absurd (hserial.symm.trans hmode) Bool.false_ne_true
  · rw [hinjected]
    exact ⟨rfl, hslots⟩

end Sys2Proof.Machine
end

section
/-! Reset, the entry point and the host's operations (70_reset_and_hazards.md R230 to R246). -/

namespace Sys2Proof.Machine

open Sys2Proof.Claims

/-! ### What is fixed between resets (R231) -/

/-- `t` has the configuration, the mode flags and the phase of `s`. -/
def SameModes (s t : State) : Prop :=
  t.cfg = s.cfg ∧ t.pipelineEnabled = s.pipelineEnabled ∧ t.cacheEnabled = s.cacheEnabled ∧ t.phase = s.phase

theorem beforeExecute_modes (s : State) : SameModes s (beforeExecute s) := by
  rw [beforeExecute_frame, writebackUpdate_frame]
  exact ⟨rfl, rfl, rfl, rfl⟩

/-- No part of a step writes the configuration, a mode flag or the phase. -/
theorem stepUpdate_modes (s : State) : SameModes s (stepUpdate s) := by
  rw [stepUpdate, injectPart_frame, fetchUpdate_same, decodeUpdate_frame, executeUpdate_frame]
  exact beforeExecute_modes s

theorem step_modes {s t : State} (h : step s = .next t) : SameModes s t := by
  cases hr : s.stopped with
  | false =>
    cases eq_stepUpdate_of_step hr h
    exact stepUpdate_modes s
  | true =>
    cases hl : s.cfg.legal with
    | true =>
      cases (step_stopped hl hr).symm.trans h
      exact ⟨rfl, rfl, rfl, rfl⟩
    | false => simp [step, cycle, hl] at h

/-- Reset leaves no line but the empty one (R36). -/
theorem eq_reset_of_mem_hostReset {s : State} {p e : Bool} {l : Line} (h : l ∈ (hostReset p e s).lines) :
    l = Line.reset s.cfg.wordsPerLine :=
  List.eq_of_mem_replicate h

/-- Settles O38: reset builds a power-on state with the given flags, and no part of a step writes a mode. -/
theorem modesAreLatchedAtReset : Obligations.ModesAreLatchedAtReset := by
  refine ⟨fun s p e => ⟨rfl, rfl, rfl, rfl, fun l hl => ?_⟩, fun s t => step_modes⟩
  rw [eq_reset_of_mem_hostReset hl]
  rfl

/-! ### Loading a program (R240) -/

theorem loadAt_eq (i : Nat) (ws : List Word) (s : State) : loadAt i ws s = { s with ram := (loadAt i ws s).ram } := by
  induction ws generalizing i s with
  | nil => rfl
  | cons w ws ih => rw [loadAt, ih, forceWrite_eq]

theorem loadAt_wf (i : Nat) (ws : List Word) {s : State} (h : s.ram.wf = true) : (loadAt i ws s).ram.wf = true := by
  induction ws generalizing i s with
  | nil => exact h
  | cons w ws ih => exact ih (i + 1) (forceWrite_wf h i w)

/-- The backdoor after a load at `i`: the words loaded, where they lie in RAM, every other word as before. -/
theorem forceRead_loadAt (i : Nat) (ws : List Word) {s : State} (h : s.ram.wf = true) (a : Nat) :
    forceRead (loadAt i ws s) a =
      if (i ≤ a ∧ a < i + ws.length) ∧ a < s.cfg.ramWords then ws.getD (a - i) 0 else forceRead s a := by
  induction ws generalizing i s with
  | nil => rw [if_neg (by simp only [List.length_nil]; omega), loadAt]
  | cons w ws ih =>
    have hcfg : (forceWrite s i w).cfg = s.cfg := by rw [forceWrite_eq]
    rw [loadAt, ih (i + 1) (forceWrite_wf h i w), forceRead_forceWrite h, hcfg]
    simp only [List.length_cons]
    by_cases hfirst : a = i
    · subst hfirst
      simp
    · by_cases hlater : (i + 1 ≤ a ∧ a < i + 1 + ws.length) ∧ a < s.cfg.ramWords
      · have hnext : a - i = a - (i + 1) + 1 := by omega
        rw [if_pos hlater, if_pos (by omega), hnext, List.getD_cons_succ]
      · rw [if_neg hlater, if_neg fun hcase => hfirst hcase.1, if_neg (by omega)]

/-- Settles O52: a load is a row of backdoor writes, each of which touches RAM alone. -/
theorem loadWritesRamAlone : Obligations.LoadWritesRamAlone := by
  intro words s hwf
  refine ⟨loadAt_eq 0 words s, loadAt_wf 0 words hwf, fun a => ?_⟩
  have hread := forceRead_loadAt 0 words hwf a
  simp only [Nat.zero_le, true_and, Nat.zero_add, Nat.sub_zero] at hread
  exact hread

/-! ### Runs (R242) -/

/-- A legal machine always steps, and stays legal. -/
theorem exists_step {s : State} (hl : s.cfg.legal = true) : ∃ t, step s = .next t ∧ t.cfg.legal = true := by
  obtain ⟨t, ht⟩ : ∃ t, step s = .next t := by
    cases hr : s.stopped with
    | false => exact ⟨_, step_running hl hr⟩
    | true => exact ⟨_, step_stopped hl hr⟩
  obtain ⟨hcfg, -⟩ := step_modes ht
  exact ⟨t, ht, hcfg ▸ hl⟩

theorem cyclesN_succ {s t : State} (h : step s = .next t) (n : Nat) : cyclesN (n + 1) s = cyclesN n t := by
  rw [cyclesN, h, andThen]

/-- Every step from `s` before the `k`th returns RUNNING. -/
def RunningUntil (s : State) (k : Nat) : Prop :=
  ∀ j, 0 < j → j < k → ∃ u, cyclesN j s = .next u ∧ signal u = .running

theorem runningUntil_one (s : State) : RunningUntil s 1 := fun _ hpos hlt => absurd hlt (Nat.not_lt.2 hpos)

theorem RunningUntil.succ {s t : State} {k : Nat} (h : RunningUntil t k) (hstep : step s = .next t)
    (hsignal : signal t = .running) : RunningUntil s (k + 1) := by
  intro j _ hlt
  match j with
  | 1 => exact ⟨t, cyclesN_succ hstep 0, hsignal⟩
  | j + 2 =>
    rw [cyclesN_succ hstep]
    exact h (j + 1) (Nat.succ_pos j) (Nat.lt_of_succ_lt_succ hlt)

theorem run_of_halt {s t : State} (hstep : step s = .next t) (h : signal t = .halt) (n : Nat) :
    run (n + 1) s = .next t := by
  simp only [run, hstep, andThen, h]

theorem run_of_running {s t : State} (hstep : step s = .next t) (h : signal t = .running) (n : Nat) :
    run (n + 1) s = run n t := by
  simp only [run, hstep, andThen, h]

/-- A run with budget `n` makes some `k ≤ n` steps: none before the last returns HALT, and the last does if `k < n`. -/
theorem run_stops (n : Nat) {s : State} (hl : s.cfg.legal = true) :
    ∃ t k, run n s = .next t ∧ k ≤ n ∧ cyclesN k s = .next t ∧ RunningUntil s k ∧
      (k = n ∨ (0 < k ∧ signal t = .halt)) := by
  induction n generalizing s with
  | zero => exact ⟨s, 0, rfl, Nat.le_refl 0, rfl, fun _ _ hlt => absurd hlt (Nat.not_lt_zero _), .inl rfl⟩
  | succ n ih =>
    obtain ⟨u, hstep, hlegal⟩ := exists_step hl
    cases hsignal : signal u with
    | halt =>
      exact ⟨u, 1, run_of_halt hstep hsignal n, Nat.succ_le_succ (Nat.zero_le n), cyclesN_succ hstep 0,
        runningUntil_one s, .inr ⟨Nat.one_pos, hsignal⟩⟩
    | running =>
      obtain ⟨t, k, hrun, hk, hcycles, hbefore, hend⟩ := ih hlegal
      exact ⟨t, k + 1, (run_of_running hstep hsignal n).trans hrun, Nat.succ_le_succ hk,
        (cyclesN_succ hstep k).trans hcycles, hbefore.succ hstep hsignal,
        hend.imp (congrArg (· + 1)) fun ⟨_, hhalt⟩ => ⟨Nat.succ_pos k, hhalt⟩⟩

/-- A budget of the number of steps to the first HALT is enough to reach it. -/
theorem run_eq_of_first_halt {s t : State} (hl : s.cfg.legal = true) {k : Nat} (hcycles : cyclesN k s = .next t)
    (hbefore : RunningUntil s k) : run k s = .next t := by
  obtain ⟨u, j, hrun, hj, hcycles', -, rfl | ⟨hpos, hhalt⟩⟩ := run_stops k hl
  · rw [hrun, ← hcycles', hcycles]
  · rcases Nat.lt_or_eq_of_le hj with hlt | rfl
    · obtain ⟨v, hv, hrunning⟩ := hbefore j hpos hlt
      cases hv.symm.trans hcycles'
      exact absurd (hrunning.symm.trans hhalt) (by decide)
    · rw [hrun, ← hcycles', hcycles]

/-- Settles O53: a bounded run stops at the first HALT or at its budget; an unbounded one is a bounded one with a budget
that suffices. -/
theorem runSteps : Obligations.RunSteps := by
  refine ⟨fun n s hl => run_stops n hl, fun s t hl => ⟨?_, ?_⟩⟩
  · rintro ⟨n, hrun, hhalt⟩
    obtain ⟨u, k, hrun', -, hcycles, hbefore, hend⟩ := run_stops (n + 1) hl
    cases hrun.symm.trans hrun'
    have hpos : 0 < k := hend.elim (fun hk => hk ▸ Nat.succ_pos n) And.left
    exact ⟨k, hpos, hcycles, hhalt, hbefore⟩
  · rintro ⟨k, hpos, hcycles, hhalt, hbefore⟩
    obtain ⟨n, rfl⟩ := Nat.exists_eq_add_one.2 hpos
    exact ⟨n, run_eq_of_first_halt hl hcycles hbefore, hhalt⟩

/-! ### Reset and power-on (R230, R232) -/

/-- Settles O50: reset leaves the power-on state but for RAM, and power-on leaves RAM with nothing listed. -/
theorem resetAndPowerOn : Obligations.ResetAndPowerOn := by
  refine ⟨fun s p e => ⟨fun i h => Vector.getElem_replicate h, rfl, rfl, rfl, rfl, rfl, rfl, rfl, rfl, rfl, rfl, rfl,
    List.length_replicate, fun l hl => ?_, rfl, rfl, rfl, rfl, rfl, rfl⟩,
    fun c p e hc => ⟨_, construct_of_legal hc p e, rfl, rfl, fun a => ⟨rfl, ite_self _⟩⟩⟩
  rw [eq_reset_of_mem_hostReset hl]
  exact ⟨rfl, rfl, rfl, rfl⟩

/-! ### The entry point (R233) -/

/-- With nothing in flight behind Fetch a step is its parts 5 and 6. -/
theorem stepUpdate_of_backEnd_empty {s : State} (hD : s.slotD = .empty) (hX : s.slotX = .empty)
    (hM : s.slotM = .empty) (hW : s.slotW = .empty) :
    stepUpdate s = injectPart (fetchUpdate { s with cycles := s.cycles + 1 }) :=
  congrArg (fun u => injectPart (fetchUpdate u))
    (partsBeforeFetch_idle (s := { s with cycles := s.cycles + 1 }) hD hX hM hW)

/-- With everything empty and fetching allowed, a step only injects a fetch, in either mode (R172). -/
theorem stepUpdate_of_empty {s : State} (hF : s.slotF = none) (hD : s.slotD = .empty) (hX : s.slotX = .empty)
    (hM : s.slotM = .empty) (hW : s.slotW = .empty) (hfetching : s.fetchStopped = false) :
    stepUpdate s = { s with cycles := s.cycles + 1, slotF := fetchAt s.pc } := by
  rw [stepUpdate_of_backEnd_empty hD hX hM hW, fetchUpdate_of_none (s := { s with cycles := s.cycles + 1 }) hF,
    injectPart_eq, if_pos ⟨hF, hfetching, .inr ⟨hD, hX, hM, hW⟩⟩]

/-- No line is valid after reset, so nothing hits (R36, R63). -/
theorem hitAt_hostReset (p e : Bool) (s : State) (a : Nat) : hitAt (hostReset p e s) a = false := by
  have hline (k : Nat) : lineAt (hostReset p e s) k = Line.reset s.cfg.wordsPerLine := by
    rw [lineAt, List.getD_eq_getElem?_getD]
    cases hget : (hostReset p e s).lines[k]? with
    | none => rfl
    | some l => exact eq_reset_of_mem_hostReset (List.mem_of_getElem? hget)
  rw [hitAt, hline]
  rfl

/-- A request that misses does not move the counter of hits when it is first issued. -/
theorem access_missed_hits {s : State} {q : Request} (h : hitAt s q.addr = false) (stage : Requester) :
    (access (idle s) q stage).1.hits = s.hits := by
  have hcount : (countAccess s q.addr).hits = s.hits := by
    obtain ⟨-, hhits, -⟩ := missed_frame s q.addr
    rw [← hhits, ← idle_countAccess_of_miss h]
    rfl
  by_cases hd : delayOf s q.addr = 0
  · rw [access_idle_immediate hd, completeAccess_hits]
    exact hcount
  · rw [access_idle_delayed hd]
    exact hcount

/-- Fetch moves the cache's counters as its read does. -/
theorem fetchUpdate_counters {s : State} {f : FetchEntry} (hF : s.slotF = some f) (hL : f.latched = .outstanding)
    (hin : inRange s f.addr = true) :
    (fetchUpdate s).hits = (hRead s f.addr.toNat .fetch).1.hits ∧
      (fetchUpdate s).misses = (hRead s f.addr.toNat .fetch).1.misses := by
  simp only [fetchUpdate, hF, hL, hin, if_true]
  rcases hRead s f.addr.toNat .fetch with ⟨u, reply⟩
  cases reply with
  | wait => exact ⟨rfl, rfl⟩
  | done w =>
    dsimp only
    split <;> rw [advanceFetch_frame] <;> exact ⟨rfl, rfl⟩

/-- With the cache disabled and D free, Fetch reads the word and hands it, or the marker it stands for, to D at once. -/
theorem fetchUpdate_disabled_slotD {s : State} {a : Word} {st : Status} (hdirect : s.cacheEnabled = false)
    (hF : s.slotF = some { addr := a, latched := .outstanding, status := st }) (hin : a.toNat < s.cfg.ramWords)
    (hD : s.slotD = .empty) :
    (fetchUpdate s).slotD =
      if s.ram.read a.toNat = 0 then .haltMarker
      else .inFlight { addr := a, raw := s.ram.read a.toNat, status := .normal } := by
  rw [fetchUpdate_outstanding hF, if_pos hin, hRead_disabled hdirect]
  dsimp only
  split
  · simp only [leftFetch, hD, if_true]
  · simp only [leftFetch, hD, if_true]

/-- The machine as reset leaves it, but at cycle `n` and with the fetch at the entry point in F. -/
def entered (p e : Bool) (s : State) (n : Nat) : State := { hostReset p e s with cycles := n, slotF := fetchAt 0 }

section
variable {s : State} (hl : s.cfg.legal = true) (p e : Bool)
include hl

theorem ramWords_pos : 0 < s.cfg.ramWords := by
  obtain ⟨-, hpos, -⟩ := (Config.legal_iff s.cfg).1 hl
  exact hpos

theorem step_hostReset : step (hostReset p e s) = .next (entered p e s 1) :=
  (step_running (s := hostReset p e s) hl rfl).trans (congrArg _ (stepUpdate_of_empty rfl rfl rfl rfl rfl rfl))

theorem cyclesN_two_hostReset :
    cyclesN 2 (hostReset p e s) = .next (injectPart (fetchUpdate (entered p e s 2))) := by
  have hsecond : step (entered p e s 1) = .next (injectPart (fetchUpdate (entered p e s 2))) :=
    (step_running (s := entered p e s 1) hl rfl).trans
      (congrArg _ (stepUpdate_of_backEnd_empty (s := entered p e s 1) rfl rfl rfl rfl))
  rw [cyclesN_succ (step_hostReset hl p e), cyclesN_succ hsecond, cyclesN]

/-- With the cache enabled the read at the entry point is accepted as a miss. -/
theorem fetchUpdate_entered_cached (n : Nat) :
    (fetchUpdate (entered p true s n)).misses = 1 ∧ (fetchUpdate (entered p true s n)).hits = 0 := by
  have hmiss : hitAt (entered p true s n) 0 = false := hitAt_hostReset p true s 0
  obtain ⟨hhits, hmisses⟩ :=
    fetchUpdate_counters (s := entered p true s n) rfl rfl (inRange_iff.2 (ramWords_pos hl))
  obtain ⟨hcounted, -⟩ := access_missed (q := { kind := .read, addr := 0, value := 0 }) hmiss .fetch
  exact ⟨hmisses.trans hcounted,
    hhits.trans (access_missed_hits (q := { kind := .read, addr := 0, value := 0 }) hmiss .fetch)⟩

end

/-- Settles O51: reset leaves every slot empty, so the first step only injects; the second is the read at 0, which
nothing cached can answer. -/
theorem entryPoint : Obligations.EntryPoint := by
  intro s p e hl r
  refine ⟨step_hostReset hl p e, _, cyclesN_two_hostReset hl p e, ?_, ?_⟩
  · rintro rfl
    rw [injectPart_frame]
    exact fetchUpdate_entered_cached hl p 2
  · rintro rfl
    rw [injectPart_frame]
    exact fetchUpdate_disabled_slotD (s := entered p false s 2) rfl rfl (ramWords_pos hl) rfl

/-! ### What the host reads (R245, R246) -/

/-- Settles O55: the index is tested against the register file and against the machine's registers. -/
theorem hostReads : Obligations.HostReads := by
  refine fun s _ => ⟨fun i h hi => ?_, fun i hi => ?_, rfl, rfl, rfl, rfl, rfl⟩
  · rw [readRegister, dif_pos h, if_pos hi]
  · unfold readRegister
    split
    · exact if_neg (Nat.not_lt.2 hi)
    · rfl

end Sys2Proof.Machine
end

section
/-! The codec (30_encoding.md R90 to R110): decoding inverts encoding, and encoding inverts decoding. -/

namespace Sys2Proof.Machine

open Sys2Proof.Claims

/-! ### Decoding inverts encoding (R105, R110) -/

/-- A row of 32 bits is decoded as the word it is (R90). -/
theorem decodeTableWord_toNat (w : Word) : decodeTableWord 32 w.toNat = some (decodeWord w) := by
  have hbits : BitVec.ofNat 32 (w.toNat % 2 ^ 32) = w := by
    rw [Nat.mod_eq_of_lt w.isLt, BitVec.ofNat_toNat, BitVec.setWidth_eq]
  rw [decodeTableWord, hbits]
  rfl

/-- Opcode 0 belongs to NOP except in the sentinel (R102). -/
theorem decodeWord_classNone_zero {ign : BitVec 27} (h : ign ≠ 0) : decodeWord (classNone 0 ign) = .nopOp0 ign := by
  have hne : classNone 0 ign ≠ haltWord := fun hw => h (by rw [← low27Of_classNone 0 ign, hw]; decide)
  rw [decodeWord_of_ne hne]
  simp [decodeOp, opcodeOf_classNone, low27Of_classNone]

/-- The 23 other opcodes without an instruction give their NOP back: `op` is the opcode and `nop` its constructor. -/
theorem decodeWord_classNone {op : BitVec 5} (hop : op ≠ 0) {nop : BitVec 27 → Instr}
    (hrow : ∀ w, opcodeOf w = op → decodeOp w = nop (low27Of w)) (ign : BitVec 27) :
    decodeWord (classNone op ign) = nop ign := by
  have hopcode := opcodeOf_classNone op ign
  rw [decodeWord_of_opcodeOf_ne_zero (by rwa [hopcode]), hrow _ hopcode, low27Of_classNone]

theorem decodeWord_encode {i : Instr} (h : i.wellFormed = true) : decodeWord (encode i) = i := by
  cases i with
  | halt => rfl
  | add rd rs1 rs2 ign => exact decodeWord_classA_add rd rs1 rs2 ign
  | sub rd rs1 rs2 ign => exact decodeWord_classA_sub rd rs1 rs2 ign
  | addi rd rs1 imm => exact decodeWord_classB_addi rd rs1 imm
  | ldi rd imm => exact decodeWord_classD_ldi rd imm
  | load rd rs1 ign imm => exact decodeWord_classA_load rd rs1 ign imm
  | str rsd rs1 ign imm => exact decodeWord_classA_str rsd rs1 ign imm
  | bc cc ra rb disp => exact decodeWord_classC_bc cc ra rb disp
  | j ign disp => exact decodeWord_classD_j ign disp
  | nopOp0 ign => exact decodeWord_classNone_zero (by simpa [Instr.wellFormed] using h)
  | _ ign => exact decodeWord_classNone (by decide) (fun _ hw => by simp [decodeOp, hw]) ign

/-- Settles O1: each class word gives its fields back, and the table's row is read as that word. -/
theorem decodeOfEncode : Obligations.DecodeOfEncode := fun _ h =>
  ⟨decodeWord_encode h, (decodeTableWord_toNat _).trans (congrArg some (decodeWord_encode h))⟩

/-! ### Encoding inverts decoding (log 9) -/

theorem opcodeOf_eq {w : Word} {n : Nat} (h : (opcodeOf w).toNat = n) : opcodeOf w = BitVec.ofNat 5 n := by
  rw [← h, BitVec.ofNat_toNat, BitVec.setWidth_eq]

/-- The lookup keeps every bit: the word is rebuilt from its opcode and its fields. -/
theorem encode_decodeOp (w : Word) : encode (decodeOp w) = w := by
  rw [decodeOp]
  split
  case h_2 h | h_3 h | h_6 h | h_7 h => exact (opcodeOf_eq h ▸ classA_fields w :)
  case h_4 h => exact (opcodeOf_eq h ▸ classB_fields w :)
  case h_8 h =>
    have hword := classC_fields w
    rw [opcodeOf_eq h, ← Cond.toBits_ofBits (cndOf w)] at hword
    exact hword
  case h_5 h | h_9 h => exact (opcodeOf_eq h ▸ classD_fields w :)
  case h_32 =>
    have hlt := (opcodeOf w).isLt
    have h : (opcodeOf w).toNat = 31 := by grind
    exact (opcodeOf_eq h ▸ classNone_fields w :)
  all_goals
    rename_i h
    exact (opcodeOf_eq h ▸ classNone_fields w :)

theorem encode_decodeWord (w : Word) : encode (decodeWord w) = w := by
  by_cases h : w = haltWord
  · rw [(decodeWord_halt_iff w).2 h, h]
    rfl
  · rw [decodeWord_of_ne h, encode_decodeOp]

/-- The one ill-formed term is the NOP whose word would be the sentinel (R102). -/
theorem wellFormed_of_encode_ne {i : Instr} (h : encode i ≠ haltWord) : i.wellFormed = true := by
  cases i with
  | nopOp0 ign =>
    refine bne_iff_ne.2 fun hzero => h ?_
    rw [hzero]
    rfl
  | _ => rfl

theorem wellFormed_decodeWord (w : Word) : (decodeWord w).wellFormed = true := by
  by_cases h : w = haltWord
  · rw [(decodeWord_halt_iff w).2 h]
    rfl
  · exact wellFormed_of_encode_ne (by rwa [encode_decodeWord])

/-- Settles O2: a word is rebuilt from its fields, and only the sentinel would need the ill-formed term. -/
theorem encodeOfDecode : Obligations.EncodeOfDecode := fun w => ⟨encode_decodeWord w, wellFormed_decodeWord w⟩

/-- Settles O3: a concatenation is a sum, each field counted from the width of what stands to its right. -/
theorem classWords : Obligations.ClassWords := by
  refine ⟨fun op f1 f2 f3 imm => ?_, fun op f1 f2 imm => ?_, fun op f1 f2 cnd imm => ?_, fun op f1 imm => ?_,
    fun _ _ _ _ => ⟨rfl, rfl, rfl, rfl⟩, fun _ _ _ => rfl, fun _ _ _ _ => rfl, fun _ _ => ⟨rfl, rfl⟩,
    by decide, by decide, by decide⟩
  · simp only [classA, toNat_append_add]
    omega
  · simp only [classB, toNat_append_add]
    omega
  · simp only [classC, toNat_append_add]
    omega
  · simp only [classD, toNat_append_add]
    omega

/-- Settles O8: the sentinel is tested first, and what is left of opcode 0 is well formed. -/
theorem sentinelIsAWholeWord : Obligations.SentinelIsAWholeWord := by
  refine ⟨decodeWord_halt_iff, decodeOp_ne_halt, fun w hw hop => ⟨low27Of w, ?_, ?_⟩⟩
  all_goals
    have hnop : decodeWord w = .nopOp0 (low27Of w) := by
      rw [decodeWord_of_ne hw]
      simp only [decodeOp, ← opNumber_eq_toNat, hop]
  · have hwf := wellFormed_decodeWord w
    rw [hnop] at hwf
    exact bne_iff_ne.1 hwf
  · exact hnop

/-- Settles O4: the decoder evaluated on the written words. -/
theorem writtenWordsDecode : Obligations.WrittenWordsDecode := by
  unfold Obligations.WrittenWordsDecode
  decide

end Sys2Proof.Machine
end

section
/-! The memory view (20_memory.md R64 to R81): a call of the hierarchy keeps the cache and RAM sound and shows through
the architectural memory view as the request it serves and as nothing else. -/

namespace Sys2Proof.Machine

open Sys2Proof.Claims

/-! ### What the memory view depends on -/

/-- `t` has the memory of `s`: the same configuration, cache mode, RAM and lines. -/
structure SameMemory (s t : State) : Prop where
  cfg : t.cfg = s.cfg
  enabled : t.cacheEnabled = s.cacheEnabled
  ram : t.ram = s.ram
  lines : t.lines = s.lines

namespace SameMemory

variable {s t u : State}

theorem trans (h : SameMemory s t) (k : SameMemory t u) : SameMemory s u :=
  ⟨k.cfg.trans h.cfg, k.enabled.trans h.enabled, k.ram.trans h.ram, k.lines.trans h.lines⟩

theorem lineAt_eq (h : SameMemory s t) (k : Nat) : lineAt t k = lineAt s k := by
  rw [lineAt, lineAt, h.cfg, h.lines]

theorem hitAt_eq (h : SameMemory s t) (a : Nat) : hitAt t a = hitAt s a := by
  rw [hitAt, hitAt, h.cfg, h.lineAt_eq]

theorem dirtyVictim_eq (h : SameMemory s t) (a : Nat) : dirtyVictim t a = dirtyVictim s a := by
  rw [dirtyVictim, dirtyVictim, h.cfg, h.lineAt_eq]

theorem amem_eq (h : SameMemory s t) (a : Nat) : amem t a = amem s a := by
  rw [amem, amem, cachedWord, cachedWord, h.enabled, h.hitAt_eq, h.cfg, h.lineAt_eq, h.ram]

theorem memoryOk (h : SameMemory s t) (hm : MemoryOk s) : MemoryOk t := by
  obtain ⟨legal, ⟨canonical, inside⟩, ⟨count, width, block, clean, disabled⟩⟩ := hm
  constructor
  · rwa [h.cfg]
  · constructor
    · rwa [h.ram]
    · rwa [h.ram, h.cfg]
  · constructor
    · rwa [h.lines, h.cfg]
    · rwa [h.lines, h.cfg]
    · simpa only [h.cfg, h.lineAt_eq] using block
    · simpa only [h.cfg, h.lineAt_eq, h.ram] using clean
    · rwa [h.enabled, h.lines, h.cfg]

end SameMemory

/-- The cache is enabled, and its lines and RAM are sound. -/
structure CachedOk (s : State) : Prop where
  memory : MemoryOk s
  enabled : s.cacheEnabled = true

theorem SameMemory.cachedOk {s t : State} (h : SameMemory s t) (hc : CachedOk s) : CachedOk t :=
  ⟨h.memoryOk hc.memory, h.enabled.trans hc.enabled⟩

theorem amem_of_hit {s : State} (he : s.cacheEnabled = true) {a : Nat} (h : hitAt s a = true) :
    amem s a = cachedWord s a := by
  simp [amem, he, h]

theorem amem_of_miss {s : State} {a : Nat} (h : hitAt s a = false) : amem s a = s.ram.read a := by
  simp [amem, h]

/-! ### The addresses of a line (R62, R63) -/

/-- Every address of the block that line `k` holds under tag `t` has that line index, that tag, and its place in the
block as offset. -/
theorem address_of_block {c : Config} {k t b : Nat} (hk : k < c.cacheLines) (hlo : blockBase c t k ≤ b)
    (hhi : b < blockBase c t k + c.wordsPerLine) :
    lineIndex c b = k ∧ tagOf c b = t ∧ offsetOf c b = b - blockBase c t k := by
  have hbase : blockBase c t k = (t * c.cacheLines + k) * c.wordsPerLine := (Nat.add_mul ..).symm
  have hdiv : b / c.wordsPerLine = t * c.cacheLines + k :=
    Nat.div_eq_of_lt_le (hbase ▸ hlo) (by rw [Nat.add_mul, Nat.one_mul, ← hbase]; exact hhi)
  have hmod := Nat.div_add_mod' b c.wordsPerLine
  refine ⟨?_, ?_, ?_⟩
  · rw [lineIndex, hdiv, Nat.add_comm, Nat.add_mul_mod_self_right, Nat.mod_eq_of_lt hk]
  · rw [tagOf, Nat.mul_comm, ← Nat.div_div_eq_div_mul, hdiv, Nat.mul_comm, Nat.mul_add_div (by omega),
      Nat.div_eq_of_lt hk, Nat.add_zero]
  · rw [hdiv, ← hbase] at hmod
    unfold offsetOf
    omega

theorem hitAt_iff {s : State} {a : Nat} : hitAt s a = true ↔
    (lineAt s (lineIndex s.cfg a)).valid = true ∧ (lineAt s (lineIndex s.cfg a)).tag = tagOf s.cfg a := by
  simp only [hitAt, Bool.and_eq_true, beq_iff_eq]

theorem dirtyVictim_iff {s : State} {a : Nat} : dirtyVictim s a = true ↔
    (lineAt s (lineIndex s.cfg a)).valid = true ∧ (lineAt s (lineIndex s.cfg a)).dirty = true := by
  simp only [dirtyVictim, Bool.and_eq_true]

/-- Every address in the block of a valid line hits. -/
theorem hitAt_of_block {s : State} {k b : Nat} (hk : k < s.cfg.cacheLines) (hvalid : (lineAt s k).valid = true)
    (hlo : blockBase s.cfg (lineAt s k).tag k ≤ b)
    (hhi : b < blockBase s.cfg (lineAt s k).tag k + s.cfg.wordsPerLine) : hitAt s b = true := by
  obtain ⟨hindex, htag, -⟩ := address_of_block hk hlo hhi
  rw [hitAt_iff, hindex]
  exact ⟨hvalid, htag.symm⟩

/-- A hit in a line that is not dirty answers RAM's word (R77 b). -/
theorem cachedWord_of_clean {s : State} (hm : MemoryOk s) {a : Nat} (h : hitAt s a = true)
    (hclean : (lineAt s (lineIndex s.cfg a)).dirty = false) : cachedWord s a = s.ram.read a := by
  obtain ⟨hvalid, htag⟩ := hitAt_iff.1 h
  have hword := hm.cache.clean _ (lineIndex_lt hm.legal a) hvalid hclean _ (offsetOf_lt hm.legal a)
  rwa [htag, blockBase_of_address, baseOf_add_offsetOf] at hword

/-! ### The three updates of the cache keep memory sound (R66 to R68) -/

/-- A line stored keeps memory sound if it fits its place, its block lies in RAM and it is dirty or equals RAM. -/
theorem CachedOk.setLine {s : State} (hc : CachedOk s) {k : Nat} (hk : k < s.lines.length) {l : Line}
    (hwidth : l.data.length = s.cfg.wordsPerLine)
    (hinside : l.valid = true → blockBase s.cfg l.tag k + s.cfg.wordsPerLine ≤ s.cfg.ramWords)
    (hclean : l.valid = true → l.dirty = false → ∀ j < s.cfg.wordsPerLine,
      l.data.getD j 0 = s.ram.read (blockBase s.cfg l.tag k + j)) : CachedOk (setLine s k l) := by
  obtain ⟨⟨legal, ⟨canonical, inside⟩, ⟨count, width, block, clean, -⟩⟩, enabled⟩ := hc
  refine ⟨⟨legal, ⟨canonical, inside⟩, ⟨?_, fun m hm => ?_, fun j hj => ?_, fun j hj => ?_, fun h => ?_⟩⟩, enabled⟩
  · rw [setLine_lines, List.length_set]
    exact count
  · rcases List.mem_or_eq_of_mem_set hm with hm | rfl
    · exact width m hm
    · exact hwidth
  · rw [lineAt_setLine s k j l hk]
    split
    case isTrue h => rw [h]; exact hinside
    case isFalse => exact block j hj
  · rw [lineAt_setLine s k j l hk]
    split
    case isTrue h => rw [h]; exact hclean
    case isFalse => exact clean j hj
  · exact absurd (enabled.symm.trans h) Bool.true_eq_false.mp

/-- Writing a dirty line's words to its block keeps memory sound: the block is in RAM, and no other line holds it. -/
theorem CachedOk.writeBack {s : State} (hc : CachedOk s) {k : Nat} (hk : k < s.lines.length)
    (hvalid : (lineAt s k).valid = true) (hdirty : (lineAt s k).dirty = true) :
    CachedOk { s with ram := s.ram.writeBlock (blockBase s.cfg (lineAt s k).tag k) (lineAt s k).data } := by
  have hwidth := lineAt_data_length hc.memory hk
  have hread := Memory.read_writeBlock hc.memory.ram.canonical (blockBase s.cfg (lineAt s k).tag k) (lineAt s k).data
  obtain ⟨⟨legal, ⟨canonical, inside⟩, ⟨count, width, block, clean, disabled⟩⟩, enabled⟩ := hc
  refine ⟨⟨legal, ⟨Memory.wf_writeBlock canonical _ _, fun c hmem => ?_⟩,
    ⟨count, width, block, fun j hj hvalid' hclean' i hi => ?_, disabled⟩⟩, enabled⟩
  · rcases Memory.mem_writeBlock hmem with hmem | ⟨-, hhi⟩
    · exact inside c hmem
    · have hblock := block k (count ▸ hk) hvalid
      exact Nat.lt_of_lt_of_le hhi (hwidth ▸ hblock)
  · have hne : j ≠ k := by
      rintro rfl
      exact absurd (hclean'.symm.trans hdirty) Bool.false_ne_true
    refine (clean j hj hvalid' hclean' i hi).trans (Eq.symm ((hread _).trans (if_neg fun ⟨hlo, hhi⟩ => hne ?_)))
    obtain ⟨hindex, -⟩ := address_of_block (count ▸ hk) hlo (hwidth ▸ hhi)
    obtain ⟨hindex', -⟩ := address_of_block hj (Nat.le_add_right _ i) (Nat.add_lt_add_left hi _)
    exact hindex'.symm.trans hindex

/-- The flush of a dirty line keeps memory sound (R68). -/
theorem CachedOk.flushLine {s : State} (hc : CachedOk s) {k : Nat} (hk : k < s.lines.length)
    (hvalid : (lineAt s k).valid = true) (hdirty : (lineAt s k).dirty = true) : CachedOk (flushLine s k) := by
  have hwidth := lineAt_data_length hc.memory hk
  refine (hc.writeBack hk hvalid hdirty).setLine hk hwidth (hc.memory.cache.inside k (hc.memory.cache.count ▸ hk))
    fun _ _ j hj => ?_
  have hread := Memory.read_writeBlock hc.memory.ram.canonical (blockBase s.cfg (lineAt s k).tag k) (lineAt s k).data
    (blockBase s.cfg (lineAt s k).tag k + j)
  rw [if_pos ⟨Nat.le_add_right _ j, by rw [hwidth]; exact Nat.add_lt_add_left hj _⟩, Nat.add_sub_cancel_left] at hread
  exact hread.symm

/-- The fill of a line from RAM keeps memory sound (R67). -/
theorem CachedOk.fillLine {s : State} (hc : CachedOk s) {a : Nat} (ha : a < s.cfg.ramWords) :
    CachedOk (fillLine s a) := by
  refine hc.setLine (lineIndex_lt_lines hc.memory a) (Memory.length_readBlock ..) (fun _ => ?_) fun _ _ j hj => ?_
  · simp only [blockBase_of_address]
    exact baseOf_block_inside hc.memory.legal ha
  · simp only [blockBase_of_address]
    exact Memory.readBlock_getD _ _ _ _ hj

/-- A write to a cached word keeps memory sound: the line becomes dirty (R66). -/
theorem CachedOk.writeCachedWord {s : State} (hc : CachedOk s) (a : Nat) (v : Word) :
    CachedOk (writeCachedWord s a v) := by
  have hk := lineIndex_lt_lines hc.memory a
  refine hc.setLine hk ?_ (hc.memory.cache.inside _ (lineIndex_lt hc.memory.legal a)) fun _ h => absurd h nofun
  rw [List.length_set]
  exact lineAt_data_length hc.memory hk

/-! ### The flush and the fill do not show in the memory view (R78, R80) -/

/-- What a flush writes to RAM is what the line already answers. -/
theorem amem_flushLine {s : State} (hc : CachedOk s) {k : Nat} (hk : k < s.lines.length)
    (hvalid : (lineAt s k).valid = true) (b : Nat) : amem (flushLine s k) b = amem s b := by
  have hline := lineAt_flushLine hk
  have hhit : hitAt (flushLine s k) b = hitAt s b := by
    rw [hitAt, hitAt, flushLine_cfg, hline]
    split <;> rfl
  cases hb : hitAt s b with
  | true =>
    rw [amem_of_hit (s := flushLine s k) hc.enabled (hhit.trans hb), amem_of_hit hc.enabled hb, cachedWord, cachedWord,
      flushLine_cfg, hline]
    split <;> rfl
  | false =>
    rw [amem_of_miss (hhit.trans hb), amem_of_miss hb, flushLine_ram,
      Memory.read_writeBlock hc.memory.ram.canonical, if_neg]
    rintro ⟨hlo, hhi⟩
    rw [lineAt_data_length hc.memory hk] at hhi
    have hin := hitAt_of_block (hc.memory.cache.count ▸ hk) hvalid hlo hhi
    exact absurd (hb.symm.trans hin) Bool.false_ne_true

theorem hitAt_fillLine {s : State} {a : Nat} (hk : lineIndex s.cfg a < s.lines.length) (b : Nat) :
    hitAt (fillLine s a) b =
      if lineIndex s.cfg b = lineIndex s.cfg a then tagOf s.cfg a == tagOf s.cfg b else hitAt s b := by
  rw [hitAt, hitAt, fillLine_cfg, lineAt_fillLine hk]
  split
  · rw [Bool.true_and]
  · rfl

/-- A line filled in place of one that is not dirty: the words it brings and the words it takes are RAM's. -/
theorem amem_fillLine {s : State} (hc : CachedOk s) {a : Nat} (hvictim : dirtyVictim s a = false)
    (b : Nat) : amem (fillLine s a) b = amem s b := by
  have hk := lineIndex_lt_lines hc.memory a
  have hhit := hitAt_fillLine hk b
  by_cases hline : lineIndex s.cfg b = lineIndex s.cfg a
  · have hram : amem s b = s.ram.read b := by
      cases hb : hitAt s b with
      | false => exact amem_of_miss hb
      | true =>
        obtain ⟨hvalid, -⟩ := hitAt_iff.1 hb
        have hclean : (lineAt s (lineIndex s.cfg b)).dirty = false := by
          rw [hline] at hvalid ⊢
          simpa [dirtyVictim, hvalid] using hvictim
        rw [amem_of_hit hc.enabled hb, cachedWord_of_clean hc.memory hb hclean]
    rw [if_pos hline] at hhit
    by_cases htag : tagOf s.cfg a = tagOf s.cfg b
    · rw [hram, amem_of_hit (s := fillLine s a) hc.enabled (hhit.trans (beq_iff_eq.2 htag)), cachedWord, fillLine_cfg,
        lineAt_fillLine hk, if_pos hline]
      have hbase : baseOf s.cfg a = baseOf s.cfg b := by
        rw [← blockBase_of_address, ← blockBase_of_address, hline, htag]
      simp only
      rw [Memory.readBlock_getD _ _ _ _ (offsetOf_lt hc.memory.legal b), hbase, baseOf_add_offsetOf]
    · rw [hram, amem_of_miss (hhit.trans (beq_eq_false_iff_ne.2 htag)), fillLine_ram]
  · rw [if_neg hline] at hhit
    rw [amem, amem, hhit, cachedWord, cachedWord, fillLine_cfg, lineAt_fillLine hk, if_neg hline, fillLine_ram]
    rfl

/-! ### Completion and acceptance (R64, R66 to R71) -/

/-- The reply `o` and the state `t` answer the request `q` in the memory view of `s` (R80). -/
structure Answers (s : State) (q : Request) (t : State) (o : Reply) : Prop where
  read : ∀ w, o = .done w → q.kind = .read → w = amem s q.addr
  view : ∀ a, amem t a = if q.kind = .write ∧ o ≠ .wait ∧ a = q.addr then q.value else amem s a

theorem Answers.wait {s t : State} (h : ∀ a, amem t a = amem s a) (q : Request) : Answers s q t .wait :=
  ⟨nofun, fun a => (h a).trans (if_neg fun ⟨_, hne, _⟩ => hne rfl).symm⟩

theorem Answers.of_read {s t : State} {q : Request} (hq : q.kind = .read) (h : ∀ a, amem t a = amem s a) :
    Answers s q t (.done (amem s q.addr)) := by
  refine ⟨?_, fun a => (h a).trans (if_neg fun ⟨hw, _⟩ => ?_).symm⟩
  · rintro _ ⟨⟩ -
    rfl
  · exact absurd (hq.symm.trans hw) nofun

theorem Answers.of_write {s t : State} {q : Request} (hq : q.kind = .write)
    (h : ∀ a, amem t a = if a = q.addr then q.value else amem s a) (w : Word) : Answers s q t (.done w) :=
  ⟨fun _ _ hr => absurd (hq.symm.trans hr) nofun, fun a => (h a).trans (by simp [hq])⟩

/-- An answer is judged by the view the request found. -/
theorem Answers.congr {s s' t : State} {q : Request} {o : Reply} (h : Answers s' q t o)
    (hview : ∀ a, amem s' a = amem s a) : Answers s q t o :=
  ⟨fun w hw hq => (h.read w hw hq).trans (hview _), fun a => (h.view a).trans (by rw [hview])⟩

/-- Completing an access to `a` would overwrite no dirty line. -/
def NothingToFlush (s : State) (a : Nat) : Prop := hitAt s a = false → dirtyVictim s a = false

theorem SameMemory.nothingToFlush {s t : State} (h : SameMemory s t) {a : Nat} (hn : NothingToFlush s a) :
    NothingToFlush t a := by
  rwa [NothingToFlush, h.hitAt_eq, h.dirtyVictim_eq]

/-- The service of a word whose line is in place (R66). -/
theorem serviceWord_answers {s : State} (hc : CachedOk s) {q : Request} (hhit : hitAt s q.addr = true) :
    CachedOk (serviceWord s q).1 ∧ Answers s q (serviceWord s q).1 (serviceWord s q).2 := by
  cases hq : q.kind with
  | read =>
    rw [serviceWord_read hq, ← amem_of_hit hc.enabled hhit]
    exact ⟨hc, .of_read hq fun _ => rfl⟩
  | write =>
    rw [serviceWord_write hq]
    refine ⟨hc.writeCachedWord _ _, .of_write hq (fun a => ?_) 0⟩
    rw [← memWrite_cached (by rw [hc.enabled, hhit, Bool.true_and]), amem_memWrite hc.memory]

/-- Completion answers the request, after a fill that does not show if there is nothing to flush (R71). -/
theorem completeAccess_answers {s : State} (hc : CachedOk s) {q : Request} (ha : q.addr < s.cfg.ramWords)
    (hn : NothingToFlush s q.addr) :
    CachedOk (completeAccess s q).1 ∧ Answers s q (completeAccess s q).1 (completeAccess s q).2 := by
  cases hhit : hitAt s q.addr with
  | true =>
    rw [completeAccess_of_hit hhit]
    exact serviceWord_answers hc hhit
  | false =>
    have hfilled : hitAt (fillLine s q.addr) q.addr = true := by
      rw [hitAt_fillLine (lineIndex_lt_lines hc.memory _), if_pos rfl, beq_self_eq_true]
    obtain ⟨hok, hanswers⟩ := serviceWord_answers (hc.fillLine ha) hfilled
    rw [completeAccess_of_miss hhit]
    exact ⟨hok, hanswers.congr (amem_fillLine hc (hn hhit))⟩

/-- Acceptance flushes what the fill would overwrite, and the flush does not show (R68, R78). -/
theorem countAccess_keeps {s : State} (hc : CachedOk s) (a : Nat) :
    CachedOk (countAccess s a) ∧ (∀ b, amem (countAccess s a) b = amem s b) ∧ NothingToFlush (countAccess s a) a := by
  have hk := lineIndex_lt_lines hc.memory a
  unfold countAccess
  split
  case isTrue hhit =>
    have hsame : SameMemory s { s with hits := s.hits + 1 } := ⟨rfl, rfl, rfl, rfl⟩
    exact ⟨hsame.cachedOk hc, hsame.amem_eq, fun hmiss => absurd ((hsame.hitAt_eq a).symm.trans hmiss) (by simp [hhit])⟩
  case isFalse =>
    split
    case isTrue hvictim =>
      obtain ⟨hvalid, hdirty⟩ := dirtyVictim_iff.1 hvictim
      have hsame : SameMemory (flushLine s (lineIndex s.cfg a))
          { flushLine s (lineIndex s.cfg a) with misses := s.misses + 1 } := ⟨rfl, rfl, rfl, rfl⟩
      refine ⟨hsame.cachedOk (hc.flushLine hk hvalid hdirty),
        fun b => (hsame.amem_eq b).trans (amem_flushLine hc hk hvalid b), fun _ => ?_⟩
      rw [hsame.dirtyVictim_eq, dirtyVictim, flushLine_cfg, lineAt_flushLine hk, if_pos rfl, Bool.and_false]
    case isFalse hvictim =>
      have hsame : SameMemory s { s with misses := s.misses + 1 } := ⟨rfl, rfl, rfl, rfl⟩
      exact ⟨hsame.cachedOk hc, hsame.amem_eq,
        fun _ => (hsame.dirtyVictim_eq a).trans (Bool.eq_false_iff.2 hvictim)⟩

/-! ### The port after an access (R31 f, R69, R70) -/

theorem portOk_free {s : State} (he : s.cacheEnabled = true) (hp : s.port = none) : PortOk s :=
  ⟨fun h => absurd (he.symm.trans h) nofun, by simp [hp], by simp [hp]⟩

theorem portOk_held {s : State} (he : s.cacheEnabled = true) {p : Access} (hp : s.port = some p) (hcount : 1 ≤ p.count)
    (ha : p.pending.addr < s.cfg.ramWords) (hn : NothingToFlush s p.pending.addr) : PortOk s := by
  refine ⟨fun h => absurd (he.symm.trans h) nofun, ?_, ?_⟩
  · rintro _ hp'
    cases hp.symm.trans hp'
    exact ⟨hcount, ha⟩
  · rintro _ hp' hmiss hvalid
    cases hp.symm.trans hp'
    simpa [dirtyVictim, hvalid] using hn hmiss

theorem PortOk.nothingToFlush {s : State} (h : PortOk s) {p : Access} (hp : s.port = some p) :
    NothingToFlush s p.pending.addr := by
  intro hmiss
  refine Bool.eq_false_iff.2 fun hvictim => ?_
  obtain ⟨hvalid, hdirty⟩ := dirtyVictim_iff.1 hvictim
  exact absurd ((h.victim p hp hmiss hvalid).symm.trans hdirty) Bool.false_ne_true

/-- What an access leaves: memory and port sound, and the request answered in the memory view. -/
structure Served (s : State) (q : Request) (t : State) (o : Reply) : Prop where
  memory : MemoryOk t
  port : PortOk t
  answers : Answers s q t o

/-- Completion with the port free. -/
theorem completeAccess_served {s : State} (hc : CachedOk s) (hp : s.port = none) {q : Request}
    (ha : q.addr < s.cfg.ramWords) (hn : NothingToFlush s q.addr) :
    Served s q (completeAccess s q).1 (completeAccess s q).2 := by
  obtain ⟨hok, hanswers⟩ := completeAccess_answers hc ha hn
  exact ⟨hok.memory, portOk_free hok.enabled ((completeAccess_port s q).trans hp), hanswers⟩

/-- Acceptance with the port free: the request waits at the port, or is completed at once (R64). -/
theorem acceptRequest_served {s : State} (hc : CachedOk s) (hp : s.port = none) {q : Request}
    (ha : q.addr < s.cfg.ramWords) (stage : Requester) :
    Served s q (acceptRequest s q stage).1 (acceptRequest s q stage).2 := by
  obtain ⟨hok, hview, hn⟩ := countAccess_keeps hc q.addr
  have hcfg : (countAccess s q.addr).cfg = s.cfg := by rw [countAccess_same]
  rw [← hcfg] at ha
  by_cases hd : delayOf s q.addr = 0
  · rw [acceptRequest, if_pos hd]
    obtain ⟨hmemory, hport, hanswers⟩ :=
      completeAccess_served hok ((countAccess_port s q.addr).trans hp) ha hn
    exact ⟨hmemory, hport, hanswers.congr hview⟩
  · rw [acceptRequest, if_neg hd]
    have hsame (p : Access) : SameMemory (countAccess s q.addr) { countAccess s q.addr with port := some p } :=
      ⟨rfl, rfl, rfl, rfl⟩
    exact ⟨(hsame _).memoryOk hok.memory,
      portOk_held hok.enabled rfl (Nat.one_le_iff_ne_zero.2 hd) ha ((hsame _).nothingToFlush hn),
      .wait (fun b => ((hsame _).amem_eq b).trans (hview b)) q⟩

/-- With the cache disabled the request is done against RAM, which is the memory view (R65, R80). -/
theorem access_disabled_served {s : State} (hm : MemoryOk s) (hp : PortOk s) (he : s.cacheEnabled = false) {q : Request}
    (ha : q.addr < s.cfg.ramWords) (stage : Requester) :
    Served s q (access s q stage).1 (access s q stage).2 := by
  rw [access_disabled he]
  cases hq : q.kind with
  | read =>
    refine ⟨hm, hp, ?_⟩
    rw [← amem_disabled he]
    exact .of_read hq fun _ => rfl
  | write =>
    have hreset (k : Nat) : (lineAt s k).valid = false := by
      rw [lineAt, List.getD_eq_getElem?_getD]
      cases hget : s.lines[k]? with
      | none => rfl
      | some l => rw [Option.getD_some, hm.cache.disabled he l (List.mem_of_getElem? hget)]; rfl
    obtain ⟨legal, ⟨canonical, inside⟩, ⟨count, width, block, -, disabled⟩⟩ := id hm
    refine ⟨⟨legal, ⟨Memory.wf_write canonical _ _, fun c hc => ?_⟩,
      ⟨count, width, block, fun k _ hvalid => absurd ((hreset k).symm.trans hvalid) Bool.false_ne_true, disabled⟩⟩,
      ⟨hp.disabled, hp.counting, hp.victim⟩, .of_write hq (fun a => ?_) 0⟩
    · rcases Memory.mem_write hc with hc | ⟨rfl, -⟩
      · exact inside c hc
      · exact ha
    · rw [← memWrite_uncached (by rw [he, Bool.false_and]), amem_memWrite hm]

/-- Every access of a sound hierarchy inside RAM is served. -/
theorem access_served {s : State} (hm : MemoryOk s) (hp : PortOk s) {q : Request} (ha : q.addr < s.cfg.ramWords)
    (stage : Requester) : Served s q (access s q stage).1 (access s q stage).2 := by
  cases he : s.cacheEnabled with
  | false => exact access_disabled_served hm hp he ha stage
  | true =>
    have hc : CachedOk s := ⟨hm, he⟩
    have hsame (port : Option Access) : SameMemory s { s with port := port } := ⟨rfl, rfl, rfl, rfl⟩
    unfold access
    rw [if_pos he]
    split
    case h_1 hfree => exact acceptRequest_served hc hfree ha stage
    case h_2 p hport =>
      split
      case isTrue refused => exact ⟨hm, hp, .wait (fun _ => rfl) q⟩
      case isFalse howner =>
        obtain rfl := not_not.1 howner
        split
        case isTrue changed =>
          rw [abort_eq]
          obtain ⟨hmemory, hport', hanswers⟩ :=
            acceptRequest_served ((hsame _).cachedOk hc) (abort_owner_port hport) ha p.owner
          exact ⟨hmemory, hport', hanswers.congr (hsame _).amem_eq⟩
        case isFalse same =>
          obtain rfl := not_not.1 same
          obtain ⟨hcount, -⟩ := hp.counting p hport
          split
          case isTrue =>
            obtain ⟨hmemory, hport', hanswers⟩ := completeAccess_served ((hsame none).cachedOk hc) rfl ha
              ((hsame none).nothingToFlush (hp.nothingToFlush hport))
            exact ⟨hmemory, hport', hanswers.congr (hsame none).amem_eq⟩
          case isFalse waits =>
            have hn := hp.nothingToFlush hport
            exact ⟨(hsame _).memoryOk hm,
              portOk_held he rfl (Nat.one_le_iff_ne_zero.2 waits) ha ((hsame _).nothingToFlush hn),
              .wait (hsame _).amem_eq p.pending⟩

/-- Settles O47: acceptance flushes and completion fills without a trace in the view; the service of the word is the
view's own read and write. -/
theorem hierarchyServesTheMemoryView : Obligations.HierarchyServesTheMemoryView := by
  intro s t q stage o hm hp ha haccess
  have hserved := access_served hm hp ha stage
  rw [haccess] at hserved
  exact ⟨hserved.memory, hserved.answers.read, hserved.answers.view⟩

/-! ### Counting, changing and aborting requests (R73 to R75) -/

/-- Exactly one of the two counters of the hierarchy has moved, by one. -/
def CountedOnce (s t : State) : Prop :=
  (t.hits = s.hits + 1 ∧ t.misses = s.misses) ∨ (t.hits = s.hits ∧ t.misses = s.misses + 1)

/-- Neither counter of the hierarchy has moved. -/
def NotCounted (s t : State) : Prop := t.hits = s.hits ∧ t.misses = s.misses

theorem countAccess_countedOnce (s : State) (a : Nat) : CountedOnce s (countAccess s a) := by
  unfold countAccess
  split
  · exact .inl ⟨rfl, rfl⟩
  · split
    · exact .inr ⟨rfl, rfl⟩
    · exact .inr ⟨rfl, rfl⟩

theorem completeAccess_notCounted (s : State) (q : Request) : NotCounted s (completeAccess s q).1 :=
  ⟨completeAccess_hits s q, completeAccess_misses s q⟩

theorem acceptRequest_countedOnce (s : State) (q : Request) (stage : Requester) :
    CountedOnce s (acceptRequest s q stage).1 := by
  have hcounted := countAccess_countedOnce s q.addr
  unfold acceptRequest
  split
  · obtain ⟨hhits, hmisses⟩ := completeAccess_notCounted (countAccess s q.addr) q
    rwa [CountedOnce, hhits, hmisses]
  · exact hcounted

/-- The owner's re-issue of the request being counted down is not counted (R75). -/
theorem access_pending_notCounted {s : State} (he : s.cacheEnabled = true) {p : Access} (hp : s.port = some p) :
    NotCounted s (access s p.pending p.owner).1 := by
  unfold access
  rw [if_pos he, hp]
  dsimp only
  rw [if_neg (not_not.2 rfl), if_neg (not_not.2 rfl)]
  split
  · exact completeAccess_notCounted { s with port := none } p.pending
  · exact ⟨rfl, rfl⟩

/-- The owner's other request is the acceptance of that request by a port set free (R73). -/
theorem access_changed {s : State} (he : s.cacheEnabled = true) {p : Access} (hp : s.port = some p) {q : Request}
    (hq : p.pending ≠ q) : access s q p.owner = acceptRequest (abort s p.owner) q p.owner := by
  unfold access
  simp only [he, hp, if_true, ne_eq, not_true_eq_false, if_false, hq, not_false_eq_true]

theorem abort_owner {s : State} {p : Access} (hp : s.port = some p) : abort s p.owner = { s with port := none } := by
  rw [abort_eq, abort_owner_port hp]

/-- Settles O45: only acceptance counts, and it counts once. -/
theorem requestsAreCountedOnce : Obligations.RequestsAreCountedOnce := by
  refine ⟨fun s q stage => acceptRequest_countedOnce (idle s) q stage, fun s p q stage => ⟨fun ho => ?_, ?_, ?_⟩⟩
  · rw [access_refused (s := { s with cacheEnabled := true, port := some p }) rfl rfl ho q]
    exact ⟨rfl, rfl⟩
  · rintro rfl rfl
    exact access_pending_notCounted (s := { s with cacheEnabled := true, port := some p }) rfl rfl
  · rintro rfl hq
    rw [access_changed (s := { s with cacheEnabled := true, port := some p }) rfl rfl hq, abort_owner rfl]
    exact acceptRequest_countedOnce (idle s) q p.owner

theorem memoryOk_idle {s : State} (hm : MemoryOk s) : CachedOk (idle s) := by
  obtain ⟨legal, ⟨canonical, inside⟩, ⟨count, width, block, clean, -⟩⟩ := hm
  exact ⟨⟨legal, ⟨canonical, inside⟩, ⟨count, width, block, clean, nofun⟩⟩, rfl⟩

/-- The request the owner of a sound port issues again is the pending one (R72, R73). -/
theorem pending_of_owner {s : State} (hinv : Inv s) {p : Access} (hp : s.port = some p) :
    (∀ f, p.owner = .fetch → s.slotF = some f →
      f.latched = .outstanding ∧ p.pending = { kind := .read, addr := f.addr.toNat, value := 0 }) ∧
    ∀ r, p.owner = .mem → s.slotM = .inFlight r →
      p.pending = { kind := if kindOf r.raw = .str then .write else .read, addr := r.result.toNat,
                    value := if kindOf r.raw = .str then r.op3 else 0 } := by
  refine ⟨fun f ho hF => ?_, fun r ho hM => ?_⟩
  · obtain ⟨f', hF', hL, -, hpending⟩ := hinv.owner.fetch p hp ho
    cases hF.symm.trans hF'
    exact ⟨hL, hpending⟩
  · obtain ⟨r', hM', -, ⟨hkind, hpending⟩ | ⟨hkind, hpending⟩⟩ := hinv.owner.mem p hp ho
    all_goals
      rw [hM] at hM'
      cases hM'
      rw [hpending, hkind]
      rfl

/-- Settles O44: an abort touches the port alone; what acceptance did before it does not show in the view. -/
theorem abortsAndChangedRequests : Obligations.AbortsAndChangedRequests := by
  refine ⟨fun s p q hq => ?_, fun s hinv =>
    ⟨fun p f hp ho hF => (pending_of_owner hinv hp).1 f ho hF,
      fun p r hp ho hM => (pending_of_owner hinv hp).2 r ho hM⟩,
    fun s p => abort_owner rfl, fun s p stage ho => ?_, fun _ _ => rfl, fun s q stage hm hd => ?_⟩
  · have hchanged := access_changed (s := { s with cacheEnabled := true, port := some p }) rfl rfl hq
    refine ⟨hchanged, ?_⟩
    rw [hchanged, abort_owner rfl]
    rfl
  · simp only [abort, ho, if_false]
  · obtain ⟨-, hview, -⟩ := countAccess_keeps (memoryOk_idle hm) q.addr
    have hcounted := countAccess_countedOnce s q.addr
    have habort : abort (access (idle s) q stage).1 stage = countAccess (idle s) q.addr := by
      rw [access_idle_delayed (by omega), countAccess_idle]
      exact abort_owner (s := portHeld (countAccess s q.addr) q stage (delayOf s q.addr)) rfl
    simp only [habort]
    refine ⟨countAccess_port (idle s) q.addr, ?_, hview⟩
    rw [countAccess_idle]
    rcases hcounted with ⟨hhits, hmisses⟩ | ⟨hhits, hmisses⟩
    · exact (congrArg₂ (· + ·) hhits hmisses).trans (by omega)
    · exact (congrArg₂ (· + ·) hhits hmisses).trans (by omega)

end Sys2Proof.Machine
end

section
/-! Soundness between two steps (10_state.md R31, 20_memory.md R77): each of the six parts of a step keeps it. -/

namespace Sys2Proof.Machine

open Sys2Proof.Claims

/-! ### What a sound state asks of the hierarchy -/

/-- RAM, the cache and the port are sound. -/
structure HierarchyOk (s : State) : Prop where
  memory : MemoryOk s
  port : PortOk s

theorem HierarchyOk.congr {s t : State} (h : HierarchyOk s) (hsame : SameMemory s t) (hhits : t.hits = s.hits)
    (hmisses : t.misses = s.misses) (hport : ∀ p, t.port = some p → s.port = some p) : HierarchyOk t := by
  obtain ⟨memory, disabled, counting, victim⟩ := h
  refine ⟨hsame.memoryOk memory, fun he => ?_, fun p hp => ?_, fun p hp => ?_⟩
  · obtain ⟨hnone, hh, hm⟩ := disabled (hsame.enabled.symm.trans he)
    refine ⟨?_, hhits.trans hh, hmisses.trans hm⟩
    cases ht : t.port with
    | none => rfl
    | some p => exact absurd (hnone.symm.trans (hport p ht)) nofun
  · rw [hsame.cfg]
    exact counting p (hport p hp)
  · rw [hsame.hitAt_eq, hsame.cfg, hsame.lineAt_eq]
    exact victim p (hport p hp)

theorem HierarchyOk.access {s t : State} (h : HierarchyOk s) {q : Request} (ha : q.addr < s.cfg.ramWords)
    {stage : Requester} {o : Reply} (haccess : access s q stage = (t, o)) : HierarchyOk t := by
  have hserved := access_served h.memory h.port ha stage
  rw [haccess] at hserved
  exact ⟨hserved.memory, hserved.port⟩

theorem Inv.hierarchy {s : State} (h : Inv s) : HierarchyOk s := ⟨⟨h.legal, h.ram, h.cache⟩, h.port⟩

/-! ### The port after a call of the hierarchy (R64, R69, R70) -/

theorem acceptRequest_wait_port {s t : State} {q : Request} {stage : Requester}
    (h : acceptRequest s q stage = (t, .wait)) : ∃ n, t.port = some { owner := stage, count := n, pending := q } := by
  unfold acceptRequest at h
  split at h
  · obtain ⟨w, hw⟩ := completeAccess_done (countAccess s q.addr) q
    rw [h] at hw
    exact absurd hw nofun
  · cases h
    exact ⟨_, rfl⟩

/-- A WAIT is a refusal, which changes nothing, or leaves the port to the request. -/
theorem access_wait_port {s t : State} {q : Request} {stage : Requester} (h : access s q stage = (t, .wait)) :
    (t = s ∧ ∃ p, s.port = some p ∧ p.owner ≠ stage) ∨
      ∃ n, t.port = some { owner := stage, count := n, pending := q } := by
  cases he : s.cacheEnabled with
  | false =>
    rw [access_disabled he] at h
    cases hq : q.kind <;> simp [hq] at h
  | true =>
    unfold access at h
    rw [if_pos he] at h
    split at h
    case h_1 => exact .inr (acceptRequest_wait_port h)
    case h_2 p hp =>
      split at h
      case isTrue ho =>
        cases h
        exact .inl ⟨rfl, p, hp, ho⟩
      case isFalse ho =>
        obtain rfl := not_not.1 ho
        split at h
        case isTrue => exact .inr (acceptRequest_wait_port h)
        case isFalse hq =>
          obtain rfl := not_not.1 hq
          split at h
          case isTrue =>
            obtain ⟨w, hw⟩ := completeAccess_done { s with port := none } p.pending
            rw [h] at hw
            exact absurd hw nofun
          case isFalse =>
            cases h
            exact .inr ⟨_, rfl⟩

/-- A DONE leaves the port free in either cache mode. -/
theorem PortOk.free_of_done {s t : State} (hp : PortOk s) {q : Request} {stage : Requester} {w : Word}
    (h : access s q stage = (t, .done w)) : t.port = none := by
  cases he : s.cacheEnabled with
  | true => exact access_done_port he h
  | false =>
    obtain ⟨hnone, -, -⟩ := hp.disabled he
    rw [access_disabled he] at h
    cases hq : q.kind with
    | read =>
      simp only [hq, Prod.mk.injEq] at h
      rw [← h.1, hnone]
    | write =>
      simp only [hq, Prod.mk.injEq] at h
      rw [← h.1]
      exact hnone

/-- What the hierarchy may have changed of a state, written out. -/
theorem SameButHierarchy.exists {s u : State} (h : SameButHierarchy s u) : ∃ ram lines port hits misses,
    u = { s with ram := ram, lines := lines, port := port, hits := hits, misses := misses } :=
  ⟨_, _, _, _, _, h⟩

/-! ### Records -/

section
variable {α : Type} {P : α → Prop}

theorem forall_record_empty : ∀ r ∈ (Slot.empty : Slot α).record?, P r := nofun

theorem forall_mem_none : ∀ r ∈ (none : Option α), P r := nofun

theorem forall_record_haltMarker : ∀ r ∈ (Slot.haltMarker : Slot α).record?, P r := nofun

theorem forall_record_inFlight {r : α} (h : P r) : ∀ r' ∈ (Slot.inFlight r).record?, P r' := by
  rintro _ ⟨⟩
  exact h

theorem record_of_inFlight {slot : Slot α} {r : α} (h : slot = .inFlight r) : r ∈ slot.record? := by
  rw [h]
  rfl

end

/-! ### The pipeline as a queue (R31) -/

/-- What occupies a slot; a latched halt counts as a marker (R31 c). -/
inductive Occupant where
  | none | marker | instr
  deriving DecidableEq

/-- What occupies a slot other than F. -/
def Slot.occupant {α : Type} : Slot α → Occupant
  | .empty => .none
  | .haltMarker => .marker
  | .inFlight _ => .instr

/-- What occupies F. -/
def fetchOccupant : Option FetchEntry → Occupant
  | none => .none
  | some f => if f.latched = .halt then .marker else .instr

/-- The occupants of W, M, X, D and F, numbered from the oldest. -/
def queue (w m x d f : Occupant) : Nat → Occupant
  | 0 => w
  | 1 => m
  | 2 => x
  | 3 => d
  | 4 => f
  | _ + 5 => .none

theorem queue_of_places {o : Nat → Occupant} (h : ∀ k, o (k + 5) = .none) :
    o = queue (o 0) (o 1) (o 2) (o 3) (o 4) := by
  funext k
  match k with
  | 0 | 1 | 2 | 3 | 4 => rfl
  | k + 5 => exact h k

/-- The slots of `s` as a queue. -/
def occupants (s : State) : Nat → Occupant :=
  queue s.slotW.occupant s.slotM.occupant s.slotX.occupant s.slotD.occupant (fetchOccupant s.slotF)

/-- R31 b, c and e, and R154, for a queue of occupants and the flags `fetchStopped`, `stopped` and
`pipelineEnabled`. -/
structure QueueOk (o : Nat → Occupant) (fetchStopped stopped pipelined : Bool) : Prop where
  behind : ∀ i j, i < j → o i = .marker → o j = .none
  fetchStopped : fetchStopped = true ↔ (∃ i, o i = .marker) ∨ stopped = true
  stoppedEmpty : stopped = true → ∀ i, o i = .none
  serial : pipelined = false → ∀ i j, o i ≠ .none → o j ≠ .none → i = j

/-- The queue `o` after the occupant of place `i + 1` has moved to place `i`. -/
def advanced (o : Nat → Occupant) (i : Nat) : Nat → Occupant := fun k =>
  if k = i then o (i + 1) else if k = i + 1 then .none else o k

/-- The queue `o` with the occupant `a` in place `i`. -/
def replaced (o : Nat → Occupant) (i : Nat) (a : Occupant) : Nat → Occupant := fun k => if k = i then a else o k

/-- The queue `o` with nothing from place `i` on. -/
def cutOff (o : Nat → Occupant) (i : Nat) : Nat → Occupant := fun k => if k < i then o k else .none

namespace QueueOk

variable {o : Nat → Occupant} {fetchStopped stopped pipelined : Bool} (h : QueueOk o fetchStopped stopped pipelined)
include h

/-- An occupant moves into a free place in front of it. -/
theorem advance {i : Nat} (hfree : o i = .none) : QueueOk (advanced o i) fetchStopped stopped pipelined := by
  obtain ⟨behind, fetching, empty, serial⟩ := h
  unfold advanced
  constructor <;> grind

/-- The oldest occupant, an instruction, leaves. -/
theorem retire (hinstr : o 0 = .instr) : QueueOk (replaced o 0 .none) fetchStopped stopped pipelined := by
  obtain ⟨behind, fetching, empty, serial⟩ := h
  unfold replaced
  constructor <;> grind

/-- The oldest occupant, a marker, leaves and stops the machine. -/
theorem stop (hmarker : o 0 = .marker) : QueueOk (replaced o 0 .none) fetchStopped true pipelined := by
  obtain ⟨behind, fetching, empty, serial⟩ := h
  unfold replaced
  constructor <;> grind

/-- What stands behind an instruction is dropped with it, and fetching starts again. -/
theorem squash {i : Nat} (hinstr : o i = .instr) : QueueOk (cutOff o i) false stopped pipelined := by
  obtain ⟨behind, fetching, empty, serial⟩ := h
  unfold cutOff
  constructor <;> grind

/-- The youngest occupant becomes a marker and fetching stops. -/
theorem halt {i : Nat} (hoccupied : o i ≠ .none) (hlast : ∀ j, i < j → o j = .none) :
    QueueOk (replaced o i .marker) true stopped pipelined := by
  obtain ⟨behind, fetching, empty, serial⟩ := h
  unfold replaced
  constructor <;> grind

/-- An instruction enters while fetching is allowed, alone if the machine is not pipelined. -/
theorem inject (hfetching : fetchStopped = false) {i : Nat} (hmode : pipelined = true ∨ ∀ j, o j = .none) :
    QueueOk (replaced o i .instr) fetchStopped stopped pipelined := by
  obtain ⟨behind, fetching, empty, serial⟩ := h
  unfold replaced
  constructor <;> grind

end QueueOk

/-! The moves of R153 to R172 on the five places. -/

section
variable {w m x d f : Occupant} {fetchStopped stopped pipelined : Bool}

theorem QueueOk.memory_to_writeback (h : QueueOk (queue .none m x d f) fetchStopped stopped pipelined) :
    QueueOk (queue m .none x d f) fetchStopped stopped pipelined := by
  have hmoved : advanced (queue .none m x d f) 0 = queue m .none x d f :=
    queue_of_places fun _ => rfl
  exact hmoved ▸ h.advance rfl

theorem QueueOk.execute_to_memory (h : QueueOk (queue w .none x d f) fetchStopped stopped pipelined) :
    QueueOk (queue w x .none d f) fetchStopped stopped pipelined := by
  have hmoved : advanced (queue w .none x d f) 1 = queue w x .none d f :=
    queue_of_places fun _ => rfl
  exact hmoved ▸ h.advance rfl

theorem QueueOk.decode_to_execute (h : QueueOk (queue w m .none d f) fetchStopped stopped pipelined) :
    QueueOk (queue w m d .none f) fetchStopped stopped pipelined := by
  have hmoved : advanced (queue w m .none d f) 2 = queue w m d .none f :=
    queue_of_places fun _ => rfl
  exact hmoved ▸ h.advance rfl

theorem QueueOk.fetch_to_decode (h : QueueOk (queue w m x .none f) fetchStopped stopped pipelined) :
    QueueOk (queue w m x f .none) fetchStopped stopped pipelined := by
  have hmoved : advanced (queue w m x .none f) 3 = queue w m x f .none :=
    queue_of_places fun _ => rfl
  exact hmoved ▸ h.advance rfl

theorem QueueOk.writeback_retires (h : QueueOk (queue .instr m x d f) fetchStopped stopped pipelined) :
    QueueOk (queue .none m x d f) fetchStopped stopped pipelined := by
  have hleft : replaced (queue .instr m x d f) 0 .none = queue .none m x d f :=
    queue_of_places fun _ => rfl
  exact hleft ▸ h.retire rfl

theorem QueueOk.writeback_stops (h : QueueOk (queue .marker m x d f) fetchStopped stopped pipelined) :
    QueueOk (queue .none m x d f) fetchStopped true pipelined := by
  have hleft : replaced (queue .marker m x d f) 0 .none = queue .none m x d f :=
    queue_of_places fun _ => rfl
  exact hleft ▸ h.stop rfl

theorem QueueOk.execute_squashes (h : QueueOk (queue w m .instr d f) fetchStopped stopped pipelined) :
    QueueOk (queue w m .none .none .none) false stopped pipelined := by
  have hcut : cutOff (queue w m .instr d f) 2 = queue w m .none .none .none :=
    queue_of_places fun _ => rfl
  exact hcut ▸ h.squash rfl

theorem QueueOk.fetch_halts (h : QueueOk (queue w m x d f) fetchStopped stopped pipelined) (hf : f ≠ .none) :
    QueueOk (queue w m x d .marker) true stopped pipelined := by
  have hhalted : replaced (queue w m x d f) 4 .marker = queue w m x d .marker :=
    queue_of_places fun _ => rfl
  refine hhalted ▸ h.halt hf fun j hj => ?_
  obtain ⟨k, rfl⟩ := Nat.exists_eq_add_of_lt hj
  rw [Nat.add_right_comm, Nat.add_comm]
  rfl

theorem QueueOk.fetch_injected (h : QueueOk (queue w m x d .none) false stopped pipelined)
    (hmode : pipelined = true ∨ (d = .none ∧ x = .none ∧ m = .none ∧ w = .none)) :
    QueueOk (queue w m x d .instr) false stopped pipelined := by
  have hinjected : replaced (queue w m x d .none) 4 .instr = queue w m x d .instr :=
    queue_of_places fun _ => rfl
  refine hinjected ▸ h.inject rfl (hmode.imp_right ?_)
  rintro ⟨rfl, rfl, rfl, rfl⟩ j
  rcases j with _ | _ | _ | _ | _ | j <;> rfl

end

theorem Slot.occupant_eq_none {α : Type} {slot : Slot α} : slot.occupant = .none ↔ slot = .empty := by
  cases slot <;> simp [Slot.occupant]

theorem Slot.occupant_eq_marker {α : Type} {slot : Slot α} : slot.occupant = .marker ↔ slot = .haltMarker := by
  cases slot <;> simp [Slot.occupant]

theorem fetchOccupant_eq_none {f : Option FetchEntry} : fetchOccupant f = .none ↔ f = none := by
  unfold fetchOccupant
  split
  · simp
  · split <;> simp

theorem fetchOccupant_eq_marker {f : Option FetchEntry} :
    fetchOccupant f = .marker ↔ f.any (fun f => f.latched == .halt) = true := by
  unfold fetchOccupant
  split <;> simp

theorem Slot.load_eq {α : Type} (slot : Slot α) : slot.load = if slot.occupant ≠ .none then 1 else 0 := by
  cases slot <;> simp [Slot.load, Slot.occupant]

theorem load_slotF_eq (f : Option FetchEntry) :
    (if f.isSome then 1 else 0) = if fetchOccupant f ≠ .none then 1 else 0 := by
  cases f with
  | none => rfl
  | some f => simp [fetchOccupant_eq_none]

theorem occupancy_eq_card (s : State) :
    occupancy s = ((Finset.range 5).filter fun i => occupants s i ≠ .none).card := by
  have hsum : occupancy s = ∑ i ∈ Finset.range 5, if occupants s i ≠ .none then 1 else 0 := by
    rw [occupancy, load_slotF_eq]
    simp only [Slot.load_eq, Finset.sum_range_succ, Finset.sum_range_zero]
    exact (by omega : ∀ f d x m w : Nat, f + d + x + m + w = 0 + w + m + x + d + f) _ _ _ _ _
  rw [hsum, Finset.card_filter]

/-- Only the first five places are slots. -/
theorem lt_of_occupied {s : State} {i : Nat} (h : occupants s i ≠ .none) : i < 5 := by
  by_contra hi
  obtain ⟨k, rfl⟩ := Nat.exists_eq_add_of_le (Nat.not_lt.1 hi)
  exact h (by rw [Nat.add_comm]; rfl)

theorem occupancy_eq_zero_iff {s : State} : occupancy s = 0 ↔ ∀ i, occupants s i = .none := by
  simp only [occupancy_eq_card, Finset.card_eq_zero, Finset.filter_eq_empty_iff, Finset.mem_range, not_not]
  exact ⟨fun h i => by_contra fun hi => hi (h (lt_of_occupied hi)), fun h i _ => h i⟩

theorem occupancy_le_one_iff {s : State} :
    occupancy s ≤ 1 ↔ ∀ i j, occupants s i ≠ .none → occupants s j ≠ .none → i = j := by
  simp only [occupancy_eq_card, Finset.card_le_one, Finset.mem_filter, Finset.mem_range, and_imp]
  exact ⟨fun h i j hi hj => h i (lt_of_occupied hi) hi j (lt_of_occupied hj) hj, fun h i _ hi j _ hj => h i j hi hj⟩

theorem markerPresent_iff {s : State} : markerPresent s = true ↔ ∃ i, occupants s i = .marker := by
  simp only [markerPresent, Bool.or_eq_true, beq_iff_eq, or_assoc, ← Slot.occupant_eq_marker,
    ← fetchOccupant_eq_marker]
  constructor
  · rintro (h | h | h | h | h)
    exacts [⟨0, h⟩, ⟨1, h⟩, ⟨2, h⟩, ⟨3, h⟩, ⟨4, h⟩]
  · rintro ⟨i, hi⟩
    match i with
    | 0 => exact .inl hi
    | 1 => exact .inr (.inl hi)
    | 2 => exact .inr (.inr (.inl hi))
    | 3 => exact .inr (.inr (.inr (.inl hi)))
    | 4 => exact .inr (.inr (.inr (.inr hi)))
    | _ + 5 => exact absurd hi nofun

/-- The slots of `s`, as a queue, are sound. -/
abbrev SlotsQueueOk (s : State) : Prop := QueueOk (occupants s) s.fetchStopped s.stopped s.pipelineEnabled

/-- The clauses of R31 say that a fetch is at the pc and that the slots are a sound queue. -/
theorem slotsOk_iff {s : State} : SlotsOk s ↔ (∀ f ∈ s.slotF, f.addr = s.pc) ∧ SlotsQueueOk s := by
  constructor
  · rintro ⟨fetchAtPc, behindW, behindM, behindX, behindD, fetchStopped, stoppedEmpty, serial⟩
    refine ⟨fetchAtPc, fun i j hij hi => ?_, ?_, fun h => occupancy_eq_zero_iff.1 (stoppedEmpty h),
      fun h => occupancy_le_one_iff.1 (serial h)⟩
    · simp only [← Slot.occupant_eq_marker, ← Slot.occupant_eq_none, ← fetchOccupant_eq_none] at *
      match i, j, hij with
      | 0, 1, _ => obtain ⟨hM, -⟩ := behindW hi; exact hM
      | 0, 2, _ => obtain ⟨-, hX, -⟩ := behindW hi; exact hX
      | 0, 3, _ => obtain ⟨-, -, hD, -⟩ := behindW hi; exact hD
      | 0, 4, _ => obtain ⟨-, -, -, hF⟩ := behindW hi; exact hF
      | 1, 2, _ => obtain ⟨hX, -⟩ := behindM hi; exact hX
      | 1, 3, _ => obtain ⟨-, hD, -⟩ := behindM hi; exact hD
      | 1, 4, _ => obtain ⟨-, -, hF⟩ := behindM hi; exact hF
      | 2, 3, _ => obtain ⟨hD, -⟩ := behindX hi; exact hD
      | 2, 4, _ => obtain ⟨-, hF⟩ := behindX hi; exact hF
      | 3, 4, _ => exact behindD hi
      | _, _ + 5, _ => rfl
      | _ + 1, 1, h | _ + 2, 2, h | _ + 3, 3, h | _ + 4, 4, h => omega
    · rw [fetchStopped, Bool.or_eq_true, markerPresent_iff]
  · rintro ⟨fetchAtPc, behind, fetchStopped, stoppedEmpty, serial⟩
    refine ⟨fetchAtPc, ?_, ?_, ?_, ?_, ?_,
      fun h => occupancy_eq_zero_iff.2 (stoppedEmpty h), fun h => occupancy_le_one_iff.2 (serial h)⟩
    case refine_5 => rwa [Bool.eq_iff_iff, Bool.or_eq_true, markerPresent_iff]
    all_goals
      simp only [← Slot.occupant_eq_marker, ← Slot.occupant_eq_none, ← fetchOccupant_eq_none]
      intro h
    · exact ⟨behind 0 1 (by decide) h, behind 0 2 (by decide) h, behind 0 3 (by decide) h, behind 0 4 (by decide) h⟩
    · exact ⟨behind 1 2 (by decide) h, behind 1 3 (by decide) h, behind 1 4 (by decide) h⟩
    · exact ⟨behind 2 3 (by decide) h, behind 2 4 (by decide) h⟩
    · exact behind 3 4 (by decide) h

theorem SlotsOk.queueOk {s : State} (h : SlotsOk s) {w m x d f : Occupant} (hW : s.slotW.occupant = w)
    (hM : s.slotM.occupant = m) (hX : s.slotX.occupant = x) (hD : s.slotD.occupant = d)
    (hF : fetchOccupant s.slotF = f) :
    QueueOk (queue w m x d f) s.fetchStopped s.stopped s.pipelineEnabled := by
  subst hW hM hX hD hF
  exact (slotsOk_iff.1 h).2

/-! ### What the pipeline holds, without the hierarchy -/

/-- The part of soundness that the hierarchy cannot touch. -/
structure PipelineOk (s : State) : Prop where
  between : s.phase = .program
  slots : SlotsOk s
  records : RecordsOk s
  spare : SpareOk s

theorem Inv.pipeline {s : State} (h : Inv s) : PipelineOk s := ⟨h.between, h.slots, h.records, h.spare⟩

theorem HierarchyOk.inv {s : State} (h : HierarchyOk s) (howner : OwnerOk s) (hp : PipelineOk s) : Inv s := by
  obtain ⟨⟨legal, ram, cache⟩, port⟩ := h
  obtain ⟨between, slots, records, spare⟩ := hp
  exact ⟨legal, between, ram, cache, port, howner, slots, records, spare⟩

theorem PipelineOk.of_same {s t : State} (h : PipelineOk s) (hsame : SameButHierarchy s t) : PipelineOk t := by
  obtain ⟨between, slots, records, spare⟩ := h
  obtain ⟨fetchAtPc, behindW, behindM, behindX, behindD, fetchStopped, stoppedEmpty, serial⟩ := slots
  obtain ⟨wordF, wordD, wordX, wordM, wordW, faithfulX, faithfulM, faithfulW, noJumpM, noJumpW⟩ := records
  rw [hsame]
  exact ⟨between, ⟨fetchAtPc, behindW, behindM, behindX, behindD, fetchStopped, stoppedEmpty, serial⟩,
    ⟨wordF, wordD, wordX, wordM, wordW, faithfulX, faithfulM, faithfulW, noJumpM, noJumpW⟩, spare⟩

/-- The record `r'` that Memory hands to Writeback for `r` (R132, R157). -/
def PassedMemory (r r' : Decoded) : Prop := ∃ (v : Word) (b : Bool),
  r' = { r with writebackVal := v, hasWriteback := b, status := .normal } ∧ (b = true → r.hasWriteback = true)

section
variable {s : State} (h : PipelineOk s)
include h

theorem PipelineOk.commitMarker (hW : s.slotW = .haltMarker) :
    PipelineOk { s with stopped := true, slotW := .empty } :=
  ⟨h.between, slotsOk_iff.2 ⟨h.slots.fetchAtPc,
      (h.slots.queueOk (congrArg _ hW) rfl rfl rfl rfl).writeback_stops⟩,
    { h.records with
      wordW := forall_record_empty, faithfulW := forall_record_empty, noJumpW := forall_record_empty }, h.spare⟩

theorem PipelineOk.commit {r : Decoded} (hW : s.slotW = .inFlight r) : PipelineOk (committed s r) := by
  refine ⟨h.between, slotsOk_iff.2 ⟨h.slots.fetchAtPc,
      (h.slots.queueOk (congrArg _ hW) rfl rfl rfl rfl).writeback_retires⟩,
    { h.records with
      wordW := forall_record_empty, faithfulW := forall_record_empty, noJumpW := forall_record_empty },
    fun i hi => ?_⟩
  simp only [committed]
  split
  · rw [writeReg_spare s r.rd r.writebackVal i.val i.isLt hi]
    exact h.spare i hi
  · exact h.spare i hi

theorem PipelineOk.marker_leaves_memory (hM : s.slotM = .haltMarker) (hW : s.slotW = .empty) :
    PipelineOk { s with slotW := .haltMarker, slotM := .empty } :=
  ⟨h.between, slotsOk_iff.2 ⟨h.slots.fetchAtPc,
      (h.slots.queueOk (congrArg _ hW) (congrArg _ hM) rfl rfl rfl).memory_to_writeback⟩,
    { h.records with
      wordM := forall_record_empty, faithfulM := forall_record_empty, noJumpM := forall_record_empty
      wordW := forall_record_haltMarker, faithfulW := forall_record_haltMarker, noJumpW := forall_record_haltMarker },
    h.spare⟩

theorem PipelineOk.leaves_memory {r r' : Decoded} (hM : s.slotM = .inFlight r) (hW : s.slotW = .empty)
    (hr : PassedMemory r r') : PipelineOk { s with slotW := .inFlight r', slotM := .empty } := by
  obtain ⟨v, b, rfl, hb⟩ := hr
  have hmem := record_of_inFlight hM
  obtain ⟨hfaithful, hwrites⟩ := h.records.faithfulM r hmem
  exact ⟨h.between, slotsOk_iff.2 ⟨h.slots.fetchAtPc,
      (h.slots.queueOk (congrArg _ hW) (congrArg _ hM) rfl rfl rfl).memory_to_writeback⟩,
    { h.records with
      wordM := forall_record_empty, faithfulM := forall_record_empty, noJumpM := forall_record_empty
      wordW := forall_record_inFlight (h.records.wordM r hmem)
      faithfulW := forall_record_inFlight ⟨hfaithful, fun hw => hwrites ▸ hb hw⟩
      noJumpW := forall_record_inFlight (h.records.noJumpM r hmem) }, h.spare⟩

theorem PipelineOk.stays_in_memory {r : Decoded} (hM : s.slotM = .inFlight r) :
    PipelineOk { s with slotM := .inFlight { r with status := .stalled } } := by
  have hmem := record_of_inFlight hM
  exact ⟨h.between, slotsOk_iff.2 ⟨h.slots.fetchAtPc, h.slots.queueOk rfl (congrArg Slot.occupant hM :) rfl rfl rfl⟩,
    { h.records with
      wordM := forall_record_inFlight (h.records.wordM r hmem)
      faithfulM := forall_record_inFlight (h.records.faithfulM r hmem)
      noJumpM := forall_record_inFlight (h.records.noJumpM r hmem) }, h.spare⟩

theorem PipelineOk.marker_leaves_execute (hX : s.slotX = .haltMarker) (hM : s.slotM = .empty) :
    PipelineOk { s with slotM := .haltMarker, slotX := .empty } :=
  ⟨h.between, slotsOk_iff.2 ⟨h.slots.fetchAtPc,
      (h.slots.queueOk rfl (congrArg _ hM) (congrArg _ hX) rfl rfl).execute_to_memory⟩,
    { h.records with
      wordX := forall_record_empty, faithfulX := forall_record_empty
      wordM := forall_record_haltMarker, faithfulM := forall_record_haltMarker, noJumpM := forall_record_haltMarker },
    h.spare⟩

theorem PipelineOk.leaves_execute {r : Decoded} (hX : s.slotX = .inFlight r) (hM : s.slotM = .empty)
    (hj : kindOf r.raw ≠ .j) (v : Word) :
    PipelineOk { s with slotM := .inFlight { r with result := v, status := .normal }, slotX := .empty } := by
  have hmem := record_of_inFlight hX
  exact ⟨h.between, slotsOk_iff.2 ⟨h.slots.fetchAtPc,
      (h.slots.queueOk rfl (congrArg _ hM) (congrArg _ hX) rfl rfl).execute_to_memory⟩,
    { h.records with
      wordX := forall_record_empty, faithfulX := forall_record_empty
      wordM := forall_record_inFlight (h.records.wordX r hmem)
      faithfulM := forall_record_inFlight (h.records.faithfulX r hmem)
      noJumpM := forall_record_inFlight hj }, h.spare⟩

theorem PipelineOk.stays_in_execute {r : Decoded} (hX : s.slotX = .inFlight r) (v : Word) :
    PipelineOk { s with slotX := .inFlight { r with result := v, status := .stalled } } := by
  have hmem := record_of_inFlight hX
  exact ⟨h.between, slotsOk_iff.2 ⟨h.slots.fetchAtPc, h.slots.queueOk rfl rfl (congrArg Slot.occupant hX :) rfl rfl⟩,
    { h.records with
      wordX := forall_record_inFlight (h.records.wordX r hmem)
      faithfulX := forall_record_inFlight (h.records.faithfulX r hmem) }, h.spare⟩

theorem PipelineOk.squashedTo {r : Decoded} (hX : s.slotX = .inFlight r) (target : Word) :
    PipelineOk (squashedTo s target) :=
  ⟨h.between, slotsOk_iff.2 ⟨forall_mem_none, (h.slots.queueOk rfl rfl (congrArg _ hX) rfl rfl).execute_squashes⟩,
    { h.records with
      wordF := forall_mem_none, wordD := forall_record_empty, wordX := forall_record_empty
      faithfulX := forall_record_empty },
    h.spare⟩

theorem PipelineOk.marker_leaves_decode (hD : s.slotD = .haltMarker) (hX : s.slotX = .empty) :
    PipelineOk { s with slotX := .haltMarker, slotD := .empty } :=
  ⟨h.between, slotsOk_iff.2 ⟨h.slots.fetchAtPc,
      (h.slots.queueOk rfl rfl (congrArg _ hX) (congrArg _ hD) rfl).decode_to_execute⟩,
    { h.records with
      wordD := forall_record_empty, wordX := forall_record_haltMarker, faithfulX := forall_record_haltMarker },
    h.spare⟩

theorem PipelineOk.leaves_decode {q : DecodeEntry} (hD : s.slotD = .inFlight q) (hX : s.slotX = .empty) :
    PipelineOk { s with slotX := .inFlight (withOperands s (decodeRecord q.raw q.addr)), slotD := .empty } :=
  ⟨h.between, slotsOk_iff.2 ⟨h.slots.fetchAtPc,
      (h.slots.queueOk rfl rfl (congrArg _ hX) (congrArg _ hD) rfl).decode_to_execute⟩,
    { h.records with
      wordD := forall_record_empty
      wordX := forall_record_inFlight (h.records.wordD q (record_of_inFlight hD))
      faithfulX := forall_record_inFlight ⟨rfl, rfl⟩ }, h.spare⟩

theorem PipelineOk.stays_in_decode {q : DecodeEntry} (hD : s.slotD = .inFlight q) (status : Status) :
    PipelineOk { s with slotD := .inFlight { q with status := status } } :=
  ⟨h.between, slotsOk_iff.2 ⟨h.slots.fetchAtPc, h.slots.queueOk rfl rfl rfl (congrArg Slot.occupant hD :) rfl⟩,
    { h.records with wordD := forall_record_inFlight (h.records.wordD q (record_of_inFlight hD)) }, h.spare⟩

theorem PipelineOk.stays_in_fetch {f : FetchEntry} (hF : s.slotF = some f) (status : Status) :
    PipelineOk { s with slotF := some { f with status := status } } := by
  refine ⟨h.between, slotsOk_iff.2 ⟨?_, h.slots.queueOk rfl rfl rfl rfl (congrArg fetchOccupant hF :)⟩,
    { h.records with wordF := ?_ }, h.spare⟩
  · rintro _ ⟨⟩
    exact h.slots.fetchAtPc f hF
  · rintro _ ⟨⟩
    exact h.records.wordF f hF

theorem PipelineOk.latches_word {f : FetchEntry} (hF : s.slotF = some f) (hL : f.latched = .outstanding) {w : Word}
    (hw : w ≠ haltWord) : PipelineOk { s with slotF := some { f with latched := .word w } } := by
  have hinstr : fetchOccupant s.slotF = fetchOccupant (some { f with latched := .word w }) := by
    rw [hF]
    simp [fetchOccupant, hL]
  refine ⟨h.between, slotsOk_iff.2 ⟨?_, h.slots.queueOk rfl rfl rfl rfl hinstr⟩,
    { h.records with wordF := ?_ }, h.spare⟩
  · rintro _ ⟨⟩
    exact h.slots.fetchAtPc f hF
  · rintro _ ⟨⟩ hhalt
    exact hw (Latched.word.inj hhalt)

theorem PipelineOk.latches_halt {f : FetchEntry} (hF : s.slotF = some f) :
    PipelineOk { s with slotF := some { f with latched := .halt }, fetchStopped := true } := by
  have hoccupied : fetchOccupant s.slotF ≠ .none := by simp [fetchOccupant_eq_none, hF]
  refine ⟨h.between, slotsOk_iff.2 ⟨?_, (h.slots.queueOk rfl rfl rfl rfl rfl).fetch_halts hoccupied⟩,
    { h.records with wordF := ?_ }, h.spare⟩
  · rintro _ ⟨⟩
    exact h.slots.fetchAtPc f hF
  · rintro _ ⟨⟩
    nofun

theorem PipelineOk.word_leaves_fetch {f : FetchEntry} {w : Word} (hF : s.slotF = some f) (hL : f.latched = .word w)
    (hD : s.slotD = .empty) :
    PipelineOk { s with slotD := .inFlight { addr := f.addr, raw := w, status := .normal }, pc := s.pc + 1,
                        slotF := none } := by
  have hinstr : fetchOccupant s.slotF = .instr := by simp [fetchOccupant, hF, hL]
  refine ⟨h.between,
    slotsOk_iff.2 ⟨forall_mem_none, (h.slots.queueOk rfl rfl rfl (congrArg _ hD) hinstr).fetch_to_decode⟩,
    { h.records with wordF := forall_mem_none, wordD := forall_record_inFlight fun hw => ?_ }, h.spare⟩
  exact h.records.wordF f hF (hL.trans (congrArg _ hw))

theorem PipelineOk.halt_leaves_fetch {f : FetchEntry} (hF : s.slotF = some f) (hL : f.latched = .halt)
    (hD : s.slotD = .empty) : PipelineOk { s with slotD := .haltMarker, slotF := none } := by
  have hmarker : fetchOccupant s.slotF = .marker := by simp [fetchOccupant, hF, hL]
  exact ⟨h.between,
    slotsOk_iff.2 ⟨forall_mem_none, (h.slots.queueOk rfl rfl rfl (congrArg _ hD) hmarker).fetch_to_decode⟩,
    { h.records with wordF := forall_mem_none, wordD := forall_record_haltMarker }, h.spare⟩

theorem PipelineOk.injected (hF : s.slotF = none) (hfetching : s.fetchStopped = false)
    (hmode : s.pipelineEnabled = true ∨
      (s.slotD = .empty ∧ s.slotX = .empty ∧ s.slotM = .empty ∧ s.slotW = .empty)) :
    PipelineOk { s with slotF := fetchAt s.pc } := by
  have hqueue := h.slots.queueOk rfl rfl rfl rfl (congrArg _ hF)
  rw [hfetching] at hqueue
  simp only [← Slot.occupant_eq_none] at hmode
  refine ⟨h.between, slotsOk_iff.2 ⟨?_, ?_⟩, { h.records with wordF := ?_ }, h.spare⟩
  · rintro _ ⟨⟩
    rfl
  · rw [SlotsQueueOk, hfetching]
    exact hqueue.fetch_injected hmode
  · rintro _ ⟨⟩
    nofun

end

end Sys2Proof.Machine
end

section
/-! Every step keeps a sound state sound (10_state.md R31, 20_memory.md R73, R77): part by part, with what the part asks
of the hierarchy. -/

namespace Sys2Proof.Machine

open Sys2Proof.Claims

theorem SameMemory.refl (s : State) : SameMemory s s := ⟨rfl, rfl, rfl, rfl⟩

/-- A sound state stays sound through an update that leaves the hierarchy alone but may free the port. -/
theorem Inv.of_pipeline {s t : State} (h : Inv s) (hsame : SameMemory s t) (hhits : t.hits = s.hits)
    (hmisses : t.misses = s.misses) (hport : ∀ p, t.port = some p → s.port = some p) (howner : OwnerOk t)
    (hp : PipelineOk t) : Inv t :=
  (h.hierarchy.congr hsame hhits hmisses hport).inv howner hp

theorem same_of_access {s t : State} {q : Request} {stage : Requester} {o : Reply}
    (h : access s q stage = (t, o)) : SameButHierarchy s t := by
  have hsame := access_same s q stage
  rwa [h] at hsame

/-! ### Part 1 -/

theorem inv_writebackUpdate {s : State} (h : Inv s) : Inv (writebackUpdate s) := by
  cases hW : s.slotW with
  | empty => rwa [writebackUpdate_of_empty hW]
  | haltMarker =>
    rw [writebackUpdate_of_haltMarker hW]
    exact h.of_pipeline ⟨rfl, rfl, rfl, rfl⟩ rfl rfl (fun _ => id) ⟨h.owner.fetch, h.owner.mem⟩
      (h.pipeline.commitMarker hW)
  | inFlight r =>
    rw [writebackUpdate_of_inFlight hW]
    exact h.of_pipeline ⟨rfl, rfl, rfl, rfl⟩ rfl rfl (fun _ => id) ⟨h.owner.fetch, h.owner.mem⟩
      (h.pipeline.commit hW)

/-! ### Part 2 -/

/-- The request that the instruction `r` makes in Memory (R157). -/
def requestOf (s : State) (r : Decoded) : Option Request :=
  if r.result.toNat < s.cfg.ramWords then
    match kindOf r.raw with
    | .load => some { kind := .read, addr := r.result.toNat, value := 0 }
    | .str => some { kind := .write, addr := r.result.toNat, value := r.op3 }
    | .add | .sub | .addi | .ldi | .bc | .j | .nop => none
  else none

theorem requestOf_eq_some_iff {s : State} {r : Decoded} {q : Request} : requestOf s r = some q ↔
    inRange s r.result = true ∧
      ((kindOf r.raw = .load ∧ q = { kind := .read, addr := r.result.toNat, value := 0 }) ∨
       (kindOf r.raw = .str ∧ q = { kind := .write, addr := r.result.toNat, value := r.op3 })) := by
  rw [inRange_iff, requestOf]
  split
  · next hin =>
    cases kindOf r.raw <;> simp [hin, eq_comm]
  · next hout => simp [hout]

theorem addr_of_requestOf {s : State} {r : Decoded} {q : Request} (h : requestOf s r = some q) :
    q.addr < s.cfg.ramWords := by
  obtain ⟨hin, ⟨-, rfl⟩ | ⟨-, rfl⟩⟩ := requestOf_eq_some_iff.1 h
  · exact inRange_iff.1 hin
  · exact inRange_iff.1 hin

/-- What Memory can leave of the instruction `r`: it passes without a request, or its request is done or waits. -/
inductive MemoryResult (s : State) (r : Decoded) : State → Prop
  | passed (r' : Decoded) (hrequest : requestOf s r = none) (hr : PassedMemory r r') :
      MemoryResult s r { s with slotW := .inFlight r', slotM := .empty }
  | done (q : Request) (u : State) (w : Word) (r' : Decoded) (hrequest : requestOf s r = some q)
      (haccess : access s q .mem = (u, .done w)) (hr : PassedMemory r r') :
      MemoryResult s r { u with slotW := .inFlight r', slotM := .empty }
  | waits (q : Request) (u : State) (hrequest : requestOf s r = some q) (haccess : access s q .mem = (u, .wait)) :
      MemoryResult s r { u with slotM := .inFlight { r with status := .stalled } }

section
variable {s : State} {r : Decoded}

theorem passMemory_result (h : s.slotM = .inFlight r) (hrequest : requestOf s r = none) :
    MemoryResult s r (passMemory s) := by
  rw [passMemory_inFlight h]
  exact .passed _ hrequest ⟨_, _, rfl, id⟩

theorem loadMemory_result (h : s.slotM = .inFlight r) (hk : kindOf r.raw = .load) :
    MemoryResult s r (loadMemory s) := by
  cases hin : inRange s r.result with
  | false =>
    rw [loadMemory_outside h hin]
    refine .passed _ (if_neg (mt inRange_iff.2 (Bool.eq_false_iff.1 hin))) ⟨_, false, rfl, nofun⟩
  | true =>
    have hrequest := requestOf_eq_some_iff.2 ⟨hin, .inl ⟨hk, rfl⟩⟩
    rcases ha : hRead s r.result.toNat .mem with ⟨u, reply⟩
    cases reply with
    | done w =>
      rw [loadMemory_done h hin ha]
      exact .done _ u w _ hrequest ha ⟨w, _, rfl, id⟩
    | wait =>
      rw [loadMemory_wait h hin ha]
      exact .waits _ u hrequest ha

theorem storeMemory_result (h : s.slotM = .inFlight r) (hk : kindOf r.raw = .str) :
    MemoryResult s r (storeMemory s) := by
  cases hin : inRange s r.result with
  | false =>
    rw [storeMemory_outside h hin]
    refine .passed _ (if_neg (mt inRange_iff.2 (Bool.eq_false_iff.1 hin))) ⟨_, false, rfl, nofun⟩
  | true =>
    have hrequest := requestOf_eq_some_iff.2 ⟨hin, .inr ⟨hk, rfl⟩⟩
    rcases ha : hWrite s r.result.toNat r.op3 .mem with ⟨u, reply⟩
    cases reply with
    | done w =>
      rw [storeMemory_done h hin ha]
      exact .done _ u w _ hrequest ha ⟨_, _, rfl, id⟩
    | wait =>
      rw [storeMemory_wait h hin ha]
      exact .waits _ u hrequest ha

theorem memoryUpdate_result (h : s.slotM = .inFlight r) : MemoryResult s r (memoryUpdate s) := by
  rw [memoryUpdate_of_inFlight h]
  cases hk : kindOf r.raw with
  | load => exact loadMemory_result h hk
  | str => exact storeMemory_result h hk
  | add | sub | addi | ldi | bc | j | nop =>
    exact passMemory_result h (by simp [requestOf, hk])

end

/-- An access that Memory owns is the request of the instruction in M (R31 f). -/
theorem OwnerOk.mem_request {s : State} (h : OwnerOk s) {p : Access} (hp : s.port = some p) (ho : p.owner = .mem) :
    ∃ r, s.slotM = .inFlight r ∧ requestOf s r = some p.pending := by
  obtain ⟨r, hr, hin, hkind⟩ := h.mem p hp ho
  refine ⟨r, ?_, requestOf_eq_some_iff.2 ⟨hin, hkind⟩⟩
  cases hM : s.slotM with
  | inFlight r' =>
    rw [hM] at hr
    exact congrArg _ (Option.some.inj hr)
  | empty | haltMarker => simp [hM, Slot.record?] at hr

theorem ownerOk_free {s : State} (h : s.port = none) : OwnerOk s := ⟨by simp [h], by simp [h]⟩

/-- While Memory has no request, Fetch alone can own the port. -/
theorem OwnerOk.fetch_of_no_request {s : State} (h : OwnerOk s)
    (hM : ∀ r, s.slotM = .inFlight r → requestOf s r = none) {p : Access} (hp : s.port = some p) :
    p.owner = .fetch := by
  cases ho : p.owner with
  | fetch => rfl
  | mem =>
    obtain ⟨r, hr, hrequest⟩ := h.mem_request hp ho
    exact absurd ((hM r hr).symm.trans hrequest) nofun

/-- With the port in Fetch's hands a change of M and W keeps the owner sound. -/
theorem OwnerOk.of_fetch {s t : State} (h : OwnerOk s) (hport : t.port = s.port) (hcfg : t.cfg = s.cfg)
    (hF : t.slotF = s.slotF) (ho : ∀ p, s.port = some p → p.owner = .fetch) : OwnerOk t := by
  refine ⟨fun p hp hfetch => ?_, fun p hp hmem => ?_⟩
  · rw [hF]
    obtain ⟨f, hf, hL, hin, hpending⟩ := h.fetch p (hport ▸ hp) hfetch
    exact ⟨f, hf, hL, by rwa [inRange, hcfg], hpending⟩
  · exact absurd ((ho p (hport ▸ hp)).symm.trans hmem) nofun

theorem inv_memoryUpdate {s : State} (h : Inv s) (hW : s.slotW = .empty) : Inv (memoryUpdate s) := by
  cases hM : s.slotM with
  | empty => rwa [memoryUpdate_of_empty hM]
  | haltMarker =>
    rw [memoryUpdate_of_haltMarker hM]
    exact h.of_pipeline ⟨rfl, rfl, rfl, rfl⟩ rfl rfl (fun _ => id)
      (h.owner.of_fetch rfl rfl rfl fun p => h.owner.fetch_of_no_request (by simp [hM]))
      (h.pipeline.marker_leaves_memory hM hW)
  | inFlight r =>
    have hresult := memoryUpdate_result hM
    generalize memoryUpdate s = t at hresult
    cases hresult with
    | passed r' hrequest hr =>
      refine h.of_pipeline ⟨rfl, rfl, rfl, rfl⟩ rfl rfl (fun _ => id)
        (h.owner.of_fetch rfl rfl rfl fun p => h.owner.fetch_of_no_request fun r₁ hr₁ => ?_)
        (h.pipeline.leaves_memory hM hW hr)
      cases hM.symm.trans hr₁
      exact hrequest
    | done q u w r' hrequest haccess hr =>
      have hsame := same_of_access haccess
      have hu := h.hierarchy.access (addr_of_requestOf hrequest) haccess
      have hfree := h.port.free_of_done haccess
      exact HierarchyOk.inv (hu.congr ⟨rfl, rfl, rfl, rfl⟩ rfl rfl fun _ => id) (ownerOk_free hfree)
        ((h.pipeline.leaves_memory hM hW hr).of_same (by rw [hsame]; rfl))
    | waits q u hrequest haccess =>
      have hsame := same_of_access haccess
      have hu := h.hierarchy.access (addr_of_requestOf hrequest) haccess
      refine HierarchyOk.inv (hu.congr ⟨rfl, rfl, rfl, rfl⟩ rfl rfl fun _ => id) ?_
        ((h.pipeline.stays_in_memory hM).of_same (by rw [hsame]; rfl))
      rcases access_wait_port haccess with ⟨rfl, p, hp, ho⟩ | ⟨n, hport⟩
      · refine h.owner.of_fetch rfl rfl rfl fun p' hp' => ?_
        cases hp.symm.trans hp'
        cases hf : p.owner with
        | fetch => rfl
        | mem => exact absurd hf ho
      · obtain ⟨hin, hkind⟩ := requestOf_eq_some_iff.1 hrequest
        refine ⟨fun p hp ho => ?_, fun p hp _ => ⟨_, rfl, ?_, ?_⟩⟩
        · cases hport.symm.trans hp
          exact absurd ho nofun
        · rw [hsame]
          exact hin
        · cases hport.symm.trans hp
          exact hkind

/-! ### Part 3 -/

/-- A move of the occupant of X to an empty M keeps the owner sound: with M empty, Fetch alone can own the port. -/
theorem inv_executeUpdate {s : State} (h : Inv s) : Inv (executeUpdate s) := by
  cases hX : s.slotX with
  | empty => rwa [executeUpdate_of_empty hX]
  | haltMarker =>
    rw [executeUpdate_of_haltMarker hX]
    by_cases hM : s.slotM = .empty
    · rw [moveMarkerFromExecute_free hX hM]
      exact h.of_pipeline ⟨rfl, rfl, rfl, rfl⟩ rfl rfl (fun _ => id)
        (h.owner.of_fetch rfl rfl rfl fun p => h.owner.fetch_of_no_request (by simp [hM]))
        (h.pipeline.marker_leaves_execute hX hM)
    · rwa [moveMarkerFromExecute_blocked hM]
  | inFlight r =>
    cases htaken : takenInX s with
    | some target =>
      rw [executeUpdate_of_taken htaken, takeControl_eq]
      refine h.of_pipeline ⟨rfl, rfl, rfl, rfl⟩ rfl rfl (fun p hp => (Option.filter_eq_some_iff.1 hp).1)
        ⟨fun p hp ho => ?_, fun p hp ho => h.owner.mem p (Option.filter_eq_some_iff.1 hp).1 ho⟩
        (h.pipeline.squashedTo hX target)
      exact absurd ((owner_mem_of_filter hp).symm.trans ho) nofun
    | none =>
      obtain ⟨hj, v, hupdate⟩ := executeUpdate_of_not_taken hX htaken
      rw [hupdate, leaveExecute_eq]
      by_cases hM : s.slotM = .empty
      · rw [if_pos hM]
        exact h.of_pipeline ⟨rfl, rfl, rfl, rfl⟩ rfl rfl (fun _ => id)
          (h.owner.of_fetch rfl rfl rfl fun p => h.owner.fetch_of_no_request (by simp [hM]))
          (h.pipeline.leaves_execute hX hM hj v)
      · rw [if_neg hM]
        exact h.of_pipeline ⟨rfl, rfl, rfl, rfl⟩ rfl rfl (fun _ => id) ⟨h.owner.fetch, h.owner.mem⟩
          (h.pipeline.stays_in_execute hX v)

/-! ### Part 4 -/

theorem inv_decodeUpdate {s : State} (h : Inv s) : Inv (decodeUpdate s) := by
  have hkeeps {d : Slot DecodeEntry} {x : Slot Decoded} (hp : PipelineOk { s with slotX := x, slotD := d }) :
      Inv { s with slotX := x, slotD := d } :=
    h.of_pipeline ⟨rfl, rfl, rfl, rfl⟩ rfl rfl (fun _ => id) ⟨h.owner.fetch, h.owner.mem⟩ hp
  cases hD : s.slotD with
  | empty => rwa [decodeUpdate_of_empty hD]
  | haltMarker =>
    have hupdate : decodeUpdate s = moveMarkerFromDecode s := by rw [decodeUpdate, hD]
    rw [hupdate]
    by_cases hX : s.slotX = .empty
    · rw [moveMarkerFromDecode_free hD hX]
      exact hkeeps (h.pipeline.marker_leaves_decode hD hX)
    · rwa [moveMarkerFromDecode_blocked hX]
  | inFlight q =>
    have hupdate : decodeUpdate s = issueDecode (fieldsOf (decodeOp q.raw)) s := by rw [decodeUpdate, hD]
    rw [hupdate, issueDecode_inFlight hD]
    split
    · exact hkeeps (h.pipeline.stays_in_decode hD .hazarded)
    · split
      · next hX => exact hkeeps (h.pipeline.leaves_decode hD hX)
      · exact hkeeps (h.pipeline.stays_in_decode hD .stalled)

/-! ### Part 5 -/

/-- While Fetch has no read outstanding, Memory alone can own the port. -/
theorem OwnerOk.mem_of_no_read {s : State} (h : OwnerOk s)
    (hF : ∀ f, s.slotF = some f → f.latched = .outstanding → inRange s f.addr = false) {p : Access}
    (hp : s.port = some p) : p.owner = .mem := by
  cases ho : p.owner with
  | mem => rfl
  | fetch =>
    obtain ⟨f, hf, hL, hin, -⟩ := h.fetch p hp ho
    exact absurd ((hF f hf hL).symm.trans hin) Bool.false_ne_true

/-- With the port in Memory's hands a change of F and D keeps the owner sound. -/
theorem OwnerOk.of_mem {s t : State} (h : OwnerOk s) (hport : t.port = s.port) (hcfg : t.cfg = s.cfg)
    (hM : t.slotM = s.slotM) (ho : ∀ p, s.port = some p → p.owner = .mem) : OwnerOk t := by
  refine ⟨fun p hp hfetch => ?_, fun p hp hmem => ?_⟩
  · exact absurd ((ho p (hport ▸ hp)).symm.trans hfetch) nofun
  · rw [hM]
    obtain ⟨r, hr, hin, hkind⟩ := h.mem p (hport ▸ hp) hmem
    exact ⟨r, hr, by rwa [inRange, hcfg], hkind⟩

theorem inv_advanceFetch {s : State} (h : Inv s) : Inv (advanceFetch s) := by
  cases hF : s.slotF with
  | none => rwa [show advanceFetch s = s by simp only [advanceFetch, hF]]
  | some f =>
    have howner {t : State} (hL : f.latched ≠ .outstanding) (hport : t.port = s.port) (hcfg : t.cfg = s.cfg)
        (hM : t.slotM = s.slotM) : OwnerOk t :=
      h.owner.of_mem hport hcfg hM fun p => h.owner.mem_of_no_read fun f' hf' hL' => by
        cases hF.symm.trans hf'
        exact absurd hL' hL
    cases hL : f.latched with
    | outstanding => rwa [show advanceFetch s = s by simp only [advanceFetch, hF, hL]]
    | word w =>
      rw [advanceFetch_word hF hL]
      split
      · next hD =>
        exact h.of_pipeline ⟨rfl, rfl, rfl, rfl⟩ rfl rfl (fun _ => id) (howner (by simp [hL]) rfl rfl rfl)
          (h.pipeline.word_leaves_fetch hF hL hD)
      · exact h.of_pipeline ⟨rfl, rfl, rfl, rfl⟩ rfl rfl (fun _ => id) (howner (by simp [hL]) rfl rfl rfl)
          (h.pipeline.stays_in_fetch hF .stalled)
    | halt =>
      rw [advanceFetch_halt hF hL]
      split
      · next hD =>
        exact h.of_pipeline ⟨rfl, rfl, rfl, rfl⟩ rfl rfl (fun _ => id) (howner (by simp [hL]) rfl rfl rfl)
          (h.pipeline.halt_leaves_fetch hF hL hD)
      · exact h.of_pipeline ⟨rfl, rfl, rfl, rfl⟩ rfl rfl (fun _ => id) (howner (by simp [hL]) rfl rfl rfl)
          (h.pipeline.stays_in_fetch hF .stalled)

/-- The request that Fetch makes for the word at `a` (R168). -/
def fetchRequest (a : Word) : Request := { kind := .read, addr := a.toNat, value := 0 }

section
variable {s u : State} {f : FetchEntry} (hF : s.slotF = some f)
include hF

/-- What is latched is handed on. -/
theorem fetchUpdate_of_latched (hL : f.latched ≠ .outstanding) : fetchUpdate s = advanceFetch s := by
  cases hl : f.latched with
  | outstanding => exact absurd hl hL
  | word w => simp only [fetchUpdate, hF, hl]
  | halt => simp only [fetchUpdate, hF, hl]

theorem fetchUpdate_outside (hL : f.latched = .outstanding) (hout : inRange s f.addr = false) :
    fetchUpdate s = advanceFetch { s with slotF := some { f with latched := .halt }, fetchStopped := true } := by
  simp only [fetchUpdate, hF, hL, hout, Bool.false_eq_true, if_false]

variable (hL : f.latched = .outstanding) (hin : inRange s f.addr = true)
include hL hin

theorem fetchUpdate_waits (haccess : access s (fetchRequest f.addr) .fetch = (u, .wait)) :
    fetchUpdate s = { u with slotF := some { f with status := .stalled } } := by
  have hread : hRead s f.addr.toNat .fetch = (u, .wait) := haccess
  simp only [fetchUpdate, hF, hL, hin, if_true, hread]

theorem fetchUpdate_reads_word {w : Word} (haccess : access s (fetchRequest f.addr) .fetch = (u, .done w))
    (hw : w ≠ haltWord) : fetchUpdate s = advanceFetch { u with slotF := some { f with latched := .word w } } := by
  have hread : hRead s f.addr.toNat .fetch = (u, .done w) := haccess
  simp only [fetchUpdate, hF, hL, hin, if_true, hread, hw, if_false]

end

section
variable {s u : State} {f : FetchEntry} (h : Inv s) (hF : s.slotF = some f) (hL : f.latched = .outstanding)
  (hin : inRange s f.addr = true)
include h hF hL hin

/-- A read that is done leaves the port free, and its word or halt is latched (R169). -/
theorem inv_fetch_done {w : Word} (haccess : access s (fetchRequest f.addr) .fetch = (u, .done w)) :
    (w ≠ haltWord → Inv { u with slotF := some { f with latched := .word w } }) ∧
      Inv { u with slotF := some { f with latched := .halt }, fetchStopped := true } := by
  have hsame := same_of_access haccess
  have hfree := h.port.free_of_done haccess
  have hu := h.hierarchy.access (q := fetchRequest f.addr) (inRange_iff.1 hin) haccess
  refine ⟨fun hw => ?_, ?_⟩
  · exact HierarchyOk.inv (hu.congr ⟨rfl, rfl, rfl, rfl⟩ rfl rfl fun _ => id) (ownerOk_free hfree)
      ((h.pipeline.latches_word hF hL hw).of_same (by rw [hsame]; rfl))
  · exact HierarchyOk.inv (hu.congr ⟨rfl, rfl, rfl, rfl⟩ rfl rfl fun _ => id) (ownerOk_free hfree)
      ((h.pipeline.latches_halt hF).of_same (by rw [hsame]; rfl))

/-- A read that waits owns the port, or Memory does (R31 f). -/
theorem inv_fetch_waits (haccess : access s (fetchRequest f.addr) .fetch = (u, .wait)) :
    Inv { u with slotF := some { f with status := .stalled } } := by
  have hsame := same_of_access haccess
  have hu := h.hierarchy.access (q := fetchRequest f.addr) (inRange_iff.1 hin) haccess
  refine HierarchyOk.inv (hu.congr ⟨rfl, rfl, rfl, rfl⟩ rfl rfl fun _ => id) ?_
    ((h.pipeline.stays_in_fetch hF .stalled).of_same (by rw [hsame]; rfl))
  rcases access_wait_port haccess with ⟨rfl, p, hp, ho⟩ | ⟨n, hport⟩
  · refine h.owner.of_mem rfl rfl rfl fun p' hp' => ?_
    cases hp.symm.trans hp'
    cases hm : p.owner with
    | mem => rfl
    | fetch => exact absurd hm ho
  · refine ⟨fun p hp _ => ⟨_, rfl, hL, ?_, ?_⟩, fun p hp ho => ?_⟩
    · rw [hsame]
      exact hin
    · cases hport.symm.trans hp
      rfl
    · cases hport.symm.trans hp
      exact absurd ho nofun

end

/-- A halt latched for an address outside RAM, for which no request is made (R145). -/
theorem inv_fetch_outside {s : State} (h : Inv s) {f : FetchEntry} (hF : s.slotF = some f)
    (hout : inRange s f.addr = false) :
    Inv { s with slotF := some { f with latched := .halt }, fetchStopped := true } := by
  refine h.of_pipeline ⟨rfl, rfl, rfl, rfl⟩ rfl rfl (fun _ => id) ?_ (h.pipeline.latches_halt hF)
  refine h.owner.of_mem rfl rfl rfl fun p => h.owner.mem_of_no_read fun f' hf' _ => ?_
  cases hF.symm.trans hf'
  exact hout

theorem inv_fetchUpdate {s : State} (h : Inv s) : Inv (fetchUpdate s) := by
  cases hF : s.slotF with
  | none => rwa [fetchUpdate_of_none hF]
  | some f =>
    by_cases hL : f.latched = .outstanding
    · cases hin : inRange s f.addr with
      | false =>
        rw [fetchUpdate_outside hF hL hin]
        exact inv_advanceFetch (inv_fetch_outside h hF hin)
      | true =>
        rcases haccess : access s (fetchRequest f.addr) .fetch with ⟨u, reply⟩
        cases reply with
        | wait =>
          rw [fetchUpdate_waits hF hL hin haccess]
          exact inv_fetch_waits h hF hL hin haccess
        | done w =>
          obtain ⟨hword, hhalt⟩ := inv_fetch_done h hF hL hin haccess
          by_cases hw : w = haltWord
          · rw [fetchUpdate_of_sentinel hF hL hin (hw ▸ haccess)]
            exact inv_advanceFetch hhalt
          · rw [fetchUpdate_reads_word hF hL hin haccess hw]
            exact inv_advanceFetch (hword hw)
    · rw [fetchUpdate_of_latched hF hL]
      exact inv_advanceFetch h

/-! ### Part 6, and the step -/

theorem inv_injectPart {s : State} (h : Inv s) : Inv (injectPart s) := by
  rw [injectPart_eq]
  split
  · next hcond =>
    obtain ⟨hF, hfetching, hmode⟩ := hcond
    refine h.of_pipeline ⟨rfl, rfl, rfl, rfl⟩ rfl rfl (fun _ => id) ?_ (h.pipeline.injected hF hfetching hmode)
    exact h.owner.of_mem rfl rfl rfl fun p => h.owner.mem_of_no_read (by simp [hF])
  · exact h

theorem inv_cycles {s : State} (h : Inv s) (n : Nat) : Inv { s with cycles := n } := by
  obtain ⟨between, slots, records, spare⟩ := h.pipeline
  obtain ⟨fetchAtPc, behindW, behindM, behindX, behindD, fetchStopped, stoppedEmpty, serial⟩ := slots
  obtain ⟨wordF, wordD, wordX, wordM, wordW, faithfulX, faithfulM, faithfulW, noJumpM, noJumpW⟩ := records
  exact h.of_pipeline ⟨rfl, rfl, rfl, rfl⟩ rfl rfl (fun _ => id) ⟨h.owner.fetch, h.owner.mem⟩
    ⟨between, ⟨fetchAtPc, behindW, behindM, behindX, behindD, fetchStopped, stoppedEmpty, serial⟩,
      ⟨wordF, wordD, wordX, wordM, wordW, faithfulX, faithfulM, faithfulW, noJumpM, noJumpW⟩, spare⟩

theorem inv_beforeExecute {s : State} (h : Inv s) : Inv (beforeExecute s) :=
  inv_memoryUpdate (inv_writebackUpdate (inv_cycles h _)) (writebackUpdate_slotW _)

theorem inv_stepUpdate {s : State} (h : Inv s) : Inv (stepUpdate s) :=
  inv_injectPart (inv_fetchUpdate (inv_decodeUpdate (inv_executeUpdate (inv_beforeExecute h))))

theorem inv_step {s t : State} (h : Inv s) (hstep : step s = .next t) : Inv t := by
  cases hr : s.stopped with
  | true =>
    cases (step_stopped h.legal hr).symm.trans hstep
    exact h
  | false =>
    cases eq_stepUpdate_of_step hr hstep
    exact inv_stepUpdate h

/-- Settles O58: a stopped machine keeps its state, and each of the six parts keeps a sound one. -/
theorem stepKeepsSoundness : Obligations.StepKeepsSoundness := fun _ _ => inv_step

end Sys2Proof.Machine
end

section
/-! What the host leaves sound (70_reset_and_hazards.md R36, R37, R237), and what a step does to memory and to the port
(20_memory.md R81, 50_pipeline.md R178). -/

namespace Sys2Proof.Machine

open Sys2Proof.Claims

/-! ### Power-on, reset and load -/

theorem lineAt_replicate_reset {s : State} {n : Nat} (h : s.lines = List.replicate n (Line.reset s.cfg.wordsPerLine))
    (k : Nat) : lineAt s k = Line.reset s.cfg.wordsPerLine := by
  rw [lineAt, h, List.getD_eq_getElem?_getD, List.getElem?_replicate]
  split <;> rfl

/-- The state reset leaves, over any sound RAM. -/
theorem inv_powerOn_ram {c : Config} (hc : c.legal = true) (p e : Bool) {m : Memory} (hwf : m.wf = true)
    (hinside : ∀ cell ∈ m, cell.1 < c.ramWords) : Inv { State.powerOn c p e with ram := m } := by
  have hinvalid (k : Nat) : (lineAt { State.powerOn c p e with ram := m } k).valid = false := by
    rw [lineAt_replicate_reset (n := c.cacheLines) rfl]
    rfl
  refine HierarchyOk.inv ⟨⟨hc, ⟨hwf, hinside⟩, ⟨List.length_replicate, fun l hl => ?_, fun k _ hv => ?_,
      fun k _ hv => ?_, fun _ l hl => List.eq_of_mem_replicate hl⟩⟩,
    ⟨fun _ => ⟨rfl, rfl, rfl⟩, forall_mem_none, forall_mem_none⟩⟩ (ownerOk_free rfl)
    ⟨rfl, slotsOk_iff.2 ⟨forall_mem_none, ⟨?_, ?_, nofun, ?_⟩⟩,
      ⟨forall_mem_none, forall_record_empty, forall_record_empty, forall_record_empty, forall_record_empty,
        forall_record_empty, forall_record_empty, forall_record_empty, forall_record_empty, forall_record_empty⟩,
      fun i _ => Vector.getElem_replicate i.isLt⟩
  · rw [List.eq_of_mem_replicate hl]
    exact List.length_replicate
  · exact absurd ((hinvalid k).symm.trans hv) Bool.false_ne_true
  · exact absurd ((hinvalid k).symm.trans hv) Bool.false_ne_true
  all_goals
    have hempty (i : Nat) : occupants { State.powerOn c p e with ram := m } i = .none := by
      match i with
      | 0 | 1 | 2 | 3 | 4 | _ + 5 => rfl
  · exact fun i j _ hi => hempty j
  · refine ⟨nofun, ?_⟩
    rintro (⟨i, hi⟩ | hstop)
    · exact absurd ((hempty i).symm.trans hi) nofun
    · exact absurd hstop nofun
  · exact fun _ i j hi => absurd (hempty i) hi

theorem inv_powerOn {c : Config} (hc : c.legal = true) (p e : Bool) : Inv (State.powerOn c p e) :=
  inv_powerOn_ram hc p e rfl nofun

theorem ramOk_forceWrite {s : State} (h : RamOk s) (a : Nat) (w : Word) : RamOk (forceWrite s a w) := by
  refine ⟨forceWrite_wf h.canonical a w, fun c hc => ?_⟩
  by_cases ha : a < s.cfg.ramWords
  · rw [forceWrite_inside ha] at hc ⊢
    rcases Memory.mem_write hc with hc | ⟨rfl, -⟩
    · exact h.inside c hc
    · exact ha
  · rw [forceWrite_outside (Nat.le_of_not_lt ha)] at hc ⊢
    exact h.inside c hc

theorem ramOk_loadAt (i : Nat) (ws : List Word) {s : State} (h : RamOk s) : RamOk (loadAt i ws s) := by
  induction ws generalizing i s with
  | nil => exact h
  | cons w ws ih => exact ih (i + 1) (ramOk_forceWrite h i w)

/-- RAM changed behind a cache with no valid line leaves nothing for the cache to contradict (R237). -/
theorem inv_of_ram {s t : State} (h : Inv s) (hinvalid : ∀ k, (lineAt s k).valid = false)
    (ht : t = { s with ram := t.ram }) (hram : RamOk t) : Inv t := by
  have hvalid (k : Nat) : (lineAt t k).valid = false := by
    rw [ht]
    exact hinvalid k
  have hsame : SameButHierarchy s t := by
    rw [SameButHierarchy, ht]
  have howner : OwnerOk t := by
    rw [ht]
    exact ⟨h.owner.fetch, h.owner.mem⟩
  refine HierarchyOk.inv ⟨⟨?_, hram, ⟨?_, ?_, fun k _ hv => ?_, fun k _ hv => ?_, ?_⟩⟩, ⟨?_, ?_, fun p _ _ hv => ?_⟩⟩
    howner (h.pipeline.of_same hsame)
  case refine_4 | refine_5 | refine_9 => exact absurd ((hvalid _).symm.trans hv) Bool.false_ne_true
  all_goals rw [ht]
  · exact h.legal
  · exact h.cache.count
  · exact h.cache.width
  · exact h.cache.disabled
  · exact h.port.disabled
  · exact h.port.counting

/-- Settles O57: reset leaves a power-on state over the RAM it found, and a load moves RAM alone. -/
theorem hostKeepsSoundness : Obligations.HostKeepsSoundness :=
  ⟨fun _ p e hc => inv_powerOn hc p e, fun _ p e h => inv_powerOn_ram h.legal p e h.ram.canonical h.ram.inside,
    fun s words h hinvalid => inv_of_ram h hinvalid (loadAt_eq 0 words s) (ramOk_loadAt 0 words h.ram)⟩

/-- Settles O56: the reference configuration is legal. -/
theorem resetIsSound : Obligations.ResetIsSound := inv_powerOn (by decide) true false

/-! ### Memory in a step (R81, R131) -/

theorem sameMemory_writebackUpdate (s : State) : SameMemory s (writebackUpdate s) := by
  rw [writebackUpdate_frame]
  exact ⟨rfl, rfl, rfl, rfl⟩

theorem sameMemory_executeUpdate (s : State) : SameMemory s (executeUpdate s) := by
  rw [executeUpdate_frame]
  exact ⟨rfl, rfl, rfl, rfl⟩

theorem sameMemory_decodeUpdate (s : State) : SameMemory s (decodeUpdate s) := by
  rw [decodeUpdate_frame]
  exact ⟨rfl, rfl, rfl, rfl⟩

theorem sameMemory_advanceFetch (s : State) : SameMemory s (advanceFetch s) := by
  rw [advanceFetch_frame]
  exact ⟨rfl, rfl, rfl, rfl⟩

theorem sameMemory_injectPart (s : State) : SameMemory s (injectPart s) := by
  rw [injectPart_frame]
  exact ⟨rfl, rfl, rfl, rfl⟩

theorem access_answers {s t : State} (h : HierarchyOk s) {q : Request} (ha : q.addr < s.cfg.ramWords)
    {stage : Requester} {o : Reply} (haccess : access s q stage = (t, o)) : Answers s q t o := by
  have hserved := access_served h.memory h.port ha stage
  rw [haccess] at hserved
  exact hserved.answers

/-- The memory view after an access that is a read or waits. -/
theorem amem_access_of_no_write {s t : State} (h : HierarchyOk s) {q : Request} (ha : q.addr < s.cfg.ramWords)
    {stage : Requester} {o : Reply} (haccess : access s q stage = (t, o)) (hq : q.kind = .read ∨ o = .wait) (a : Nat) :
    amem t a = amem s a := by
  rw [(access_answers h ha haccess).view, if_neg]
  rintro ⟨hw, hdone, -⟩
  rcases hq with hr | rfl
  · exact absurd (hr.symm.trans hw) nofun
  · exact hdone rfl

/-- `storing` names the write request of the instruction in M. -/
theorem storing_of_inFlight {s : State} {r : Decoded} (hM : s.slotM = .inFlight r) :
    storing s = (requestOf s r).bind fun q => if q.kind = .write then some (q.addr, q.value) else none := by
  rw [storing, hM, requestOf]
  by_cases hin : r.result.toNat < s.cfg.ramWords
  · cases hk : kindOf r.raw <;> simp [hin, hk]
  · simp [hin]

/-- The memory view after part 2: the STR whose access is done has replaced its word, and nothing else has changed. -/
theorem amem_memoryUpdate {s : State} (h : HierarchyOk s) (hW : s.slotW = .empty) (a : Nat) :
    amem (memoryUpdate s) a =
      match storing s with
      | some (ea, v) => if a = ea ∧ (memoryUpdate s).slotW ≠ .empty then v else amem s a
      | none => amem s a := by
  cases hM : s.slotM with
  | empty => simp only [memoryUpdate_of_empty hM, storing, hM]
  | haltMarker =>
    simp only [memoryUpdate_of_haltMarker hM, storing, hM]
    exact SameMemory.amem_eq ⟨rfl, rfl, rfl, rfl⟩ a
  | inFlight r =>
    have hresult := memoryUpdate_result hM
    rw [storing_of_inFlight hM]
    generalize memoryUpdate s = t at hresult
    cases hresult with
    | passed r' hrequest hr =>
      simp only [hrequest, Option.bind_none]
      exact SameMemory.amem_eq ⟨rfl, rfl, rfl, rfl⟩ a
    | done q u w r' hrequest haccess hr =>
      have hview := (access_answers h (addr_of_requestOf hrequest) haccess).view a
      have hsame : SameMemory u { u with slotW := .inFlight r', slotM := .empty } := ⟨rfl, rfl, rfl, rfl⟩
      rw [hsame.amem_eq, hview, hrequest, Option.bind_some]
      cases q.kind <;> simp
    | waits q u hrequest haccess =>
      have hempty : u.slotW = .empty := by
        rw [same_of_access haccess]
        exact hW
      have hsame : SameMemory u { u with slotM := .inFlight { r with status := .stalled } } := ⟨rfl, rfl, rfl, rfl⟩
      rw [hsame.amem_eq, amem_access_of_no_write h (addr_of_requestOf hrequest) haccess (.inr rfl), hrequest,
        Option.bind_some]
      cases q.kind <;> simp [hempty]

/-- Fetch only reads. -/
theorem amem_fetchUpdate {s : State} (h : HierarchyOk s) (a : Nat) : amem (fetchUpdate s) a = amem s a := by
  cases hF : s.slotF with
  | none => rw [fetchUpdate_of_none hF]
  | some f =>
    by_cases hL : f.latched = .outstanding
    · cases hin : inRange s f.addr with
      | false =>
        rw [fetchUpdate_outside hF hL hin, (sameMemory_advanceFetch _).amem_eq]
        exact SameMemory.amem_eq ⟨rfl, rfl, rfl, rfl⟩ a
      | true =>
        rcases haccess : access s (fetchRequest f.addr) .fetch with ⟨u, reply⟩
        have hview := amem_access_of_no_write h (q := fetchRequest f.addr) (inRange_iff.1 hin) haccess (.inl rfl) a
        rw [← hview]
        cases reply with
        | wait =>
          rw [fetchUpdate_waits hF hL hin haccess]
          exact SameMemory.amem_eq ⟨rfl, rfl, rfl, rfl⟩ a
        | done w =>
          by_cases hw : w = haltWord
          · rw [fetchUpdate_of_sentinel hF hL hin (hw ▸ haccess), (sameMemory_advanceFetch _).amem_eq]
            exact SameMemory.amem_eq ⟨rfl, rfl, rfl, rfl⟩ a
          · rw [fetchUpdate_reads_word hF hL hin haccess hw, (sameMemory_advanceFetch _).amem_eq]
            exact SameMemory.amem_eq ⟨rfl, rfl, rfl, rfl⟩ a
    · rw [fetchUpdate_of_latched hF hL, (sameMemory_advanceFetch _).amem_eq]

/-- After part 2 no part of a step shows in the memory view. -/
theorem amem_stepUpdate {s : State} (h : Inv s) (a : Nat) : amem (stepUpdate s) a = amem (beforeExecute s) a := by
  have hbefore := inv_decodeUpdate (inv_executeUpdate (inv_beforeExecute h))
  rw [stepUpdate, (sameMemory_injectPart _).amem_eq, amem_fetchUpdate hbefore.hierarchy,
    (sameMemory_decodeUpdate _).amem_eq, (sameMemory_executeUpdate _).amem_eq]

/-- Settles O48: only part 2 can show in the memory view, and it makes one request, that of the instruction in M. -/
theorem onlyStoresChangeMemory : Obligations.OnlyStoresChangeMemory := by
  intro s t h hr hstep a _
  cases eq_stepUpdate_of_step hr hstep
  have hfound := inv_writebackUpdate (inv_cycles h (s.cycles + 1))
  have hsame : SameMemory s (writebackUpdate { s with cycles := s.cycles + 1 }) :=
    (⟨rfl, rfl, rfl, rfl⟩ : SameMemory s { s with cycles := s.cycles + 1 }).trans (sameMemory_writebackUpdate _)
  have hstoring : storing (writebackUpdate { s with cycles := s.cycles + 1 }) = storing s := by
    rw [writebackUpdate_frame]
    rfl
  have hview := amem_memoryUpdate hfound.hierarchy (writebackUpdate_slotW _) a
  rw [hstoring, hsame.amem_eq] at hview
  rw [amem_stepUpdate h, stepUpdate_slotW]
  exact hview

end Sys2Proof.Machine
end

section
/-! Progress at the port (50_pipeline.md R178): each step of the owner counts its access down, and the last completes
it. -/

namespace Sys2Proof.Machine

open Sys2Proof.Claims

theorem PortOk.enabled {s : State} (h : PortOk s) {p : Access} (hp : s.port = some p) : s.cacheEnabled = true := by
  by_contra he
  obtain ⟨hnone, -, -⟩ := h.disabled (Bool.eq_false_iff.2 he)
  exact absurd (hnone.symm.trans hp) nofun

/-- The owner's re-issue: the last WAIT completes the access, an earlier one is counted down (R69, R70). -/
theorem access_owner {s : State} (h : PortOk s) {p : Access} (hp : s.port = some p) :
    (p.count = 1 ∧ ∃ u w, access s p.pending p.owner = (u, .done w)) ∨
      (2 ≤ p.count ∧
        access s p.pending p.owner = ({ s with port := some { p with count := p.count - 1 } }, .wait)) := by
  have he := h.enabled hp
  obtain ⟨hcount, -⟩ := h.counting p hp
  by_cases hlast : p.count = 1
  · obtain ⟨w, hw⟩ := completeAccess_done { s with port := none } p.pending
    exact .inl ⟨hlast, _, w, (access_completes he hp hlast).trans (Prod.ext rfl hw)⟩
  · have hmore : 2 ≤ p.count := by omega
    exact .inr ⟨hmore, access_waits he hp hmore⟩

/-- A refused access leaves the state it found. -/
theorem eq_of_access_refused {s t : State} (h : PortOk s) {p : Access} (hp : s.port = some p) {q : Request}
    {stage : Requester} (ho : p.owner ≠ stage) {o : Reply} (haccess : access s q stage = (t, o)) :
    t = s ∧ o = .wait := by
  rw [access_refused (h.enabled hp) hp ho] at haccess
  cases haccess
  exact ⟨rfl, rfl⟩

theorem owner_ne_mem {p : Access} (h : p.owner = .fetch) : p.owner ≠ .mem := by simp [h]

theorem owner_ne_fetch {p : Access} (h : p.owner = .mem) : p.owner ≠ .fetch := by simp [h]

/-! ### The port through the parts of a step -/

theorem writebackUpdate_port (s : State) : (writebackUpdate s).port = s.port := by rw [writebackUpdate_frame]

theorem decodeUpdate_port (s : State) : (decodeUpdate s).port = s.port := by rw [decodeUpdate_frame]

theorem advanceFetch_port (s : State) : (advanceFetch s).port = s.port := by rw [advanceFetch_frame]

theorem injectPart_port (s : State) : (injectPart s).port = s.port := by rw [injectPart_frame]

/-- Memory cannot take the port from Fetch. -/
theorem memoryUpdate_port_of_fetch {s : State} (h : Inv s) {p : Access} (hp : s.port = some p) (ho : p.owner = .fetch) :
    (memoryUpdate s).port = some p := by
  cases hM : s.slotM with
  | empty => rwa [memoryUpdate_of_empty hM]
  | haltMarker => rwa [memoryUpdate_of_haltMarker hM]
  | inFlight r =>
    have hresult := memoryUpdate_result hM
    generalize memoryUpdate s = t at hresult
    cases hresult with
    | passed r' hrequest hr => exact hp
    | done q u w r' hrequest haccess hr =>
      obtain ⟨-, hwait⟩ := eq_of_access_refused h.port hp (owner_ne_mem ho) haccess
      exact absurd hwait nofun
    | waits q u hrequest haccess =>
      obtain ⟨rfl, -⟩ := eq_of_access_refused h.port hp (owner_ne_mem ho) haccess
      exact hp

/-- Fetch cannot take the port from Memory. -/
theorem fetchUpdate_port_of_mem {s : State} (h : Inv s) {p : Access} (hp : s.port = some p) (ho : p.owner = .mem) :
    (fetchUpdate s).port = some p := by
  cases hF : s.slotF with
  | none => rwa [fetchUpdate_of_none hF]
  | some f =>
    by_cases hL : f.latched = .outstanding
    · cases hin : inRange s f.addr with
      | false => rwa [fetchUpdate_outside hF hL hin, advanceFetch_port]
      | true =>
        have hrefused := access_refused (h.port.enabled hp) hp (owner_ne_fetch ho) (fetchRequest f.addr)
        rwa [fetchUpdate_waits hF hL hin hrefused]
    · rwa [fetchUpdate_of_latched hF hL, advanceFetch_port]

/-- Execute leaves Memory's access, which the squash does not touch (R162). -/
theorem executeUpdate_port_of_mem {s : State} {p : Access} (hp : s.port = some p) (ho : p.owner = .mem) :
    (executeUpdate s).port = some p := by
  cases htaken : takenInX s with
  | some target =>
    rw [executeUpdate_of_taken htaken, takeControl_eq]
    simp [hp, ho]
  | none => rwa [executeUpdate_frame_of_not_taken htaken]

/-- Fetch's access leaves Execute as it was, or is dropped by a squash. -/
theorem executeUpdate_port_of_fetch {s : State} {p : Access} (hp : s.port = some p) (ho : p.owner = .fetch) :
    (executeUpdate s).port = some p ∨ ((executeUpdate s).port = none ∧ (executeUpdate s).slotF = none) := by
  cases htaken : takenInX s with
  | some target =>
    rw [executeUpdate_of_taken htaken, takeControl_eq]
    exact .inr ⟨by simp [hp, ho], rfl⟩
  | none =>
    rw [executeUpdate_frame_of_not_taken htaken]
    exact .inl hp

/-- A read that Fetch counts down is done, or has one WAIT less to come. -/
theorem fetchUpdate_port_of_fetch {s : State} (h : Inv s) {p : Access} (hp : s.port = some p) (ho : p.owner = .fetch) :
    (fetchUpdate s).port = none ∨
      (2 ≤ p.count ∧ (fetchUpdate s).port = some { p with count := p.count - 1 }) := by
  obtain ⟨f, hF, hL, hin, hpending⟩ := h.owner.fetch p hp ho
  obtain ⟨owner, count, pending⟩ := p
  obtain rfl : owner = .fetch := ho
  obtain rfl : pending = fetchRequest f.addr := hpending
  rcases access_owner h.port hp with ⟨-, u, w, haccess⟩ | ⟨hcount, haccess⟩
  · have hfree := h.port.free_of_done haccess
    left
    by_cases hw : w = haltWord
    · rw [fetchUpdate_of_sentinel hF hL hin (hw ▸ haccess), advanceFetch_port]
      exact hfree
    · rw [fetchUpdate_reads_word hF hL hin haccess hw, advanceFetch_port]
      exact hfree
  · rw [fetchUpdate_waits hF hL hin haccess]
    exact .inr ⟨hcount, rfl⟩

/-! ### A step with the port owned -/

/-- The occupant of M leaves only in part 2. -/
theorem executeUpdate_slotM_of_occupied {s : State} (h : s.slotM ≠ .empty) : (executeUpdate s).slotM = s.slotM := by
  cases hX : s.slotX with
  | empty => rw [executeUpdate_of_empty hX]
  | haltMarker => rw [executeUpdate_of_haltMarker hX, moveMarkerFromExecute_blocked h]
  | inFlight r =>
    cases htaken : takenInX s with
    | some target => rw [executeUpdate_of_taken htaken, takeControl_eq]
    | none =>
      obtain ⟨-, v, hupdate⟩ := executeUpdate_of_not_taken hX htaken
      rw [hupdate, leaveExecute_eq, if_neg h]

/-- Part 2 with the port in Memory's hands: its instruction is in Writeback, or has one WAIT less to come. -/
theorem memoryUpdate_of_mem_owner {s : State} (h : Inv s) {p : Access} (hp : s.port = some p) (ho : p.owner = .mem) :
    ∃ r, s.slotM = .inFlight r ∧
      ((p.count = 1 ∧ tagged (memoryUpdate s).slotW = tagged s.slotM) ∨
        (2 ≤ p.count ∧ memoryUpdate s =
          { s with port := some { p with count := p.count - 1 },
                   slotM := .inFlight { r with status := .stalled } })) := by
  obtain ⟨owner, count, pending⟩ := p
  obtain rfl : owner = .mem := ho
  obtain ⟨r, hM, hrequest⟩ := h.owner.mem_request hp rfl
  have haccess := access_owner h.port hp
  refine ⟨r, hM, ?_⟩
  have hresult := memoryUpdate_result hM
  generalize memoryUpdate s = t at hresult
  cases hresult with
  | passed r' hnone hr => exact absurd (hnone.symm.trans hrequest) nofun
  | done q u w r' hrequest' haccess' hr =>
    cases hrequest'.symm.trans hrequest
    obtain ⟨v, c, rfl, -⟩ := hr
    rcases haccess with ⟨hcount, -⟩ | ⟨-, haccess⟩
    · exact .inl ⟨hcount, by rw [hM]; rfl⟩
    · exact absurd (haccess'.symm.trans haccess) (by simp)
  | waits q u hrequest' haccess' =>
    cases hrequest'.symm.trans hrequest
    rcases haccess with ⟨-, v, w, haccess⟩ | ⟨hcount, haccess⟩
    · exact absurd (haccess'.symm.trans haccess) (by simp)
    · cases haccess'.symm.trans haccess
      exact .inr ⟨hcount, rfl⟩

/-- A step in which Memory owns the port. -/
theorem stepUpdate_of_mem_owner {s : State} (h : Inv s) {p : Access} (hp : s.port = some p) (ho : p.owner = .mem) :
    (tagged s.slotM).isSome = true ∧
      ((p.count = 1 ∧ tagged (stepUpdate s).slotW = tagged s.slotM) ∨
        (2 ≤ p.count ∧ (stepUpdate s).port = some { p with count := p.count - 1 } ∧
          tagged (stepUpdate s).slotM = tagged s.slotM)) := by
  have hfound := inv_writebackUpdate (inv_cycles h (s.cycles + 1))
  have hport := (writebackUpdate_port { s with cycles := s.cycles + 1 }).trans hp
  have hslot : (writebackUpdate { s with cycles := s.cycles + 1 }).slotM = s.slotM := by rw [writebackUpdate_frame]
  obtain ⟨r, hM, hcases⟩ := memoryUpdate_of_mem_owner hfound hport ho
  rw [hslot] at hM hcases
  refine ⟨by rw [hM]; rfl, hcases.imp (fun ⟨hcount, hW⟩ => ⟨hcount, ?_⟩) fun ⟨hcount, hupdate⟩ => ⟨hcount, ?_, ?_⟩⟩
  · rw [stepUpdate_slotW]
    exact hW
  · rw [stepUpdate, injectPart_port]
    refine fetchUpdate_port_of_mem (inv_decodeUpdate (inv_executeUpdate (inv_beforeExecute h))) ?_ ho
    rw [decodeUpdate_port]
    refine executeUpdate_port_of_mem ?_ ho
    rw [beforeExecute, hupdate]
  · have hbefore : (beforeExecute s).slotM = .inFlight { r with status := .stalled } := by
      rw [beforeExecute, hupdate]
    rw [stepUpdate_slotM, executeUpdate_slotM_of_occupied (by simp [hbefore]), hbefore, hM]
    rfl

/-- A step in which Fetch owns the port: its read is done or dropped, or has one WAIT less to come. -/
theorem stepUpdate_of_fetch_owner {s : State} (h : Inv s) {p : Access} (hp : s.port = some p)
    (ho : p.owner = .fetch) :
    (stepUpdate s).port = none ∨ (2 ≤ p.count ∧ (stepUpdate s).port = some { p with count := p.count - 1 }) := by
  have hport : (beforeExecute s).port = some p :=
    memoryUpdate_port_of_fetch (inv_writebackUpdate (inv_cycles h (s.cycles + 1)))
      ((writebackUpdate_port { s with cycles := s.cycles + 1 }).trans hp) ho
  rw [stepUpdate, injectPart_port]
  rcases executeUpdate_port_of_fetch hport ho with hport | ⟨hport, hF⟩
  · exact fetchUpdate_port_of_fetch (inv_decodeUpdate (inv_executeUpdate (inv_beforeExecute h)))
      ((decodeUpdate_port _).trans hport) ho
  · rw [fetchUpdate_of_none (by rw [decodeUpdate_frame]; exact hF), decodeUpdate_port]
    exact .inl hport

/-- An owner of the port is younger than no marker in W, so the step it is in does not stop the machine. -/
theorem stepUpdate_running_of_owner {s : State} (h : Inv s) (hr : s.stopped = false) {p : Access}
    (hp : s.port = some p) : (stepUpdate s).stopped = false := by
  refine (stepUpdate_stopped fun hW => ?_).trans hr
  obtain ⟨hM, -, -, hF⟩ := h.slots.behindW hW
  cases ho : p.owner with
  | fetch =>
    obtain ⟨f, hf, -⟩ := h.owner.fetch p hp ho
    exact absurd (hF.symm.trans hf) nofun
  | mem =>
    obtain ⟨r, hr, -⟩ := h.owner.mem_request hp ho
    exact absurd (hM.symm.trans hr) nofun

theorem mem_owner_finishes (n : Nat) {s : State} {p : Access} (h : Inv s) (hr : s.stopped = false)
    (hp : s.port = some p) (ho : p.owner = .mem) (hn : p.count = n + 1) :
    ∃ t id, cyclesN (n + 1) s = .next t ∧ tagged s.slotM = some id ∧ tagged t.slotW = some id := by
  induction n generalizing s p with
  | zero =>
    obtain ⟨hsome, ⟨-, hW⟩ | ⟨hcount, -⟩⟩ := stepUpdate_of_mem_owner h hp ho
    · obtain ⟨id, hid⟩ := Option.isSome_iff_exists.1 hsome
      exact ⟨_, id, cyclesN_succ (step_running h.legal hr) 0, hid, hW.trans hid⟩
    · omega
  | succ n ih =>
    obtain ⟨-, ⟨hcount, -⟩ | ⟨-, hport, hM⟩⟩ := stepUpdate_of_mem_owner h hp ho
    · omega
    · obtain ⟨t, id, hcycles, hid, hW⟩ :=
        ih (inv_stepUpdate h) (stepUpdate_running_of_owner h hr hp) hport ho (by simp [hn])
      exact ⟨t, id, (cyclesN_succ (step_running h.legal hr) (n + 1)).trans hcycles, hM.symm.trans hid, hW⟩

theorem fetch_owner_finishes (n : Nat) {s : State} {p : Access} (h : Inv s) (hr : s.stopped = false)
    (hp : s.port = some p) (ho : p.owner = .fetch) (hn : p.count = n + 1) :
    ∃ k t, 1 ≤ k ∧ k ≤ n + 1 ∧ cyclesN k s = .next t ∧ t.port = none := by
  induction n generalizing s p with
  | zero =>
    rcases stepUpdate_of_fetch_owner h hp ho with hport | ⟨hcount, -⟩
    · exact ⟨1, _, by omega, by omega, cyclesN_succ (step_running h.legal hr) 0, hport⟩
    · omega
  | succ n ih =>
    have hstep := step_running h.legal hr
    rcases stepUpdate_of_fetch_owner h hp ho with hport | ⟨hcount, hport⟩
    · exact ⟨1, _, by omega, by omega, cyclesN_succ hstep 0, hport⟩
    · obtain ⟨k, t, hlo, hhi, hcycles, hfree⟩ :=
        ih (inv_stepUpdate h) (stepUpdate_running_of_owner h hr hp) hport ho (by simp [hn])
      exact ⟨k + 1, t, by omega, by omega, (cyclesN_succ hstep k).trans hcycles, hfree⟩

/-- Settles O49: by induction on the count, as each step of the owner takes one WAIT off it. -/
theorem portOwnersFinish : Obligations.PortOwnersFinish := by
  intro s p h hr hp
  obtain ⟨hcount, -⟩ := h.port.counting p hp
  obtain ⟨n, hn⟩ := Nat.exists_eq_add_of_le' hcount
  rw [hn]
  exact ⟨fun ho => mem_owner_finishes n h hr hp ho hn, fun ho => fetch_owner_finishes n h hr hp ho hn⟩

end Sys2Proof.Machine
end

section
/-! The effect of an instruction in program order (00_scope.md R10) in terms of the record that goes through the stages:
what Execute computes into it, with what Memory hands it on, and what its commit leaves. -/

namespace Sys2Proof.Machine

open Sys2Proof.Claims

/-! ### The table of R160 by kind -/

/-- `exec(r)` of the table of R160, by kind. -/
def resultByKind (k : Kind) (r : Decoded) : Word :=
  match k with
  | .add => r.op1 + r.op2
  | .sub => r.op1 - r.op2
  | .addi | .load | .str => r.op1 + r.imm
  | .ldi => r.imm
  | .bc | .j => controlTarget r.addr r.imm
  | .nop => 0

/-- `taken(r)` of the table of R160, by kind. -/
def takenByKind (k : Kind) (r : Decoded) : Bool :=
  match k with
  | .bc => condCodeHolds r.cond r.op1 r.op2
  | .j => true
  | .add | .sub | .addi | .ldi | .load | .str | .nop => false

theorem resultOf_eq (r : Decoded) : resultOf r = resultByKind (kindOf r.raw) r := by
  rw [kindOf_eq_row_kind, resultOf]
  generalize opNumber r.raw = op
  match op with
  | 0 | 1 | 2 | 3 | 4 | 5 | 6 | 7 | 8 | _ + 9 => rfl

theorem takenOf_eq (r : Decoded) : takenOf r = takenByKind (kindOf r.raw) r := by
  obtain ⟨hcond, -⟩ := conditionCodes
  rw [kindOf_eq_row_kind, takenOf]
  generalize opNumber r.raw = op
  match op with
  | 7 => exact (hcond _ _ _).symm
  | 0 | 1 | 2 | 3 | 4 | 5 | 6 | 8 | _ + 9 => rfl

/-! ### The record in Memory (R157) -/

/-- The record with which an instruction leaves Memory when it makes no request. -/
def passedBy (r : Decoded) : Decoded :=
  match kindOf r.raw with
  | .load | .str => { r with hasWriteback := false }
  | .add | .sub | .addi | .ldi | .bc | .j | .nop => { r with writebackVal := r.result }

/-- The record with which an instruction leaves Memory when its request `q` is answered with `w`. -/
def answered (q : Request) (r : Decoded) (w : Word) : Decoded :=
  match q.kind with
  | .read => { r with writebackVal := w }
  | .write => r

section
variable {s u : State} {r : Decoded} (hM : s.slotM = .inFlight r)
include hM

theorem memoryUpdate_of_no_request (hrequest : requestOf s r = none) : memoryUpdate s = leaveMemory (passedBy r) s := by
  have hout (hk : kindOf r.raw = .load ∨ kindOf r.raw = .str) : inRange s r.result = false := by
    by_contra hin
    rw [Bool.not_eq_false] at hin
    rcases hk with hk | hk
    · exact absurd (hrequest.symm.trans (requestOf_eq_some_iff.2 ⟨hin, .inl ⟨hk, rfl⟩⟩)) nofun
    · exact absurd (hrequest.symm.trans (requestOf_eq_some_iff.2 ⟨hin, .inr ⟨hk, rfl⟩⟩)) nofun
  rw [memoryUpdate_of_inFlight hM, passedBy]
  cases hk : kindOf r.raw with
  | load => exact (loadMemory_outside hM (hout (.inl hk))).trans rfl
  | str => exact (storeMemory_outside hM (hout (.inr hk))).trans rfl
  | add | sub | addi | ldi | bc | j | nop => exact (passMemory_inFlight hM).trans rfl

variable {q : Request} (hrequest : requestOf s r = some q)
include hrequest

theorem memoryUpdate_of_done {w : Word} (haccess : access s q .mem = (u, .done w)) :
    memoryUpdate s = leaveMemory (answered q r w) u := by
  rw [memoryUpdate_of_inFlight hM]
  obtain ⟨hin, ⟨hk, rfl⟩ | ⟨hk, rfl⟩⟩ := requestOf_eq_some_iff.1 hrequest
  · rw [hk]
    exact (loadMemory_done hM hin haccess).trans rfl
  · rw [hk]
    exact (storeMemory_done hM hin haccess).trans rfl

theorem memoryUpdate_of_wait (haccess : access s q .mem = (u, .wait)) :
    memoryUpdate s = { u with slotM := .inFlight { r with status := .stalled } } := by
  rw [memoryUpdate_of_inFlight hM]
  obtain ⟨hin, ⟨hk, rfl⟩ | ⟨hk, rfl⟩⟩ := requestOf_eq_some_iff.1 hrequest
  · rw [hk]
    exact loadMemory_wait hM hin haccess
  · rw [hk]
    exact storeMemory_wait hM hin haccess

end

/-! ### The effect in program order, in terms of the record -/

/-- The record of the word `w` at the pc once Execute has computed its result. -/
def executed (s : State) (w : Word) : Decoded :=
  { withOperands s (decodeRecord w s.pc) with result := resultOf (withOperands s (decodeRecord w s.pc)) }

/-- The record with which `r` leaves Memory, its request answered from the architectural memory view. -/
def served (s : State) (r : Decoded) : Decoded :=
  match requestOf s r with
  | some q => answered q r (amem s q.addr)
  | none => passedBy r

/-- The state with the store of `r` made, if it makes one. -/
def stored (s : State) (r : Decoded) : State :=
  match requestOf s r with
  | some q => match q.kind with
    | .write => memWrite s q.addr q.value
    | .read => s
  | none => s

/-- The architectural effect of the instruction whose record `r` Execute has left: the pc goes to its target if it is
taken, else its store is made and its register written. -/
def effectOf (s : State) (r : Decoded) : State :=
  if takenOf r then retireTo s (resultOf r)
  else { stored s r with x := (committed s (served s r)).x, pc := s.pc + 1, instrs := s.instrs + 1 }

theorem requestOf_eq {s : State} {r : Decoded} {k : Kind} (hk : kindOf r.raw = k) : requestOf s r =
    if inRange s r.result then
      match k with
      | .load => some { kind := .read, addr := r.result.toNat, value := 0 }
      | .str => some { kind := .write, addr := r.result.toNat, value := r.op3 }
      | .add | .sub | .addi | .ldi | .bc | .j | .nop => none
    else none := by
  subst hk
  exact if_congr inRange_iff.symm rfl rfl

/-- An instruction that is neither taken nor a memory instruction writes its result, if its record says so. -/
theorem effectOf_computes {s : State} {r : Decoded} {k : Kind} (hk : kindOf r.raw = k) (hload : k ≠ .load)
    (hstr : k ≠ .str) (htaken : takenByKind k r = false) :
    effectOf s r = retire (if r.hasWriteback then writeReg s r.rd r.result else s) := by
  have hrequest : requestOf s r = none := by
    rw [requestOf_eq hk]
    cases k <;> simp at hload hstr ⊢
  have hpassed : passedBy r = { r with writebackVal := r.result } := by
    rw [passedBy, hk]
    cases k <;> simp at hload hstr ⊢
  rw [effectOf, takenOf_eq, hk, htaken, if_neg Bool.false_ne_true, stored, served, hrequest]
  simp only [hpassed, committed]
  cases r.hasWriteback <;> rfl

/-- A LOAD writes the word at its address, inside RAM (R130, R132). -/
theorem effectOf_load {s : State} {r : Decoded} (hk : kindOf r.raw = .load) (hw : r.hasWriteback = true) :
    effectOf s r = retire (if inRange s r.result then writeReg s r.rd (amem s r.result.toNat) else s) := by
  rw [effectOf, takenOf_eq, hk, takenByKind, if_neg Bool.false_ne_true, stored, served, requestOf_eq hk, passedBy, hk]
  cases inRange s r.result with
  | true => simp only [if_true, answered, committed, hw]; rfl
  | false => simp only [Bool.false_eq_true, if_false, committed]; rfl

/-- A STR stores its register, inside RAM (R131, R132). -/
theorem effectOf_str {s : State} {r : Decoded} (hk : kindOf r.raw = .str) (hw : r.hasWriteback = false) :
    effectOf s r = retire (if inRange s r.result then memWrite s r.result.toNat r.op3 else s) := by
  rw [effectOf, takenOf_eq, hk, takenByKind, if_neg Bool.false_ne_true, stored, served, requestOf_eq hk, passedBy, hk]
  cases inRange s r.result with
  | true =>
    simp only [if_true, answered, committed, hw, Bool.false_eq_true, if_false]
    rw [memWrite_eq]
    rfl
  | false => simp only [Bool.false_eq_true, if_false, committed]; rfl

/-- A control instruction goes to its target if it is taken. -/
theorem effectOf_taken {s : State} {r : Decoded} {k : Kind} (hk : kindOf r.raw = k) (htaken : takenByKind k r = true) :
    effectOf s r = retireTo s (resultByKind k r) := by
  rw [effectOf, takenOf_eq, resultOf_eq, hk, if_pos htaken]

/-- The record of an instruction `i`, by its row of R103. -/
theorem executed_eq {s : State} {w : Word} {i : Instr} (hi : decodeOp w = i) : executed s w =
    { withOperands s (recordOf (fieldsOf i) w s.pc) with
      result := resultByKind (fieldsOf i).kind (withOperands s (recordOf (fieldsOf i) w s.pc)) } := by
  subst hi
  rw [executed, resultOf_eq]
  rfl

theorem takenAt_eq {s : State} {w : Word} {i : Instr} (hi : decodeOp w = i) :
    takenOf (executed s w) = takenAt i s := by
  have hk : kindOf w = (fieldsOf i).kind := by rw [kindOf, hi]
  have hraw : (executed s w).raw = w := rfl
  rw [takenOf_eq, hraw, hk, executed_eq hi]
  cases i
  case bc cc ra rb disp => exact congrArg (condHolds · _ _) (Cond.ofBits_toBits cc)
  all_goals rfl

/-- In program order an instruction does what its record does (R10). -/
theorem exec_eq_effectOf {s : State} (hp : s.phase = .program) {w : Word} {i : Instr} (hi : decodeOp w = i) :
    exec i s = .next (effectOf s (executed s w)) := by
  have hne : i ≠ .halt := hi ▸ decodeOp_ne_halt w
  have hk : kindOf (executed s w).raw = (fieldsOf i).kind := congrArg (fun i => (fieldsOf i).kind) hi
  have htaken := (takenOf_eq (executed s w)).symm.trans (takenAt_eq hi)
  have he := executed_eq (s := s) hi
  rw [hk] at htaken
  have hs : inPhase s .program = s := hp ▸ inPhase_self s
  cases i
  case halt => exact absurd rfl hne
  case load rd rs1 ign imm =>
    have h := exec_load_program s rd rs1 ign imm
    rw [hs] at h
    rw [h, effectOf_load hk (by rw [he]; rfl), he]
    rfl
  case str rsd rs1 ign imm =>
    have h := exec_str_program s rsd rs1 ign imm
    rw [hs] at h
    rw [h, effectOf_str hk (by rw [he]; rfl), he]
    rfl
  case bc cc ra rb disp =>
    cases hcond : condHolds cc (readReg s ra) (readReg s rb) with
    | true =>
      rw [effectOf_taken hk (htaken.trans hcond), he]
      simp only [exec, execBc, hp, hcond, if_true]
      rfl
    | false =>
      rw [effectOf_computes hk nofun nofun (htaken.trans hcond), he]
      simp only [exec, execBc, hp, hcond, if_false, Bool.false_eq_true]
      rfl
  case j ign disp =>
    rw [effectOf_taken hk htaken, he]
    simp only [exec, execJ, hp]
    rfl
  case add | sub | addi | ldi =>
    rw [effectOf_computes hk nofun nofun htaken, he]
    simp only [exec, execAdd, execSub, execAddi, execLdi, hp]
    rfl
  all_goals
    have hnop : performNop s = retire s := by simp only [performNop, hp]
    rw [effectOf_computes hk nofun nofun htaken, he]
    exact congrArg Host.Outcome.next hnop

end Sys2Proof.Machine
end

section
/-! The steps of a machine that is not pipelined and holds one instruction (50_pipeline.md R179): one per stage, and one
for each WAIT of its fetch and of its access. -/

namespace Sys2Proof.Machine

open Sys2Proof.Claims

/-- The machine runs, is not pipelined and fetches. -/
structure Serial (s : State) : Prop where
  legal : s.cfg.legal = true
  mode : s.pipelineEnabled = false
  running : s.stopped = false
  fetching : s.fetchStopped = false

/-- `s` with the given occupants of F, D, X, M and W. -/
def holding (s : State) (f : Option FetchEntry) (d : Slot DecodeEntry) (x m w : Slot Decoded) : State :=
  { s with slotF := f, slotD := d, slotX := x, slotM := m, slotW := w }

/-- The fetch of the word at `a`, its read outstanding. -/
def fetchingAt (a : Word) (status : Status) : Option FetchEntry :=
  some { addr := a, latched := .outstanding, status := status }

theorem holding_eq {s : State} {f : Option FetchEntry} (hD : s.slotD = .empty) (hX : s.slotX = .empty)
    (hM : s.slotM = .empty) (hW : s.slotW = .empty) :
    holding s f .empty .empty .empty .empty = { s with slotF := f } := by
  cases s
  simp_all [holding]

/-- Not pipelined, nothing is injected while a slot is occupied (R172). -/
theorem injectPart_of_occupied {s : State} (hmode : s.pipelineEnabled = false)
    (h : ¬ (s.slotF = none ∧ s.slotD = .empty ∧ s.slotX = .empty ∧ s.slotM = .empty ∧ s.slotW = .empty)) :
    injectPart s = s := by
  rw [injectPart_eq, if_neg]
  rintro ⟨hF, -, hpipelined | halone⟩
  · exact Bool.false_ne_true (hmode.symm.trans hpipelined)
  · exact h ⟨hF, halone⟩

section
variable {s : State} (h : Serial s)
include h

theorem step_holding (f : Option FetchEntry) (d : Slot DecodeEntry) (x m w : Slot Decoded) :
    step (holding s f d x m w) = .next (stepUpdate (holding s f d x m w)) :=
  step_running h.legal h.running

/-- A step with a fetch alone is parts 5 and 6. -/
theorem step_in_fetch {f : Option FetchEntry} {t : State}
    (hfetch : fetchUpdate (holding { s with cycles := s.cycles + 1 } f .empty .empty .empty .empty) = t)
    (hmode : t.pipelineEnabled = false) (hoccupied : ¬ (t.slotF = none ∧ t.slotD = .empty)) :
    step (holding s f .empty .empty .empty .empty) = .next t := by
  rw [step_holding h, stepUpdate_of_backEnd_empty rfl rfl rfl rfl]
  refine congrArg Host.Outcome.next ((congrArg injectPart hfetch).trans (injectPart_of_occupied hmode ?_))
  rintro ⟨hF, hD, -⟩
  exact hoccupied ⟨hF, hD⟩

/-- F to D (R169, R171). -/
theorem step_fetch_done {u : State} {w : Word} {st : Status} (hin : s.pc.toNat < s.cfg.ramWords) (hw : w ≠ haltWord)
    (haccess : access (holding { s with cycles := s.cycles + 1 } (fetchingAt s.pc st) .empty .empty .empty .empty)
      (fetchRequest s.pc) .fetch = (u, .done w)) :
    step (holding s (fetchingAt s.pc st) .empty .empty .empty .empty) = .next
      (holding { u with pc := u.pc + 1 } none (.inFlight { addr := s.pc, raw := w, status := .normal })
        .empty .empty .empty) := by
  have hF : (holding { s with cycles := s.cycles + 1 } (fetchingAt s.pc st) .empty .empty .empty .empty).slotF =
      some { addr := s.pc, latched := .outstanding, status := st } := rfl
  have hfetch := fetchUpdate_reads_word hF rfl (inRange_iff.2 hin) haccess hw
  obtain ⟨ram, lines, port, hits, misses, rfl⟩ := (same_of_access haccess).exists
  refine step_in_fetch h (hfetch.trans ?_) h.mode (by simp [holding])
  exact (advanceFetch_word rfl rfl).trans (if_pos rfl)

/-- The fetch waits (R168). -/
theorem step_fetch_waits {u : State} {st : Status} (hin : s.pc.toNat < s.cfg.ramWords)
    (haccess : access (holding { s with cycles := s.cycles + 1 } (fetchingAt s.pc st) .empty .empty .empty .empty)
      (fetchRequest s.pc) .fetch = (u, .wait)) :
    step (holding s (fetchingAt s.pc st) .empty .empty .empty .empty) = .next
      (holding u (fetchingAt s.pc .stalled) .empty .empty .empty .empty) := by
  have hF : (holding { s with cycles := s.cycles + 1 } (fetchingAt s.pc st) .empty .empty .empty .empty).slotF =
      some { addr := s.pc, latched := .outstanding, status := st } := rfl
  have hfetch := fetchUpdate_waits hF rfl (inRange_iff.2 hin) haccess
  obtain ⟨ram, lines, port, hits, misses, rfl⟩ := (same_of_access haccess).exists
  exact step_in_fetch h hfetch h.mode (by simp [holding, fetchingAt])

/-- D to X (R166, R167): with nothing ahead there is no hazard. -/
theorem step_in_decode (q : DecodeEntry) : step (holding s none (.inFlight q) .empty .empty .empty) = .next
    (holding { s with cycles := s.cycles + 1 } none .empty (.inFlight (withOperands s (decodeRecord q.raw q.addr)))
      .empty .empty) := by
  have hdecode : decodeUpdate (holding { s with cycles := s.cycles + 1 } none (.inFlight q) .empty .empty .empty) =
      holding { s with cycles := s.cycles + 1 } none .empty (.inFlight (withOperands s (decodeRecord q.raw q.addr)))
        .empty .empty :=
    issueDecode_inFlight (s := holding { s with cycles := s.cycles + 1 } none (.inFlight q) .empty .empty .empty) rfl _
  rw [step_holding h, stepUpdate_of_slotF_none rfl]
  refine congrArg Host.Outcome.next ((congrArg injectPart hdecode).trans (injectPart_of_occupied h.mode ?_))
  simp [holding]

/-- X to M (R163). -/
theorem step_in_execute {r : Decoded} (htaken : takenOf r = false) :
    step (holding s none .empty (.inFlight r) .empty .empty) = .next
      (holding { s with cycles := s.cycles + 1 } none .empty .empty
        (.inFlight { r with result := resultOf r, status := .normal }) .empty) := by
  have hexecute : executeUpdate (holding { s with cycles := s.cycles + 1 } none .empty (.inFlight r) .empty .empty) =
      holding { s with cycles := s.cycles + 1 } none .empty .empty
        (.inFlight { r with result := resultOf r, status := .normal }) .empty := by
    rw [executeUpdate_of_inFlight rfl, htaken]
    rfl
  rw [step_holding h, stepUpdate_of_slotF_none rfl]
  refine congrArg Host.Outcome.next ((congrArg (fun u => injectPart (decodeUpdate u)) hexecute).trans ?_)
  rw [decodeUpdate_of_empty rfl]
  exact injectPart_of_occupied h.mode (by simp [holding])

/-- The squash, and the fetch injected at the target (R161, R172). -/
theorem step_in_execute_taken {r : Decoded} (htaken : takenOf r = true) (hport : s.port = none) :
    step (holding s none .empty (.inFlight r) .empty .empty) = .next
      (holding { retireTo s (resultOf r) with cycles := s.cycles + 1 } (fetchAt (resultOf r))
        .empty .empty .empty .empty) := by
  have hexecute : executeUpdate (holding { s with cycles := s.cycles + 1 } none .empty (.inFlight r) .empty .empty) =
      squashedTo (holding { s with cycles := s.cycles + 1 } none .empty (.inFlight r) .empty .empty) (resultOf r) := by
    rw [executeUpdate_of_inFlight rfl, htaken, if_pos rfl]
  rw [step_holding h, stepUpdate_of_slotF_none rfl]
  refine congrArg Host.Outcome.next ((congrArg (fun u => injectPart (decodeUpdate u)) hexecute).trans ?_)
  refine (injectPart_squashedTo _ _).trans ?_
  rw [if_pos (.inr ⟨rfl, rfl⟩)]
  simp [squashedTo, holding, hport, h.fetching, retireTo]

/-- A step with an instruction in M alone is part 2, as the next fetch is not injected yet. -/
theorem step_in_memory {r : Decoded} {t : State} {m w : Slot Decoded}
    (hmemory : memoryUpdate (holding { s with cycles := s.cycles + 1 } none .empty .empty (.inFlight r) .empty) =
      holding t none .empty .empty m w)
    (hmode : t.pipelineEnabled = false) (hoccupied : ¬ (m = .empty ∧ w = .empty)) :
    step (holding s none .empty .empty (.inFlight r) .empty) = .next (holding t none .empty .empty m w) := by
  rw [step_holding h, stepUpdate_of_slotF_none rfl]
  refine congrArg Host.Outcome.next
    ((congrArg (fun u => injectPart (decodeUpdate (executeUpdate u))) hmemory).trans
      (injectPart_of_occupied hmode ?_))
  rintro ⟨-, -, -, hM, hW⟩
  exact hoccupied ⟨hM, hW⟩

/-- W to completion, and the fetch injected at the pc (R153, R172). -/
theorem step_in_writeback (r : Decoded) : step (holding s none .empty .empty .empty (.inFlight r)) = .next
    (holding { s with cycles := s.cycles + 1, x := (committed s r).x, instrs := s.instrs + 1 } (fetchAt s.pc)
      .empty .empty .empty .empty) := by
  have hcommit := writebackUpdate_of_inFlight
    (s := holding { s with cycles := s.cycles + 1 } none .empty .empty .empty (.inFlight r)) rfl
  rw [step_holding h, stepUpdate_of_slotF_none rfl]
  refine congrArg Host.Outcome.next
    ((congrArg (fun u => injectPart (decodeUpdate (executeUpdate (memoryUpdate u)))) hcommit).trans ?_)
  exact (injectPart_eq _).trans (if_pos ⟨rfl, h.fetching, .inr ⟨rfl, rfl, rfl, rfl⟩⟩)

end

/-! ### Cache disabled -/

theorem stored_same (s : State) (r : Decoded) : SameButHierarchy s (stored s r) := by
  unfold stored
  split
  · split
    · rw [memWrite_eq]
      rfl
    · rfl
  · rfl

theorem stored_at (s : State) (r : Decoded) (n : Nat) (p : Word) :
    stored { s with cycles := n, pc := p } r = { stored s r with cycles := n, pc := p } := by
  have hrequest : requestOf { s with cycles := n, pc := p } r = requestOf s r := rfl
  have hwrite (a : Nat) (v : Word) :
      memWrite { s with cycles := n, pc := p } a v = { memWrite s a v with cycles := n, pc := p } := by
    cases h : s.cacheEnabled && hitAt s a with
    | true => rw [memWrite_cached h, memWrite_cached (s := { s with cycles := n, pc := p }) h]; rfl
    | false => rw [memWrite_uncached h, memWrite_uncached (s := { s with cycles := n, pc := p }) h]
  unfold stored
  rw [hrequest]
  cases requestOf s r with
  | none => rfl
  | some q =>
    dsimp only
    cases q.kind with
    | read => rfl
    | write => exact hwrite _ _

/-- M to W, the access done at once (R157, R65). -/
theorem step_in_memory_disabled {s : State} (h : Serial s) (hdirect : s.cacheEnabled = false) (r : Decoded) :
    step (holding s none .empty .empty (.inFlight r) .empty) = .next
      (holding { stored s r with cycles := s.cycles + 1 } none .empty .empty .empty
        (.inFlight { served s r with status := .normal })) := by
  have hmode : (stored s r).pipelineEnabled = false := by
    rw [stored_same]
    exact h.mode
  refine step_in_memory h ?_ hmode (by simp)
  have hrequest : requestOf (holding { s with cycles := s.cycles + 1 } none .empty .empty (.inFlight r) .empty) r =
      requestOf s r := rfl
  cases hq : requestOf s r with
  | none =>
    rw [memoryUpdate_of_no_request rfl (hrequest.trans hq), stored, served, hq]
    rfl
  | some q =>
    have haccess := access_disabled
      (s := holding { s with cycles := s.cycles + 1 } none .empty .empty (.inFlight r) .empty) hdirect q .mem
    rw [stored, served, hq]
    cases hk : q.kind with
    | read =>
      rw [hk] at haccess
      rw [memoryUpdate_of_done rfl (hrequest.trans hq) haccess]
      simp [answered, hk, leaveMemory, holding, amem_disabled hdirect]
    | write =>
      rw [hk] at haccess
      rw [memoryUpdate_of_done rfl (hrequest.trans hq) haccess]
      simp only [memWrite_uncached (s := s) (by simp [hdirect])]
      simp [answered, hk, leaveMemory, holding]

/-- F to D, the word read at once (R169, R65). -/
theorem step_in_fetch_disabled {s : State} (h : Serial s) (hdirect : s.cacheEnabled = false)
    (hin : s.pc.toNat < s.cfg.ramWords) (hw : s.ram.read s.pc.toNat ≠ haltWord) :
    step (holding s (fetchAt s.pc) .empty .empty .empty .empty) = .next
      (holding { s with cycles := s.cycles + 1, pc := s.pc + 1 } none
        (.inFlight { addr := s.pc, raw := s.ram.read s.pc.toNat, status := .normal }) .empty .empty .empty) := by
  have haccess := access_disabled
    (s := holding { s with cycles := s.cycles + 1 } (fetchAt s.pc) .empty .empty .empty .empty) hdirect
    (fetchRequest s.pc) .fetch
  exact step_fetch_done (st := .normal) h hin hw haccess

theorem Serial.of_same {s t : State} (h : Serial s) (hsame : SameButHierarchy s t) : Serial t := by
  rw [hsame]
  exact ⟨h.legal, h.mode, h.running, h.fetching⟩

/-- The record of the word at the pc as Decode hands it to Execute. -/
def fetched (s : State) (w : Word) : Decoded := withOperands s (decodeRecord w s.pc)

/-- The machine `s` once its word `w` has reached Execute, at cycle `n`. -/
def inExecute (s : State) (n : Nat) (w : Word) : State :=
  holding { s with cycles := n, pc := s.pc + 1 } none .empty (.inFlight (fetched s w)) .empty .empty

/-- The effect of an instruction is on no slot. -/
theorem holding_effectOf {s : State} (hD : s.slotD = .empty) (hX : s.slotX = .empty) (hM : s.slotM = .empty)
    (hW : s.slotW = .empty) (r : Decoded) (n : Nat) (f : Option FetchEntry) :
    holding { effectOf s r with cycles := n } f .empty .empty .empty .empty =
      { effectOf s r with cycles := n, slotF := f } := by
  have hslots : (effectOf s r).slotD = s.slotD ∧ (effectOf s r).slotX = s.slotX ∧ (effectOf s r).slotM = s.slotM ∧
      (effectOf s r).slotW = s.slotW := by
    unfold effectOf
    split
    · exact ⟨rfl, rfl, rfl, rfl⟩
    · rw [stored_same]
      exact ⟨rfl, rfl, rfl, rfl⟩
  obtain ⟨hD', hX', hM', hW'⟩ := hslots
  exact holding_eq (hD'.trans hD) (hX'.trans hX) (hM'.trans hM) (hW'.trans hW)

section
variable {s : State} (h : Serial s)
include h

theorem cyclesN_to_execute (hdirect : s.cacheEnabled = false) (hin : s.pc.toNat < s.cfg.ramWords)
    (hw : s.ram.read s.pc.toNat ≠ haltWord) (n : Nat) :
    cyclesN (n + 2) (holding s (fetchAt s.pc) .empty .empty .empty .empty) =
      cyclesN n (inExecute s (s.cycles + 2) (s.ram.read s.pc.toNat)) := by
  have hserial : Serial { s with cycles := s.cycles + 1, pc := s.pc + 1 } :=
    ⟨h.legal, h.mode, h.running, h.fetching⟩
  rw [cyclesN_succ (step_in_fetch_disabled h hdirect hin hw), cyclesN_succ (step_in_decode hserial _)]
  rfl

/-- A taken control instruction is gone after the next step. -/
theorem cyclesN_taken (hport : s.port = none) {w : Word} {n : Nat} (htaken : takenOf (executed s w) = true) :
    cyclesN 1 (inExecute s n w) = .next
      (holding { effectOf s (executed s w) with cycles := n + 1 } (fetchAt (effectOf s (executed s w)).pc)
        .empty .empty .empty .empty) := by
  have hserial : Serial { s with cycles := n, pc := s.pc + 1 } := ⟨h.legal, h.mode, h.running, h.fetching⟩
  have hstep := step_in_execute_taken hserial (r := fetched s w) htaken hport
  rw [inExecute, cyclesN_succ hstep, effectOf, if_pos htaken]
  rfl

/-- Any other takes three. -/
theorem cyclesN_not_taken (hdirect : s.cacheEnabled = false) {w : Word} {n : Nat}
    (htaken : takenOf (executed s w) = false) :
    cyclesN 3 (inExecute s n w) = .next
      (holding { effectOf s (executed s w) with cycles := n + 3 } (fetchAt (effectOf s (executed s w)).pc)
        .empty .empty .empty .empty) := by
  have hX : Serial { s with cycles := n, pc := s.pc + 1 } := ⟨h.legal, h.mode, h.running, h.fetching⟩
  have hM : Serial { s with cycles := n + 1, pc := s.pc + 1 } := ⟨h.legal, h.mode, h.running, h.fetching⟩
  have hW : Serial { stored { s with cycles := n + 1, pc := s.pc + 1 } (executed s w) with cycles := n + 2 } := by
    rw [stored_same]
    exact ⟨h.legal, h.mode, h.running, h.fetching⟩
  have hexecute := step_in_execute hX (r := fetched s w) htaken
  have hmemory := step_in_memory_disabled hM hdirect (executed s w)
  rw [inExecute, cyclesN_succ hexecute]
  refine (cyclesN_succ hmemory _).trans ((cyclesN_succ (step_in_writeback hW _) _).trans ?_)
  rw [effectOf, htaken, if_neg Bool.false_ne_true, stored_at]
  obtain ⟨ram, lines, port, hits, misses, hstored⟩ := (stored_same s (executed s w)).exists
  rw [hstored]
  rfl

end

theorem SerialStart.serial {s : State} (hl : s.cfg.legal = true) (h : SerialStart s) : Serial s :=
  ⟨hl, h.mode, h.running.1, h.running.2⟩

theorem SerialStart.holding {s : State} (h : SerialStart s) :
    holding s (fetchAt s.pc) .empty .empty .empty .empty = s := by
  obtain ⟨hD, hX, hM, hW⟩ := h.alone
  rw [holding_eq hD hX hM hW, fetchAt, ← h.fetch]

/-- With the cache disabled, a sentinel or an address outside RAM sends the marker to D (R145, R169, R171). -/
theorem step_serial_halt {s : State} (hl : s.cfg.legal = true) (h : SerialStart s) (hdirect : s.cacheEnabled = false)
    (hword : s.pc.toNat < s.cfg.ramWords → s.ram.read s.pc.toNat = 0) :
    step s = .next (draining s (s.cycles + 1) .haltMarker .empty .empty .empty) := by
  obtain ⟨hrunning, -⟩ := h.running
  by_cases hin : s.pc.toNat < s.cfg.ramWords
  · exact step_haltArrives ⟨hl, hrunning, hdirect, h.fetch, ⟨hin, hword hin⟩, h.alone⟩
  · obtain ⟨hD, hX, hM, hW⟩ := h.alone
    have hout : inRange { s with cycles := s.cycles + 1 } s.pc = false :=
      Bool.eq_false_iff.2 (mt inRange_iff.1 hin)
    rw [step_running hl hrunning, stepUpdate_of_backEnd_empty hD hX hM hW,
      fetchUpdate_outside (s := { s with cycles := s.cycles + 1 }) h.fetch rfl hout, advanceFetch_halt rfl rfl,
      if_pos hD, injectPart_of_fetchStopped rfl, draining, hX, hM, hW]

/-- Settles O59: the record carries the effect through the stages, one step for each; a marker takes the five steps of
O18. -/
theorem serialInstructionTakesItsEffect : Obligations.SerialInstructionTakesItsEffect := by
  refine ⟨fun s t i hl hp hstart hdirect hin hdecode hne hexec => ?_, fun s hl hstart hdirect hword => ?_⟩
  · have hw : s.ram.read s.pc.toNat ≠ haltWord := fun hw => hne (hdecode ▸ (decodeWord_halt_iff _).2 hw)
    have hi : decodeOp (s.ram.read s.pc.toNat) = i := (decodeWord_of_ne hw).symm.trans hdecode
    have hserial := hstart.serial hl
    obtain ⟨hD, hX, hM, hW⟩ := hstart.alone
    cases hexec.symm.trans (exec_eq_effectOf hp hi)
    have hgo := cyclesN_to_execute hserial hdirect hin hw
    rw [hstart.holding] at hgo
    have hrest := holding_effectOf hD hX hM hW (executed s (s.ram.read s.pc.toNat))
    rw [← takenAt_eq hi]
    cases htaken : takenOf (executed s (s.ram.read s.pc.toNat)) with
    | true => exact (hgo 1).trans ((cyclesN_taken hserial hstart.port htaken).trans (congrArg _ (hrest _ _)))
    | false => exact (hgo 3).trans ((cyclesN_not_taken hserial hdirect htaken).trans (congrArg _ (hrest _ _)))
  · obtain ⟨hD, hX, hM, hW⟩ := hstart.alone
    obtain ⟨hr, -⟩ := hstart.running
    rw [cyclesN_succ (step_serial_halt hl hstart hdirect hword), cyclesN_succ (step_draining_decode hl hr _),
      cyclesN_succ (step_draining_execute hl hr _), cyclesN_succ (step_draining_memory hl hr _),
      cyclesN_succ (step_draining_writeback hl hr _), cyclesN, draining, hD, hX, hM, hW]

end Sys2Proof.Machine
end

section
/-! One instruction at a time in every cache mode (50_pipeline.md R179, 70_reset_and_hazards.md R256): its fetch and its
access take at most one step more than the delay charged, and its effect is that of program order. -/

namespace Sys2Proof.Machine

open Sys2Proof.Claims

/-! ### Counting the WAITs -/

theorem cyclesN_add {s t u : State} {m n : Nat} (hm : cyclesN m s = .next t) (hn : cyclesN n t = .next u) :
    cyclesN (m + n) s = .next u := by
  induction m generalizing s with
  | zero =>
    cases hm
    rwa [Nat.zero_add]
  | succ m ih =>
    rw [cyclesN] at hm
    rw [Nat.succ_add, cyclesN]
    cases hstep : step s with
    | next v =>
      rw [hstep] at hm
      exact ih hm
    | fault r => exact r.rec
    | refused r =>
      rw [hstep] at hm
      cases hm

/-- A phase that can wait `L` times at most and then is done is done after at most `L + 1` steps. -/
theorem reaches {W D : Nat → State → Prop} {L : Nat}
    (hprogress : ∀ k s, W k s → k ≤ L ∧ ∃ t, step s = .next t ∧ (W (k + 1) t ∨ D (k + 1) t)) {k : Nat} {s : State}
    (h : W k s) : ∃ n t, cyclesN n s = .next t ∧ D (k + n) t ∧ 1 ≤ n ∧ k + n ≤ L + 1 := by
  induction hj : L - k generalizing k s with
  | zero =>
    obtain ⟨hk, t, hstep, hwaits | hdone⟩ := hprogress k s h
    · have := (hprogress _ _ hwaits).1
      omega
    · exact ⟨1, t, cyclesN_succ hstep 0, hdone, Nat.le_refl 1, by omega⟩
  | succ j ih =>
    obtain ⟨hk, t, hstep, hwaits | hdone⟩ := hprogress k s h
    · obtain ⟨n, u, hcycles, hdone, hlo, hhi⟩ := ih hwaits (by omega)
      rw [Nat.add_right_comm] at hdone hhi
      exact ⟨n + 1, u, (cyclesN_succ hstep n).trans hcycles, hdone, Nat.le_add_left 1 n, hhi⟩
    · exact ⟨1, t, cyclesN_succ hstep 0, hdone, Nat.le_refl 1, by omega⟩

/-- After no WAIT the port is free; after `k` it holds the request that `stage` makes, with at most `L + 1 - k` to
come. -/
def PortFor (L : Nat) (stage : Requester) (request : Option Request) (k : Nat) (s : State) : Prop :=
  (k = 0 ∧ s.port = none) ∨
    ∃ c q, request = some q ∧ s.port = some { owner := stage, count := c, pending := q } ∧ c + k ≤ L + 1

/-- An issue of the request is done, or it is one WAIT more. -/
theorem access_portFor {L : Nat} {stage : Requester} {q : Request} {k : Nat} {s t : State} {o : Reply}
    (hport : PortOk s) (h : PortFor L stage (some q) k s) (hdelay : delayOf s q.addr ≤ L)
    (haccess : access s q stage = (t, o)) :
    k ≤ L ∧ ((∃ w, o = .done w) ∨ (o = .wait ∧ PortFor L stage (some q) (k + 1) t)) := by
  rcases h with ⟨rfl, hfree⟩ | ⟨c, q', hq, hp, hc⟩
  · refine ⟨Nat.zero_le L, ?_⟩
    cases he : s.cacheEnabled with
    | false =>
      rw [access_disabled he] at haccess
      cases hk : q.kind <;> simp only [hk, Prod.mk.injEq] at haccess <;> exact .inl ⟨_, haccess.2.symm⟩
    | true =>
      have haccept : access s q stage = acceptRequest s q stage := by rw [access, he, hfree]; rfl
      rw [haccept, acceptRequest] at haccess
      split at haccess
      · obtain ⟨w, hw⟩ := completeAccess_done (countAccess s q.addr) q
        rw [haccess] at hw
        exact .inl ⟨w, hw⟩
      · cases haccess
        exact .inr ⟨rfl, .inr ⟨_, q, rfl, rfl, by omega⟩⟩
  · cases hq
    rcases access_owner hport hp with ⟨hcount, u, w, hdone⟩ | ⟨hcount, hwait⟩
    · simp only at hcount hdone
      cases hdone.symm.trans haccess
      exact ⟨by omega, .inl ⟨w, rfl⟩⟩
    · simp only at hcount hwait
      cases hwait.symm.trans haccess
      exact ⟨by omega, .inr ⟨rfl, .inr ⟨_, q, rfl, rfl, by omega⟩⟩⟩

/-! ### What the instruction sees of the machine -/

/-- `u` is `s` after `k` steps: it has its modes, registers, pc, count and memory view. -/
structure After (s : State) (k : Nat) (u : State) : Prop where
  modes : SameModes s u
  running : u.stopped = s.stopped ∧ u.fetchStopped = s.fetchStopped
  x : u.x = s.x
  pc : u.pc = s.pc
  instrs : u.instrs = s.instrs
  cycles : u.cycles = s.cycles + k
  view : ∀ a, amem u a = amem s a

section
variable {s u : State} {k : Nat} (h : After s k u)
include h

theorem After.serial (hs : Serial s) : Serial u := by
  obtain ⟨hcfg, hmode, -⟩ := h.modes
  obtain ⟨hstopped, hfetching⟩ := h.running
  exact ⟨by rw [hcfg]; exact hs.legal, hmode.trans hs.mode, hstopped.trans hs.running, hfetching.trans hs.fetching⟩

/-- One more step, in which the hierarchy alone changes. -/
theorem After.access {s' v : State} {f : Option FetchEntry} {d : Slot DecodeEntry} {x m w : Slot Decoded}
    (hsame : SameButHierarchy (holding { u with cycles := u.cycles + 1 } f d x m w) v)
    (hstored : SameButHierarchy s s') (hview : ∀ a, amem v a = amem s' a) : After s' (k + 1) v := by
  obtain ⟨ram, lines, port, hits, misses, rfl⟩ := hsame.exists
  obtain ⟨ram', lines', port', hits', misses', rfl⟩ := hstored.exists
  exact ⟨h.modes, h.running, h.x, h.pc, h.instrs, by simp only [holding]; rw [h.cycles]; rfl, hview⟩

/-- One more step, in which the hierarchy does not change. -/
theorem After.succ : After s (k + 1) { u with cycles := u.cycles + 1 } :=
  ⟨h.modes, h.running, h.x, h.pc, h.instrs, congrArg (· + 1) h.cycles, h.view⟩

theorem After.nextPc : After { s with pc := s.pc + 1 } k { u with pc := u.pc + 1 } :=
  ⟨h.modes, h.running, h.x, congrArg (· + 1) h.pc, h.instrs, h.cycles, h.view⟩

end

/-! ### The fetch -/

/-- The fetch of `s` has waited `k` times. -/
def FetchWaits (L : Nat) (s : State) (k : Nat) (t : State) : Prop :=
  ∃ u st, t = holding u (fetchingAt s.pc st) .empty .empty .empty .empty ∧ Inv t ∧ After s k u ∧
    PortFor L .fetch (some (fetchRequest s.pc)) k u

/-- The word at the pc of `s` is in Decode, `k` steps after its fetch began. -/
def InDecode (s : State) (k : Nat) (t : State) : Prop :=
  ∃ u, t = holding u none (.inFlight { addr := s.pc, raw := amem s s.pc.toNat, status := .normal })
      .empty .empty .empty ∧ Inv t ∧ After { s with pc := s.pc + 1 } k u ∧ u.port = none

/-- The longest delay that a request can be charged (R66, R67). -/
def longestDelay (s : State) : Nat := max s.cfg.cacheLatency s.cfg.ramLatency

theorem delayOf_le (s : State) (a : Nat) : delayOf s a ≤ longestDelay s := by
  unfold delayOf longestDelay
  split <;> omega

theorem longestDelay_of_modes {s u : State} (h : SameModes s u) : longestDelay u = longestDelay s := by
  obtain ⟨hcfg, -⟩ := h
  rw [longestDelay, hcfg, longestDelay]

/-- The fetch is made or waits once more. -/
theorem fetch_progress {s : State} (hs : Serial s) (hin : s.pc.toNat < s.cfg.ramWords)
    (hw : amem s s.pc.toNat ≠ haltWord) (k : Nat) (t : State) (h : FetchWaits (longestDelay s) s k t) :
    k ≤ longestDelay s ∧ ∃ t', step t = .next t' ∧
      (FetchWaits (longestDelay s) s (k + 1) t' ∨ InDecode s (k + 1) t') := by
  obtain ⟨u, st, rfl, hinv, hafter, hport⟩ := h
  have hu := hafter.serial hs
  obtain ⟨hcfg, -⟩ := hafter.modes
  have hpc := hafter.pc
  rw [← hpc] at hport
  unfold FetchWaits InDecode
  rw [← hpc] at hin hw hinv ⊢
  have hnow := inv_cycles hinv (u.cycles + 1)
  rw [← hcfg] at hin
  rcases haccess : access (holding { u with cycles := u.cycles + 1 } (fetchingAt u.pc st) .empty .empty .empty .empty)
    (fetchRequest u.pc) .fetch with ⟨v, o⟩
  have hdelay : delayOf (holding { u with cycles := u.cycles + 1 } (fetchingAt u.pc st) .empty .empty .empty .empty)
      u.pc.toNat ≤ longestDelay s := (delayOf_le _ _).trans_eq (longestDelay_of_modes hafter.modes)
  have hview (a : Nat) : amem v a = amem s a :=
    (amem_access_of_no_write hnow.hierarchy (q := fetchRequest u.pc) hin haccess (.inl rfl) a).trans (hafter.view a)
  have hthen := hafter.access (same_of_access haccess) (.refl s) hview
  obtain ⟨hk, ⟨w, rfl⟩ | ⟨rfl, hport'⟩⟩ := access_portFor hnow.port hport hdelay haccess
  · have hword : w = amem s u.pc.toNat :=
      ((access_answers hnow.hierarchy (q := fetchRequest u.pc) hin haccess).read w rfl rfl).trans (hafter.view _)
    subst hword
    have hstep := step_fetch_done hu hin hw haccess
    have hfree := hnow.port.free_of_done haccess
    exact ⟨hk, _, hstep, .inr ⟨_, rfl, inv_step hinv hstep, by rw [hpc]; exact hthen.nextPc, hfree⟩⟩
  · have hstep := step_fetch_waits hu hin haccess
    exact ⟨hk, _, hstep, .inl ⟨v, _, rfl, inv_step hinv hstep, hthen, hport'⟩⟩

/-! ### The access -/

/-- The instruction `r` of `s` is in Memory, `k` steps after `s`, its access having waited `j` times. -/
def MemoryWaits (L : Nat) (s : State) (r : Decoded) (n j : Nat) (t : State) : Prop :=
  ∃ u st, t = holding u none .empty .empty (.inFlight { r with status := st }) .empty ∧ Inv t ∧ After s (n + j) u ∧
    PortFor L .mem (requestOf s r) j u

/-- The instruction `r` of `s` is in Writeback, its store made. -/
def InWriteback (s : State) (r : Decoded) (n j : Nat) (t : State) : Prop :=
  ∃ u, t = holding u none .empty .empty .empty (.inFlight { served s r with status := .normal }) ∧ Inv t ∧
    After (stored s r) (n + j) u ∧ u.port = none

theorem requestOf_of_modes {s u : State} (h : SameModes s u) (r : Decoded) (st : Status) :
    requestOf u { r with status := st } = requestOf s r := by
  obtain ⟨hcfg, -⟩ := h
  simp only [requestOf, hcfg]

theorem leaveMemory_status (r : Decoded) (st : Status) (s : State) :
    leaveMemory { r with status := st } s = leaveMemory r s := rfl

theorem passedBy_status (r : Decoded) (st : Status) :
    passedBy { r with status := st } = { passedBy r with status := st } := by
  unfold passedBy
  simp only
  cases kindOf r.raw <;> rfl

theorem answered_status (q : Request) (r : Decoded) (st : Status) (w : Word) :
    answered q { r with status := st } w = { answered q r w with status := st } := by
  unfold answered
  cases q.kind <;> rfl

theorem leaveMemory_holding {s u : State} {m : Slot Decoded}
    (h : SameButHierarchy (holding s none .empty .empty m .empty) u) (r : Decoded) :
    leaveMemory r u = holding u none .empty .empty .empty (.inFlight { r with status := .normal }) := by
  rw [h]
  rfl

theorem stays_holding {s u : State} {m m' : Slot Decoded}
    (h : SameButHierarchy (holding s none .empty .empty m .empty) u) :
    { u with slotM := m' } = holding u none .empty .empty m' .empty := by
  rw [h]
  rfl

theorem stored_read {s : State} {r : Decoded} {q : Request} (hq : requestOf s r = some q) (hk : q.kind = .read) :
    stored s r = s := by simp only [stored, hq, hk]

theorem stored_write {s : State} {r : Decoded} {q : Request} (hq : requestOf s r = some q) (hk : q.kind = .write) :
    stored s r = memWrite s q.addr q.value := by simp only [stored, hq, hk]

/-- The memory view once the request is answered is the view once the store is made. -/
theorem amem_answered {s u v : State} (hm : MemoryOk s) {r : Decoded} {q : Request} (hq : requestOf s r = some q)
    {w : Word} (h : Answers u q v (.done w)) (hview : ∀ a, amem u a = amem s a) (a : Nat) :
    amem v a = amem (stored s r) a := by
  rw [h.view, hview]
  cases hk : q.kind with
  | read => simp [stored_read hq hk]
  | write => simp [stored_write hq hk, amem_memWrite hm]

/-- The record with which the answered instruction leaves is the one its effect is read from. -/
theorem answered_eq_served {s u v : State} {r : Decoded} {q : Request} (hq : requestOf s r = some q) {w : Word}
    (h : Answers u q v (.done w)) (hview : ∀ a, amem u a = amem s a) : answered q r w = served s r := by
  rw [served, hq]
  cases hk : q.kind with
  | read => rw [h.read w rfl hk, hview]
  | write => simp only [answered, hk]

/-- The machine that part 2 finds in a step with the instruction `r` alone in M. -/
def inMemory (u : State) (r : Decoded) : State :=
  holding { u with cycles := u.cycles + 1 } none .empty .empty (.inFlight r) .empty

section
variable {s u : State} {r : Decoded} {n j : Nat} {st : Status} (hs : Serial s)
  (hinv : Inv (holding u none .empty .empty (.inFlight { r with status := st }) .empty)) (hafter : After s (n + j) u)
include hs hinv hafter

/-- An instruction that makes no request passes (R157). -/
theorem memory_passes (hrequest : requestOf s r = none) (hfree : u.port = none) :
    ∃ t, step (holding u none .empty .empty (.inFlight { r with status := st }) .empty) = .next t ∧
      InWriteback s r n (j + 1) t := by
  have hu := hafter.serial hs
  have hserved : served s r = passedBy r := by rw [served, hrequest]
  have hstored : stored s r = s := by rw [stored, hrequest]
  have hmemory : memoryUpdate (inMemory u { r with status := st }) =
      holding { u with cycles := u.cycles + 1 } none .empty .empty .empty
        (.inFlight { served s r with status := .normal }) := by
    have hnone : requestOf (inMemory u { r with status := st }) { r with status := st } = none :=
      (requestOf_of_modes hafter.modes r st).trans hrequest
    rw [memoryUpdate_of_no_request rfl hnone, passedBy_status, hserved]
    rfl
  have hstep := step_in_memory hu hmemory hu.mode (by simp)
  have hthen : After (stored s r) (n + j + 1) { u with cycles := u.cycles + 1 } := by
    rw [hstored]
    exact hafter.succ
  exact ⟨_, hstep, { u with cycles := u.cycles + 1 }, rfl, inv_step hinv hstep, hthen, hfree⟩

/-- A request is answered, or waits once more (R157, R158). -/
theorem memory_requests (hm : MemoryOk s) {q : Request} (hq : requestOf s r = some q)
    (hport : PortFor (longestDelay s) .mem (some q) j u) :
    j ≤ longestDelay s ∧ ∃ t, step (holding u none .empty .empty (.inFlight { r with status := st }) .empty) = .next t ∧
      (MemoryWaits (longestDelay s) s r n (j + 1) t ∨ InWriteback s r n (j + 1) t) := by
  have hu := hafter.serial hs
  have hnow : Inv (inMemory u { r with status := st }) := inv_cycles hinv (u.cycles + 1)
  have hrequest : requestOf (inMemory u { r with status := st }) { r with status := st } = some q :=
    (requestOf_of_modes hafter.modes r st).trans hq
  have hdelay : delayOf (inMemory u { r with status := st }) q.addr ≤ longestDelay s :=
    (delayOf_le _ _).trans_eq (longestDelay_of_modes hafter.modes)
  have hin := addr_of_requestOf hrequest
  rcases haccess : access (inMemory u { r with status := st }) q .mem with ⟨v, o⟩
  have hanswers := access_answers hnow.hierarchy hin haccess
  have hsame := same_of_access haccess
  obtain ⟨hj, ⟨w, rfl⟩ | ⟨rfl, hport'⟩⟩ := access_portFor hnow.port hport hdelay haccess
  · have hmemory := memoryUpdate_of_done rfl hrequest haccess
    rw [answered_status, leaveMemory_status, leaveMemory_holding hsame, answered_eq_served hq hanswers hafter.view]
      at hmemory
    have hthen := hafter.access hsame (stored_same s r) (amem_answered hm hq hanswers hafter.view)
    have hstep := step_in_memory hu hmemory (hthen.serial (hs.of_same (stored_same s r))).mode (by simp)
    exact ⟨hj, _, hstep, .inr ⟨v, rfl, inv_step hinv hstep, hthen, hnow.port.free_of_done haccess⟩⟩
  · have hmemory := memoryUpdate_of_wait rfl hrequest haccess
    have hthen := hafter.access hsame (.refl s) fun a =>
      (amem_access_of_no_write hnow.hierarchy hin haccess (.inr rfl) a).trans (hafter.view a)
    rw [stays_holding hsame] at hmemory
    have hstep := step_in_memory hu hmemory (hthen.serial hs).mode (by simp)
    exact ⟨hj, _, hstep, .inl ⟨v, .stalled, rfl, inv_step hinv hstep, hthen, hq ▸ hport'⟩⟩

end

/-- The access is made or waits once more. -/
theorem memory_progress {s : State} (hs : Serial s) (hm : MemoryOk s) (r : Decoded) (n j : Nat) (t : State)
    (h : MemoryWaits (longestDelay s) s r n j t) :
    j ≤ longestDelay s ∧ ∃ t', step t = .next t' ∧
      (MemoryWaits (longestDelay s) s r n (j + 1) t' ∨ InWriteback s r n (j + 1) t') := by
  obtain ⟨u, st, rfl, hinv, hafter, hport⟩ := h
  cases hq : requestOf s r with
  | none =>
    rw [hq] at hport
    rcases hport with ⟨rfl, hfree⟩ | ⟨c, q, hnone, -⟩
    · obtain ⟨t, hstep, hdone⟩ := memory_passes hs hinv hafter hq hfree
      exact ⟨Nat.zero_le _, t, hstep, .inr hdone⟩
    · cases hnone
  | some q => exact memory_requests hs hinv hafter hm hq (hq ▸ hport)

/-! ### The whole way -/

theorem serialStart_holding {s : State} (h : Serial s) (hport : s.port = none) :
    SerialStart (holding s (fetchAt s.pc) .empty .empty .empty .empty) :=
  ⟨h.mode, ⟨h.running, h.fetching⟩, rfl, ⟨rfl, rfl, rfl, rfl⟩, hport⟩

theorem withOperands_congr {s u : State} (h : u.x = s.x) (r : Decoded) : withOperands u r = withOperands s r := by
  simp only [withOperands, readReg, h]

theorem committed_x_congr {s u : State} (h : u.x = s.x) (r : Decoded) (st : Status) :
    (committed u { r with status := st }).x = (committed s r).x := by
  simp only [committed, writeReg, h]

/-- `u` has what the effect `t` fixes, `n` steps after `s`, and is about to begin the next instruction. -/
structure Effected (s t : State) (n : Nat) (u : State) : Prop where
  start : SerialStart u
  x : u.x = t.x
  pc : u.pc = t.pc
  instrs : u.instrs = t.instrs
  cycles : u.cycles = s.cycles + n
  view : ∀ a, amem u a = amem t a

section
variable {s : State} (hs : Serial s)
include hs

/-- The fetch is done after one step and a delay at most. -/
theorem fetch_reaches (h : Inv s) (hstart : SerialStart s) (hin : s.pc.toNat < s.cfg.ramWords)
    (hw : amem s s.pc.toNat ≠ haltWord) :
    ∃ n t, cyclesN n s = .next t ∧ InDecode s n t ∧ 1 ≤ n ∧ n ≤ longestDelay s + 1 := by
  have hwaits : FetchWaits (longestDelay s) s 0 s :=
    ⟨s, .normal, hstart.holding.symm, h, ⟨⟨rfl, rfl, rfl, rfl⟩, ⟨rfl, rfl⟩, rfl, rfl, rfl, rfl, fun _ => rfl⟩,
      .inl ⟨rfl, hstart.port⟩⟩
  obtain ⟨n, t, hcycles, hdone, hlo, hhi⟩ := reaches (fetch_progress hs hin hw) hwaits
  rw [Nat.zero_add] at hdone hhi
  exact ⟨n, t, hcycles, hdone, hlo, hhi⟩

/-- From Decode one step leads to Execute. -/
theorem decode_reaches {n : Nat} {t : State} (hdecode : InDecode s n t) :
    ∃ u, step t = .next (holding u none .empty (.inFlight (fetched s (amem s s.pc.toNat))) .empty .empty) ∧
      Inv (holding u none .empty (.inFlight (fetched s (amem s s.pc.toNat))) .empty .empty) ∧
      After { s with pc := s.pc + 1 } (n + 1) u ∧ u.port = none := by
  obtain ⟨u, rfl, hinv, hafter, hport⟩ := hdecode
  have hs' : Serial { s with pc := s.pc + 1 } := ⟨hs.legal, hs.mode, hs.running, hs.fetching⟩
  have hstep := step_in_decode (hafter.serial hs') { addr := s.pc, raw := amem s s.pc.toNat, status := .normal }
  rw [withOperands_congr hafter.x] at hstep
  exact ⟨_, hstep, inv_step hinv hstep, hafter.succ, hport⟩

/-- A taken control instruction is gone after the next step. -/
theorem taken_effected {w : Word} {n : Nat} {u : State} (hafter : After { s with pc := s.pc + 1 } n u)
    (hport : u.port = none) (htaken : takenOf (executed s w) = true) :
    ∃ v, step (holding u none .empty (.inFlight (fetched s w)) .empty .empty) = .next v ∧
      Effected s (effectOf s (executed s w)) (n + 1) v := by
  have hs' : Serial { s with pc := s.pc + 1 } := ⟨hs.legal, hs.mode, hs.running, hs.fetching⟩
  have hu := hafter.serial hs'
  refine ⟨_, step_in_execute_taken hu (r := fetched s w) htaken hport, ?_⟩
  have hnext : Serial { retireTo u (resultOf (fetched s w)) with cycles := u.cycles + 1 } :=
    ⟨hu.legal, hu.mode, hu.running, hu.fetching⟩
  rw [effectOf, if_pos htaken]
  exact ⟨serialStart_holding hnext hport, hafter.x, rfl, congrArg (· + 1) hafter.instrs,
    congrArg (· + 1) hafter.cycles, hafter.view⟩

/-- From Memory the commit is done after two steps and a delay at most. -/
theorem memory_reaches (h : Inv s) {r : Decoded} {n : Nat} {u : State} (hafter : After { s with pc := s.pc + 1 } n u)
    (hport : u.port = none) (hinv : Inv (holding u none .empty .empty (.inFlight r) .empty))
    (htaken : takenOf r = false) :
    ∃ k v, cyclesN k (holding u none .empty .empty (.inFlight r) .empty) = .next v ∧
      Effected s (effectOf s r) (n + k) v ∧ k ≤ longestDelay s + 2 := by
  have hs' : Serial { s with pc := s.pc + 1 } := ⟨hs.legal, hs.mode, hs.running, hs.fetching⟩
  have hm : MemoryOk { s with pc := s.pc + 1 } :=
    (⟨rfl, rfl, rfl, rfl⟩ : SameMemory s { s with pc := s.pc + 1 }).memoryOk ⟨h.legal, h.ram, h.cache⟩
  have hwaits : MemoryWaits (longestDelay s) { s with pc := s.pc + 1 } r n 0
      (holding u none .empty .empty (.inFlight r) .empty) := ⟨u, r.status, rfl, hinv, hafter, .inl ⟨rfl, hport⟩⟩
  obtain ⟨k, t, hcycles, ⟨v, rfl, hinv', hdone, hfree⟩, -, hk⟩ := reaches (memory_progress hs' hm r n) hwaits
  have hk' : 0 + k ≤ longestDelay s + 1 := hk
  have hv := hdone.serial (hs'.of_same (stored_same _ r))
  refine ⟨k + 1, _, cyclesN_add hcycles (cyclesN_succ (step_in_writeback hv _) 0), ?_, by omega⟩
  have hstored : stored { s with pc := s.pc + 1 } r = { stored s r with cycles := s.cycles, pc := s.pc + 1 } :=
    stored_at s r s.cycles _
  obtain ⟨-, -, hx, hpc, hinstrs, hcycles', hview⟩ := hdone
  rw [hstored] at hx hpc hinstrs hcycles' hview
  obtain ⟨ram, lines, port, hits, misses, hsame⟩ := (stored_same s r).exists
  rw [hsame] at hx hpc hinstrs hcycles'
  have hnext : Serial { v with cycles := v.cycles + 1, x := (committed v (served s r)).x, instrs := v.instrs + 1 } :=
    ⟨hv.legal, hv.mode, hv.running, hv.fetching⟩
  rw [effectOf, htaken, if_neg Bool.false_ne_true]
  refine ⟨serialStart_holding hnext hfree, committed_x_congr hx _ _, hpc, congrArg (· + 1) hinstrs, ?_, hview⟩
  · have hcount : v.cycles = s.cycles + (n + (0 + k)) := hcycles'
    exact (congrArg (· + 1) hcount).trans (by omega)

/-- Any other commits after three steps and a delay at most. -/
theorem not_taken_effected (h : Inv s) {w : Word} {n : Nat} {u : State} (hafter : After { s with pc := s.pc + 1 } n u)
    (hport : u.port = none) (hinv : Inv (holding u none .empty (.inFlight (fetched s w)) .empty .empty))
    (htaken : takenOf (executed s w) = false) :
    ∃ k v, cyclesN k (holding u none .empty (.inFlight (fetched s w)) .empty .empty) = .next v ∧
      Effected s (effectOf s (executed s w)) (n + k) v ∧ 1 ≤ k ∧ k ≤ longestDelay s + 3 := by
  have hs' : Serial { s with pc := s.pc + 1 } := ⟨hs.legal, hs.mode, hs.running, hs.fetching⟩
  have hstep := step_in_execute (hafter.serial hs') (r := fetched s w) htaken
  obtain ⟨k, v, hcycles, heffect, hk⟩ :=
    memory_reaches hs h (r := executed s w) hafter.succ hport (inv_step hinv hstep) htaken
  refine ⟨k + 1, v, (cyclesN_succ hstep k).trans hcycles, ?_, Nat.le_add_left 1 k, Nat.succ_le_succ hk⟩
  rw [← Nat.add_assoc, Nat.add_right_comm]
  exact heffect

end

/-- Settles O60: the fetch and the access wait as long as the port says, the other stages take a step each, and the
record carries the effect. -/
theorem serialInstructionInEveryCacheMode : Obligations.SerialInstructionInEveryCacheMode := by
  intro s t i h hstart hin hdecode hne hexec
  have hw : amem s s.pc.toNat ≠ haltWord := fun hw => hne (hdecode ▸ (decodeWord_halt_iff _).2 hw)
  have hi : decodeOp (amem s s.pc.toNat) = i := (decodeWord_of_ne hw).symm.trans hdecode
  have hs := hstart.serial h.legal
  cases hexec.symm.trans (exec_eq_effectOf h.between hi)
  obtain ⟨n, t, hfetch, hinDecode, hlo, hhi⟩ := fetch_reaches hs h hstart hin hw
  obtain ⟨u, hstep, hinv, hafter, hport⟩ := decode_reaches hs hinDecode
  have hexecute := cyclesN_add hfetch (cyclesN_succ hstep 0)
  obtain ⟨k, v, hcycles, ⟨hstart', hx, hpc, hinstrs, hcount, hview⟩, hk⟩ : ∃ k v,
      cyclesN k (holding u none .empty (.inFlight (fetched s (amem s s.pc.toNat))) .empty .empty) = .next v ∧
      Effected s (effectOf s (executed s (amem s s.pc.toNat))) (n + 1 + k) v ∧ 1 ≤ k ∧ k ≤ longestDelay s + 3 := by
    cases htaken : takenOf (executed s (amem s s.pc.toNat)) with
    | true =>
      obtain ⟨v, hstep', heffect⟩ := taken_effected hs hafter hport htaken
      exact ⟨1, v, cyclesN_succ hstep' 0, heffect, Nat.le_refl 1, by omega⟩
    | false => exact not_taken_effected hs h hafter hport hinv htaken
  rw [longestDelay] at hhi hk
  exact ⟨n + 1 + k, v, cyclesN_add hexecute hcycles, by omega, by omega, hstart', hx, hpc, hinstrs, hcount,
    fun a _ => hview a⟩

end Sys2Proof.Machine
end

section
/-! The smaller statements about the machine as a whole: registers, absence of faults, the halt marker, runs to a
breakpoint, and the parts of a step as meanings. -/

namespace Sys2Proof.Machine

open Sys2Proof.Claims

/-- A step of a legal machine is the six parts' update, or nothing when the machine is stopped. -/
theorem step_cases {s t : State} (h : step s = .next t) :
    (s.stopped = false ∧ t = stepUpdate s) ∨ (s.stopped = true ∧ t = s) := by
  cases hr : s.stopped with
  | false => exact .inl ⟨rfl, eq_stepUpdate_of_step hr h⟩
  | true =>
    cases hl : s.cfg.legal with
    | true => exact .inr ⟨rfl, Host.Outcome.next.inj (h.symm.trans (step_stopped hl hr))⟩
    | false => simp [step, cycle, hl] at h

/-! ### Registers (R20) -/

/-- No instruction names an entry from R16 on, so Writeback does not write one. -/
theorem writebackUpdate_x_spare (s : State) (i : Nat) (h : i < 32) (hi : 16 ≤ i) :
    (writebackUpdate s).x[i] = s.x[i] := by
  cases hW : s.slotW with
  | empty => simp only [writebackUpdate_of_empty hW]
  | haltMarker => simp only [writebackUpdate_of_haltMarker hW]
  | inFlight r =>
    cases hw : r.hasWriteback with
    | false =>
      have hx := writebackUpdate_x_of_not_writes (s := s) fun r' hr' => by
        cases hW.symm.trans hr'
        exact hw
      simp only [hx]
    | true =>
      simp only [writebackUpdate_x_of_writes hW hw]
      rw [getElem_writeReg_x, if_neg]
      have := r.rd.isLt
      omega

/-- Settles O19: a register write replaces one entry, and a step writes at most the entry a 4-bit field names. -/
theorem registersAreIndependent : Obligations.RegistersAreIndependent := by
  refine ⟨fun s r r' v => readReg_writeReg s r r' v, fun s t hstep i h hi => ?_⟩
  rcases step_cases hstep with ⟨-, rfl⟩ | ⟨-, rfl⟩
  · have hx := stepUpdate_x s
    simp only [hx]
    exact writebackUpdate_x_spare { s with cycles := s.cycles + 1 } i h hi
  · rfl

/-! ### No fault and no refusal (60_exceptions.md section 1) -/

theorem runPhase_next (p : Phase) (i : Instr) (s : State) : ∃ t, runPhase p i s = .next t := by
  obtain ⟨t, ht⟩ := exec_next i (inPhase s p)
  exact ⟨inPhase t s.phase, by rw [runPhase, ht, andThen]⟩

theorem programStep_next (s : State) : ∃ t, programStep s = .next t := by
  unfold programStep
  split
  · exact ⟨s, rfl⟩
  · split
    · exact runPhase_next _ _ s
    · exact runPhase_next _ _ s

theorem signal_cases (s : State) : signal s = .running ∨ signal s = .halt := by
  cases signal s with
  | running => exact .inl rfl
  | halt => exact .inr rfl

/-- Settles O21: every meaning answers a next state, so every part and every step of a legal machine does. -/
theorem nothingTraps : Obligations.NothingTraps := by
  refine ⟨exec_next, fun s hl => ?_, fun s _ => programStep_next s, ⟨nofun⟩⟩
  obtain ⟨t, hstep, -⟩ := exists_step hl
  exact ⟨t, hstep, signal_cases t⟩

/-! ### The halt marker (R164) -/

/-- The marker leaves D exactly when X is free. -/
theorem moveMarkerFromDecode_eq {s : State} (hD : s.slotD = .haltMarker) : moveMarkerFromDecode s =
    { s with slotD := if s.slotX = .empty then .empty else .haltMarker
             slotX := if s.slotX = .empty then .haltMarker else s.slotX } := by
  by_cases hX : s.slotX = .empty
  · rw [moveMarkerFromDecode_free hD hX, if_pos hX, if_pos hX]
  · rw [moveMarkerFromDecode_blocked hX, if_neg hX, if_neg hX, ← hD]

/-- The marker leaves X exactly when M is free. -/
theorem moveMarkerFromExecute_eq {s : State} (hX : s.slotX = .haltMarker) : moveMarkerFromExecute s =
    { s with slotX := if s.slotM = .empty then .empty else .haltMarker
             slotM := if s.slotM = .empty then .haltMarker else s.slotM } := by
  by_cases hM : s.slotM = .empty
  · rw [moveMarkerFromExecute_free hX hM, if_pos hM, if_pos hM]
  · rw [moveMarkerFromExecute_blocked hM, if_neg hM, if_neg hM, ← hX]

/-- Settles O31: the marker moves on when the next slot is free, and a hazard is made by an instruction. -/
theorem markersQueue : Obligations.MarkersQueue :=
  ⟨fun _ => (decodePart_eq_update _).trans (congrArg _ (moveMarkerFromDecode_eq rfl)),
    fun _ => (executePart_eq_update _).trans (congrArg _ (moveMarkerFromExecute_eq rfl)),
    fun _ => (memoryPart_eq_update _).trans (congrArg _ (memoryUpdate_of_haltMarker rfl)),
    fun _ _ => hazard_iff⟩

/-! ### Runs to a breakpoint (R243) -/

/-- No step from `s` before the `k`th returns HALT or leaves the pc at `bp`. -/
def PassesUntil (bp : Word) (s : State) (k : Nat) : Prop :=
  ∀ j, 0 < j → j < k → ∃ u, cyclesN j s = .next u ∧ signal u = .running ∧ u.pc ≠ bp

theorem passesUntil_one (bp : Word) (s : State) : PassesUntil bp s 1 :=
  fun _ hpos hlt => absurd hlt (Nat.not_lt.2 hpos)

theorem PassesUntil.succ {bp : Word} {s t : State} {k : Nat} (h : PassesUntil bp t k) (hstep : step s = .next t)
    (hsignal : signal t = .running) (hpc : t.pc ≠ bp) : PassesUntil bp s (k + 1) := by
  intro j _ hlt
  match j with
  | 1 => exact ⟨t, cyclesN_succ hstep 0, hsignal, hpc⟩
  | j + 2 =>
    rw [cyclesN_succ hstep]
    exact h (j + 1) (Nat.succ_pos j) (Nat.lt_of_succ_lt_succ hlt)

/-- The reason `why` fits the `k` steps made of `n` and the state they leave. -/
def Explains (bp : Word) (n k : Nat) (t : State) : BreakReason → Prop
  | .halt => 0 < k ∧ signal t = .halt
  | .breakpoint => 0 < k ∧ signal t = .running ∧ t.pc = bp
  | .budget => k = n ∧ (0 < k → signal t = .running ∧ t.pc ≠ bp)

/-- A run of `n + 1` steps is its first step and, if neither test holds after it, a run of `n`. -/
theorem runToBreakpoint_succ (bp : Word) (n : Nat) {s t : State} (hstep : step s = .next t) :
    runToBreakpoint bp (n + 1) s =
      if signal t = .halt then .next (t, .halt)
      else if t.pc = bp then .next (t, .breakpoint)
      else runToBreakpoint bp n t := by
  rw [runToBreakpoint, hstep]

theorem runToBreakpoint_stops (bp : Word) (n : Nat) {s : State} (hl : s.cfg.legal = true) :
    ∃ t why k, runToBreakpoint bp n s = .next (t, why) ∧ k ≤ n ∧ cyclesN k s = .next t ∧ PassesUntil bp s k ∧
      Explains bp n k t why := by
  induction n generalizing s with
  | zero =>
    exact ⟨s, .budget, 0, rfl, Nat.le_refl 0, rfl, fun _ _ hlt => absurd hlt (Nat.not_lt_zero _), rfl, nofun⟩
  | succ n ih =>
    obtain ⟨u, hstep, hlegal⟩ := exists_step hl
    have hone : 1 ≤ n + 1 := Nat.le_add_left 1 n
    rw [runToBreakpoint_succ bp n hstep]
    by_cases hhalt : signal u = .halt
    · exact ⟨u, .halt, 1, if_pos hhalt, hone, cyclesN_succ hstep 0, passesUntil_one bp s, Nat.one_pos, hhalt⟩
    · have hrunning := (signal_cases u).resolve_right hhalt
      rw [if_neg hhalt]
      by_cases hpc : u.pc = bp
      · exact ⟨u, .breakpoint, 1, if_pos hpc, hone, cyclesN_succ hstep 0, passesUntil_one bp s, Nat.one_pos,
          hrunning, hpc⟩
      · obtain ⟨t, why, k, hrun, hk, hcycles, hbefore, hwhy⟩ := ih hlegal
        refine ⟨t, why, k + 1, (if_neg hpc).trans hrun, Nat.succ_le_succ hk, (cyclesN_succ hstep k).trans hcycles,
          hbefore.succ hstep hrunning hpc, ?_⟩
        cases why with
        | halt => exact ⟨Nat.succ_pos k, hwhy.2⟩
        | breakpoint => exact ⟨Nat.succ_pos k, hwhy.2⟩
        | budget =>
          obtain ⟨rfl, hlast⟩ := hwhy
          refine ⟨rfl, fun _ => ?_⟩
          match k, hcycles with
          | 0, hcycles =>
            cases hcycles
            exact ⟨hrunning, hpc⟩
          | k + 1, _ => exact hlast (Nat.succ_pos k)

/-- Settles O54: by induction on the budget, the tests standing after each step. -/
theorem breakpointRun : Obligations.BreakpointRun := by
  intro bp n s hl
  obtain ⟨t, why, k, hrun, hk, hcycles, hbefore, hwhy⟩ := runToBreakpoint_stops bp n hl
  refine ⟨t, why, k, hrun, hk, hcycles, hbefore, ?_⟩
  cases why <;> exact hwhy

/-! ### The parts as meanings (R10, R150, R152) -/

/-- A word that decodes to an instruction other than HALT is what the lookup says (R102). -/
theorem decodeOp_eq {w : Word} {i : Instr} (hi : i ≠ .halt) (h : decodeWord w = i) : decodeOp w = i :=
  (decodeWord_of_ne fun hw => hi (h.symm.trans ((decodeWord_halt_iff w).2 hw))).symm.trans h

theorem effectOf_phase (s : State) (r : Decoded) : (effectOf s r).phase = s.phase := by
  unfold effectOf
  split
  · rfl
  · rw [stored_same]

/-- In program order the meaning of a word leaves the phase as it is. -/
theorem exec_program_phase {s : State} (hp : s.phase = .program) (w : Word) :
    ∃ t, exec (decodeWord w) s = .next t ∧ t.phase = s.phase := by
  by_cases hw : w = haltWord
  · rw [(decodeWord_halt_iff w).2 hw]
    exact ⟨signalHalt s, by simp only [exec, execHalt, hp], rfl⟩
  · rw [decodeWord_of_ne hw]
    exact ⟨_, exec_eq_effectOf hp rfl, effectOf_phase s _⟩

theorem runPhase_program {s : State} (hp : s.phase = .program) (w : Word) :
    runPhase .program (decodeWord w) s = exec (decodeWord w) s := by
  obtain ⟨t, ht, hphase⟩ := exec_program_phase hp w
  have hs : inPhase s .program = s := hp ▸ inPhase_self s
  rw [runPhase, hs, ht, andThen, ← hphase, inPhase_self]

/-- Settles O20: a part runs the instruction its slot's word decodes to, in its phase; the program-order machine runs
the one at the pc, whose meaning leaves the phase as it is. -/
theorem stepRunsTheDecodedInstruction : Obligations.StepRunsTheDecodedInstruction := by
  refine ⟨fun s hl hr => ?_, fun s r q i hi hr hq => ?_, fun s u a w st hin hread => ?_, fun s hp hr hin => ?_,
    fun s hl => ?_⟩
  · obtain ⟨s1, s2, s3, s4, h1, h2, h3, h4, hstep⟩ := step_parts hl hr
    exact ⟨s1, s2, s3, s4, _, h1, h2, h3, h4, fetchPart_eq s4, hstep⟩
  · cases decodeOp_eq hi hr
    refine ⟨rfl, rfl, rfl, ?_⟩
    rw [← decodeOp_eq hi hq]
    rfl
  · have hinside : inRange { s with slotF := some { addr := a, latched := .outstanding, status := st } } a = true :=
      inRange_iff.2 hin
    simp only [fetchPart, hinside, if_true, hread]
  · rw [programStep, hr, if_neg Bool.false_ne_true, if_pos (inRange_iff.2 hin), runPhase_program hp]
  · simp [step, cycle, hl]

end Sys2Proof.Machine
end

section
/-! The four counters (10_state.md R26): what a step adds to them, and that no part of a step reads one. -/

namespace Sys2Proof.Machine

open Sys2Proof.Claims

/-! ### The counters of the hierarchy (R75) -/

/-- From `s` to `t` at most `n` requests were counted, and none if the cache is disabled. -/
structure Counted (n : Nat) (s t : State) : Prop where
  enabled : t.cacheEnabled = s.cacheEnabled
  hits : s.hits ≤ t.hits
  misses : s.misses ≤ t.misses
  atMost : t.hits + t.misses ≤ s.hits + s.misses + n
  direct : s.cacheEnabled = false → t.hits = s.hits ∧ t.misses = s.misses

theorem Counted.of_eq {s t : State} (henabled : t.cacheEnabled = s.cacheEnabled) (hhits : t.hits = s.hits)
    (hmisses : t.misses = s.misses) (n : Nat) : Counted n s t :=
  ⟨henabled, hhits.ge, hmisses.ge, by omega, fun _ => ⟨hhits, hmisses⟩⟩

theorem Counted.trans {m n : Nat} {s t u : State} (h : Counted m s t) (k : Counted n t u) : Counted (m + n) s u := by
  obtain ⟨henabled, hhits, hmisses, hatMost, hdirect⟩ := h
  obtain ⟨kenabled, khits, kmisses, katMost, kdirect⟩ := k
  refine ⟨kenabled.trans henabled, hhits.trans khits, hmisses.trans kmisses, by omega, fun he => ?_⟩
  obtain ⟨h1, h2⟩ := hdirect he
  obtain ⟨k1, k2⟩ := kdirect (henabled.trans he)
  exact ⟨k1.trans h1, k2.trans h2⟩

theorem Counted.of_once {s u t : State} (henabled : t.cacheEnabled = s.cacheEnabled) (he : s.cacheEnabled = true)
    (hhits : u.hits = s.hits) (hmisses : u.misses = s.misses) (h : CountedOnce u t) : Counted 1 s t := by
  rw [CountedOnce, hhits, hmisses] at h
  refine ⟨henabled, by omega, by omega, by omega, fun hdirect => absurd (he.symm.trans hdirect) nofun⟩

/-- Any access counts at most one request. -/
theorem access_counted {s t : State} {q : Request} {stage : Requester} {o : Reply} (h : access s q stage = (t, o)) :
    Counted 1 s t := by
  obtain rfl : (access s q stage).1 = t := congrArg Prod.fst h
  have henabled : (access s q stage).1.cacheEnabled = s.cacheEnabled := by rw [access_same]
  cases he : s.cacheEnabled with
  | false =>
    have hsame : (access s q stage).1.hits = s.hits ∧ (access s q stage).1.misses = s.misses := by
      rw [access_disabled he]
      cases q.kind <;> exact ⟨rfl, rfl⟩
    exact .of_eq henabled hsame.1 hsame.2 1
  | true =>
    cases hp : s.port with
    | none =>
      have haccept : access s q stage = acceptRequest s q stage := by rw [access, he, hp]; rfl
      rw [haccept] at henabled ⊢
      exact .of_once henabled he rfl rfl (acceptRequest_countedOnce s q stage)
    | some p =>
      by_cases ho : p.owner = stage
      · subst ho
        by_cases hq : p.pending = q
        · subst hq
          obtain ⟨hhits, hmisses⟩ := access_pending_notCounted he hp
          exact .of_eq henabled hhits hmisses 1
        · rw [access_changed he hp hq] at henabled ⊢
          have hcount := acceptRequest_countedOnce (abort s p.owner) q p.owner
          exact .of_once henabled he (by rw [abort_eq]) (by rw [abort_eq]) hcount
      · rw [access_refused he hp ho]
        apply Counted.of_eq <;> rfl

/-! ### The counters through a step -/

/-- Memory makes at most one request (R157). -/
theorem memoryUpdate_counted (s : State) : Counted 1 s (memoryUpdate s) := by
  cases hM : s.slotM with
  | empty =>
    rw [memoryUpdate_of_empty hM]
    apply Counted.of_eq <;> rfl
  | haltMarker =>
    rw [memoryUpdate_of_haltMarker hM]
    apply Counted.of_eq <;> rfl
  | inFlight r =>
    have hresult := memoryUpdate_result hM
    generalize memoryUpdate s = t at hresult
    cases hresult with
    | passed r' hrequest hr => apply Counted.of_eq <;> rfl
    | done q u w r' hrequest haccess hr =>
      obtain ⟨henabled, hhits, hmisses, hatMost, hdirect⟩ := access_counted haccess
      exact ⟨henabled, hhits, hmisses, hatMost, hdirect⟩
    | waits q u hrequest haccess =>
      obtain ⟨henabled, hhits, hmisses, hatMost, hdirect⟩ := access_counted haccess
      exact ⟨henabled, hhits, hmisses, hatMost, hdirect⟩

/-- Fetch makes at most one request (R168). -/
theorem fetchUpdate_counted (s : State) : Counted 1 s (fetchUpdate s) := by
  have hadvance (u : State) (henabled : u.cacheEnabled = s.cacheEnabled) (hhits : u.hits = s.hits)
      (hmisses : u.misses = s.misses) : Counted 1 s (advanceFetch u) := by
    rw [advanceFetch_frame]
    exact ⟨henabled, hhits.ge, hmisses.ge, by simp only [hhits, hmisses]; omega, fun _ => ⟨hhits, hmisses⟩⟩
  cases hF : s.slotF with
  | none =>
    rw [fetchUpdate_of_none hF]
    apply Counted.of_eq <;> rfl
  | some f =>
    by_cases hL : f.latched = .outstanding
    · cases hin : inRange s f.addr with
      | false =>
        rw [fetchUpdate_outside hF hL hin]
        exact hadvance _ rfl rfl rfl
      | true =>
        rcases haccess : access s (fetchRequest f.addr) .fetch with ⟨u, reply⟩
        have hcounted := access_counted haccess
        have hkeeps : (fetchUpdate s).cacheEnabled = u.cacheEnabled ∧ (fetchUpdate s).hits = u.hits ∧
            (fetchUpdate s).misses = u.misses := by
          have henabled : (fetchUpdate s).cacheEnabled = u.cacheEnabled := by
            rw [fetchUpdate_same, same_of_access haccess]
          have hcounters := fetchUpdate_counters hF hL hin
          have hread : hRead s f.addr.toNat .fetch = (u, reply) := haccess
          rw [hread] at hcounters
          exact ⟨henabled, hcounters⟩
        obtain ⟨henabled, hhits, hmisses⟩ := hkeeps
        exact hcounted.trans (.of_eq henabled hhits hmisses 0)
    · rw [fetchUpdate_of_latched hF hL]
      exact hadvance s rfl rfl rfl

theorem stepUpdate_counted (s : State) : Counted 2 s (stepUpdate s) := by
  have hwriteback : Counted 0 s (writebackUpdate { s with cycles := s.cycles + 1 }) := by
    rw [writebackUpdate_frame]
    apply Counted.of_eq <;> rfl
  have hbefore : Counted 1 s (beforeExecute s) := hwriteback.trans (memoryUpdate_counted _)
  have hdecode : Counted 0 (beforeExecute s) (decodeUpdate (executeUpdate (beforeExecute s))) := by
    rw [decodeUpdate_frame, executeUpdate_frame]
    apply Counted.of_eq <;> rfl
  have hfetch := (hbefore.trans hdecode).trans (fetchUpdate_counted _)
  rw [stepUpdate, injectPart_frame]
  obtain ⟨henabled, hhits, hmisses, hatMost, hdirect⟩ := hfetch
  exact ⟨henabled, hhits, hmisses, hatMost, hdirect⟩

theorem takenInX_beforeExecute (s : State) : takenInX (beforeExecute s) = takenInX s := by
  rw [takenInX, beforeExecute_slotX, takenInX]

/-- A taken control instruction is counted in Execute, any other not there (R161, R163). -/
theorem executeUpdate_instrs (s : State) :
    (executeUpdate s).instrs = s.instrs + if (takenInX s).isSome then 1 else 0 := by
  cases htaken : takenInX s with
  | some target => rw [executeUpdate_of_taken htaken, takeControl_eq]; rfl
  | none => rw [executeUpdate_frame_of_not_taken htaken]; rfl

theorem stepUpdate_instrs (s : State) : (stepUpdate s).instrs =
    s.instrs + (if (tagged s.slotW).isSome then 1 else 0) + (if (takenInX s).isSome then 1 else 0) := by
  rw [stepUpdate, injectPart_frame, fetchUpdate_same, decodeUpdate_frame]
  exact (executeUpdate_instrs _).trans (by rw [beforeExecute_instrs, takenInX_beforeExecute])

theorem beforeExecute_cycles (s : State) : (beforeExecute s).cycles = s.cycles + 1 := by
  rw [beforeExecute_frame, writebackUpdate_frame]

theorem stepUpdate_cycles (s : State) : (stepUpdate s).cycles = s.cycles + 1 := by
  rw [← beforeExecute_cycles, stepUpdate, injectPart_frame, fetchUpdate_same, decodeUpdate_frame]
  generalize beforeExecute s = u
  rw [executeUpdate_frame]

/-- Settles O24: Writeback and Execute count instructions, and Memory and Fetch make the step's only two requests. -/
theorem stepCounts : Obligations.StepCounts := by
  intro s t hr hstep
  cases eq_stepUpdate_of_step hr hstep
  obtain ⟨-, hhits, hmisses, hatMost, hdirect⟩ := stepUpdate_counted s
  exact ⟨stepUpdate_cycles s, stepUpdate_instrs s, hhits, hmisses, hatMost, hdirect⟩

end Sys2Proof.Machine
end

section
/-! No part of a step reads a counter (10_state.md R26): each commutes with setting the four counters ahead. -/

namespace Sys2Proof.Machine

open Sys2Proof.Claims

/-- How far the four counters are set ahead. -/
structure Lead where
  cycles : Nat
  instrs : Nat
  hits : Nat
  misses : Nat

/-- `s` with its counters set ahead. -/
def ahead (l : Lead) (s : State) : State :=
  { s with cycles := s.cycles + l.cycles, instrs := s.instrs + l.instrs, hits := s.hits + l.hits,
           misses := s.misses + l.misses }

/-- An update of the state does not read the counters: it moves them from wherever they stand. -/
def IgnoresCounters (l : Lead) (f : State → State) : Prop := ∀ s, f (ahead l s) = ahead l (f s)

variable (l : Lead)

/-! ### The hierarchy -/

theorem completeAccess_ahead (s : State) (q : Request) :
    completeAccess (ahead l s) q = (ahead l (completeAccess s q).1, (completeAccess s q).2) := by
  have hhit : hitAt (ahead l s) q.addr = hitAt s q.addr := rfl
  unfold completeAccess
  rw [hhit]
  cases hitAt s q.addr <;> cases q.kind <;> rfl

theorem countAccess_ahead (s : State) (a : Nat) : countAccess (ahead l s) a = ahead l (countAccess s a) := by
  have hhit : hitAt (ahead l s) a = hitAt s a := rfl
  have hvictim : dirtyVictim (ahead l s) a = dirtyVictim s a := rfl
  simp only [countAccess, hhit, hvictim]
  split
  · simp only [ahead, Nat.add_right_comm]
  · split
    · simp only [ahead, Nat.add_right_comm]
      rfl
    · simp only [ahead, Nat.add_right_comm]

theorem acceptRequest_ahead (s : State) (q : Request) (stage : Requester) :
    acceptRequest (ahead l s) q stage = (ahead l (acceptRequest s q stage).1, (acceptRequest s q stage).2) := by
  have hdelay : delayOf (ahead l s) q.addr = delayOf s q.addr := rfl
  unfold acceptRequest
  rw [hdelay, countAccess_ahead]
  split
  · exact completeAccess_ahead l _ q
  · rfl

theorem abort_ahead (s : State) (stage : Requester) : abort (ahead l s) stage = ahead l (abort s stage) := by
  have hport : (ahead l s).port = s.port := rfl
  simp only [abort, hport]
  split
  · rfl
  · split <;> rfl

theorem access_ahead (s : State) (q : Request) (stage : Requester) :
    access (ahead l s) q stage = (ahead l (access s q stage).1, (access s q stage).2) := by
  have henabled : (ahead l s).cacheEnabled = s.cacheEnabled := rfl
  have hport : (ahead l s).port = s.port := rfl
  unfold access
  rw [henabled, hport, abort_ahead]
  split
  · split
    · exact acceptRequest_ahead l s q stage
    · split
      · rfl
      · split
        · exact acceptRequest_ahead l _ q stage
        · split
          · exact completeAccess_ahead l { s with port := none } q
          · rfl
  · cases q.kind <;> rfl

/-! ### The parts of a step -/

theorem writebackUpdate_ahead : IgnoresCounters l writebackUpdate := by
  intro s
  cases hW : s.slotW with
  | empty => rw [writebackUpdate_of_empty hW, writebackUpdate_of_empty (s := ahead l s) hW]
  | haltMarker =>
    rw [writebackUpdate_of_haltMarker hW, writebackUpdate_of_haltMarker (s := ahead l s) hW]
    rfl
  | inFlight r =>
    rw [writebackUpdate_of_inFlight hW, writebackUpdate_of_inFlight (s := ahead l s) hW]
    simp only [committed, ahead, Nat.add_right_comm]
    rfl

theorem memoryUpdate_ahead : IgnoresCounters l memoryUpdate := by
  intro s
  cases hM : s.slotM with
  | empty => rw [memoryUpdate_of_empty hM, memoryUpdate_of_empty (s := ahead l s) hM]
  | haltMarker =>
    rw [memoryUpdate_of_haltMarker hM, memoryUpdate_of_haltMarker (s := ahead l s) hM]
    rfl
  | inFlight r =>
    have hsame : requestOf (ahead l s) r = requestOf s r := rfl
    cases hrequest : requestOf s r with
    | none =>
      rw [memoryUpdate_of_no_request hM hrequest,
        memoryUpdate_of_no_request (s := ahead l s) hM (hsame.trans hrequest)]
      rfl
    | some q =>
      rcases haccess : access s q .mem with ⟨u, reply⟩
      have hahead := access_ahead l s q .mem
      rw [haccess] at hahead
      cases reply with
      | done w =>
        rw [memoryUpdate_of_done hM hrequest haccess,
          memoryUpdate_of_done (s := ahead l s) hM (hsame.trans hrequest) hahead]
        rfl
      | wait =>
        rw [memoryUpdate_of_wait hM hrequest haccess,
          memoryUpdate_of_wait (s := ahead l s) hM (hsame.trans hrequest) hahead]
        rfl

theorem executeUpdate_ahead : IgnoresCounters l executeUpdate := by
  intro s
  have hslotM : (ahead l s).slotM = s.slotM := rfl
  cases hX : s.slotX with
  | empty => rw [executeUpdate_of_empty hX, executeUpdate_of_empty (s := ahead l s) hX]
  | haltMarker =>
    rw [executeUpdate_of_haltMarker hX, executeUpdate_of_haltMarker (s := ahead l s) hX, moveMarkerFromExecute_eq hX,
      moveMarkerFromExecute_eq (s := ahead l s) hX]
    rfl
  | inFlight r =>
    rw [executeUpdate_of_inFlight hX, executeUpdate_of_inFlight (s := ahead l s) hX]
    cases takenOf r with
    | true => simp only [if_true, squashedTo, ahead, Nat.add_right_comm]
    | false =>
      simp only [Bool.false_eq_true, if_false, leftExecute, hslotM]
      split <;> rfl

theorem decodeUpdate_ahead : IgnoresCounters l decodeUpdate := by
  intro s
  have hslotX : (ahead l s).slotX = s.slotX := rfl
  cases hD : s.slotD with
  | empty => rw [decodeUpdate_of_empty hD, decodeUpdate_of_empty (s := ahead l s) hD]
  | haltMarker =>
    have hupdate (u : State) (h : u.slotD = .haltMarker) : decodeUpdate u = moveMarkerFromDecode u := by
      rw [decodeUpdate, h]
    rw [hupdate s hD, hupdate (ahead l s) hD, moveMarkerFromDecode_eq hD, moveMarkerFromDecode_eq (s := ahead l s) hD]
    rfl
  | inFlight q =>
    have hhazard (srcs : List RegIdx) : hazard (ahead l s) srcs = hazard s srcs := rfl
    rw [decodeUpdate_of_inFlight hD, decodeUpdate_of_inFlight (s := ahead l s) hD, issueDecode_inFlight hD,
      issueDecode_inFlight (s := ahead l s) hD, hhazard, hslotX]
    split
    · rfl
    · split <;> rfl

theorem advanceFetch_ahead : IgnoresCounters l advanceFetch := by
  intro s
  have hslotF : (ahead l s).slotF = s.slotF := rfl
  have hslotD : (ahead l s).slotD = s.slotD := rfl
  simp only [advanceFetch, hslotF, hslotD]
  split
  · rfl
  · split
    · rfl
    · split <;> rfl
    · split <;> rfl

theorem fetchUpdate_ahead : IgnoresCounters l fetchUpdate := by
  intro s
  cases hF : s.slotF with
  | none => rw [fetchUpdate_of_none hF, fetchUpdate_of_none (s := ahead l s) hF]
  | some f =>
    by_cases hL : f.latched = .outstanding
    · cases hin : inRange s f.addr with
      | false =>
        rw [fetchUpdate_outside hF hL hin, fetchUpdate_outside (s := ahead l s) hF hL hin]
        exact advanceFetch_ahead l { s with slotF := some { f with latched := .halt }, fetchStopped := true }
      | true =>
        rcases haccess : access s (fetchRequest f.addr) .fetch with ⟨u, reply⟩
        have hahead := access_ahead l s (fetchRequest f.addr) .fetch
        rw [haccess] at hahead
        cases reply with
        | wait =>
          rw [fetchUpdate_waits hF hL hin haccess, fetchUpdate_waits (s := ahead l s) hF hL hin hahead]
          rfl
        | done w =>
          by_cases hw : w = haltWord
          · subst hw
            rw [fetchUpdate_of_sentinel hF hL hin haccess, fetchUpdate_of_sentinel (s := ahead l s) hF hL hin hahead]
            exact advanceFetch_ahead l { u with slotF := some { f with latched := .halt }, fetchStopped := true }
          · rw [fetchUpdate_reads_word hF hL hin haccess hw,
              fetchUpdate_reads_word (s := ahead l s) hF hL hin hahead hw]
            exact advanceFetch_ahead l { u with slotF := some { f with latched := .word w } }
    · rw [fetchUpdate_of_latched hF hL, fetchUpdate_of_latched (s := ahead l s) hF hL]
      exact advanceFetch_ahead l s

theorem injectPart_ahead : IgnoresCounters l injectPart := by
  intro s
  rw [injectPart_eq s]
  refine (injectPart_eq (ahead l s)).trans ?_
  split
  · next h => exact (if_pos h).symm ▸ rfl
  · next h => exact (if_neg h).symm ▸ rfl

theorem stepUpdate_ahead : IgnoresCounters l stepUpdate := by
  intro s
  have hcycles : ({ ahead l s with cycles := (ahead l s).cycles + 1 } : State) =
      ahead l { s with cycles := s.cycles + 1 } := by
    simp only [ahead, Nat.add_right_comm]
  rw [stepUpdate, beforeExecute, hcycles, writebackUpdate_ahead, memoryUpdate_ahead, executeUpdate_ahead,
    decodeUpdate_ahead, fetchUpdate_ahead, injectPart_ahead]
  rfl

/-- Settles O25: a running machine's step commutes with setting the counters ahead, and a stopped one's is the
identity. -/
theorem countersAreOutputs : Obligations.CountersAreOutputs := by
  intro s t a b c d hstep
  have hlegal : s.cfg.legal = true := by
    by_contra hl
    simp [step, cycle, hl] at hstep
  refine ⟨ahead ⟨a, b, c, d⟩ t, ?_, rfl⟩
  rcases step_cases hstep with ⟨hr, rfl⟩ | ⟨hr, rfl⟩
  · exact (step_running (s := ahead ⟨a, b, c, d⟩ s) hlegal hr).trans (congrArg _ (stepUpdate_ahead _ s))
  · exact step_stopped (s := ahead ⟨a, b, c, d⟩ t) hlegal hr

end Sys2Proof.Machine
end

section
/-! How instructions move (10_state.md R30, R31; 50_pipeline.md R174, R175): what each part of a step makes of its
slot's occupant and of the next slot's. -/

namespace Sys2Proof.Machine

open Sys2Proof.Claims

/-! ### The move of each part -/

/-- Memory's occupant is in W, or is an instruction that stays with W empty. -/
theorem memoryUpdate_moves {s : State} (hW : s.slotW = .empty) :
    ((memoryUpdate s).slotM = .empty ∧ tagged (memoryUpdate s).slotW = tagged s.slotM) ∨
      ((memoryUpdate s).slotW = .empty ∧ tagged (memoryUpdate s).slotM = tagged s.slotM ∧
        (tagged s.slotM).isSome = true) := by
  cases hM : s.slotM with
  | empty =>
    rw [memoryUpdate_of_empty hM]
    exact .inl ⟨hM, by rw [hW]⟩
  | haltMarker =>
    rw [memoryUpdate_of_haltMarker hM]
    exact .inl ⟨rfl, rfl⟩
  | inFlight r =>
    have houtcome := memoryUpdate_outcome hM
    generalize memoryUpdate s = t at houtcome
    cases houtcome with
    | moved u r' hsame haddr hraw => exact .inl ⟨rfl, by rw [tagged, tagged, haddr, hraw]⟩
    | stalled u r' hsame haddr hraw =>
      refine .inr ⟨?_, by rw [tagged, tagged, haddr, hraw], rfl⟩
      rw [hsame]
      exact hW

theorem beforeExecute_moves (s : State) :
    ((beforeExecute s).slotM = .empty ∧ tagged (beforeExecute s).slotW = tagged s.slotM) ∨
      ((beforeExecute s).slotW = .empty ∧ tagged (beforeExecute s).slotM = tagged s.slotM ∧
        (tagged s.slotM).isSome = true) := by
  have hslotM : (writebackUpdate { s with cycles := s.cycles + 1 }).slotM = s.slotM := by rw [writebackUpdate_frame]
  have hmoves := memoryUpdate_moves (writebackUpdate_slotW { s with cycles := s.cycles + 1 })
  rw [hslotM] at hmoves
  exact hmoves

/-- What Execute does with its occupant unless it takes it: it is in M, which was free, or it stays; an instruction
stays only behind an occupied M. -/
theorem executeUpdate_moves {s : State} (h : takenInX s = none) :
    (s.slotM = .empty ∧ (executeUpdate s).slotX = .empty ∧ tagged (executeUpdate s).slotM = tagged s.slotX) ∨
      ((executeUpdate s).slotM = s.slotM ∧ tagged (executeUpdate s).slotX = tagged s.slotX ∧
        (tagged s.slotX = none ∨ s.slotM ≠ .empty)) := by
  cases hX : s.slotX with
  | empty =>
    rw [executeUpdate_of_empty hX]
    exact .inr ⟨rfl, by rw [hX], .inl rfl⟩
  | haltMarker =>
    rw [executeUpdate_of_haltMarker hX, moveMarkerFromExecute_eq hX]
    by_cases hM : s.slotM = .empty
    · exact .inl ⟨hM, if_pos hM, congrArg tagged (if_pos hM)⟩
    · exact .inr ⟨if_neg hM, congrArg tagged (if_neg hM), .inl rfl⟩
  | inFlight r =>
    obtain ⟨-, v, hupdate⟩ := executeUpdate_of_not_taken hX h
    rw [hupdate, leaveExecute_eq]
    by_cases hM : s.slotM = .empty
    · rw [if_pos hM]
      exact .inl ⟨hM, rfl, rfl⟩
    · rw [if_neg hM]
      exact .inr ⟨rfl, rfl, .inr hM⟩

/-- What stays in X is stalled (R163). -/
theorem status_of_executeUpdate_slotX {s : State} {r : Decoded} (h : (executeUpdate s).slotX = .inFlight r) :
    r.status = .stalled := by
  cases htaken : takenInX s with
  | some target =>
    rw [executeUpdate_of_taken htaken, takeControl_eq] at h
    cases h
  | none =>
    cases hX : s.slotX with
    | empty => simp [executeUpdate_of_empty hX, hX] at h
    | haltMarker =>
      rw [executeUpdate_of_haltMarker hX, moveMarkerFromExecute_eq hX] at h
      simp only at h
      split at h <;> cases h
    | inFlight r' =>
      obtain ⟨-, v, hupdate⟩ := executeUpdate_of_not_taken hX htaken
      rw [hupdate, leaveExecute_eq] at h
      split at h <;> cases h
      rfl

/-- What Decode can do: issue an instruction or the marker to an empty X, or leave X and the instruction in D. -/
inductive DecodeMove (s t : State) : Prop
  | issued (q : DecodeEntry) (hD : s.slotD = .inFlight q) (hX : s.slotX = .empty)
      (hclear : hazard s (sourcesOf q.raw) = false) (hD' : t.slotD = .empty)
      (hX' : t.slotX = .inFlight (withOperands s (decodeRecord q.raw q.addr)))
  | marker (hD : s.slotD = .haltMarker) (hX : s.slotX = .empty) (hD' : t.slotD = .empty) (hX' : t.slotX = .haltMarker)
  | stays (hD : taggedD t.slotD = taggedD s.slotD) (hX : t.slotX = s.slotX)

theorem decodeUpdate_moves (s : State) : DecodeMove s (decodeUpdate s) := by
  cases hD : s.slotD with
  | empty =>
    rw [decodeUpdate_of_empty hD]
    exact .stays rfl rfl
  | haltMarker =>
    have hupdate : decodeUpdate s = moveMarkerFromDecode s := by rw [decodeUpdate, hD]
    by_cases hX : s.slotX = .empty
    · rw [hupdate, moveMarkerFromDecode_free hD hX]
      exact .marker hD hX rfl rfl
    · rw [hupdate, moveMarkerFromDecode_blocked hX]
      exact .stays rfl rfl
  | inFlight q =>
    have hrow : decodeRecord q.raw q.addr = recordOf (rowOfOpcode q.raw (opNumber q.raw)) q.raw q.addr :=
      decodeRecord_eq_recordOf_row ..
    rw [decodeUpdate_of_inFlight hD, issueDecode_inFlight hD, ← sourcesOf_eq_row_srcs, ← hrow]
    cases hhazard : hazard s (sourcesOf q.raw) with
    | true => exact .stays (by rw [hD]; rfl) rfl
    | false =>
      rw [if_neg Bool.false_ne_true]
      by_cases hX : s.slotX = .empty
      · rw [if_pos hX]
        exact .issued q hD hX hhazard rfl rfl
      · rw [if_neg hX]
        exact .stays (by rw [hD]; rfl) rfl

/-- What Fetch can do: nothing, keep its entry, or hand a word or the marker to an empty D. -/
inductive FetchMove (s t : State) : Prop
  | idle (hF : s.slotF = none) (hF' : t.slotF = none) (hD : t.slotD = s.slotD) (hpc : t.pc = s.pc)
  | stays (f g : FetchEntry) (hF : s.slotF = some f) (hF' : t.slotF = some g) (haddr : g.addr = f.addr)
      (hlatched : f.latched = .outstanding ∨ g.latched = f.latched) (hD : t.slotD = s.slotD) (hpc : t.pc = s.pc)
  | word (f : FetchEntry) (w : Word) (hF : s.slotF = some f) (hlatched : f.latched = .outstanding ∨ f.latched = .word w)
      (hF' : t.slotF = none) (hD : s.slotD = .empty)
      (hD' : t.slotD = .inFlight { addr := f.addr, raw := w, status := .normal }) (hpc : t.pc = s.pc + 1)
  | halt (f : FetchEntry) (hF : s.slotF = some f) (hlatched : f.latched = .outstanding ∨ f.latched = .halt)
      (hF' : t.slotF = none) (hD : s.slotD = .empty) (hD' : t.slotD = .haltMarker) (hpc : t.pc = s.pc)

/-- The hand-over of a latch, which a read in this step may have filled. -/
theorem advanceFetch_moves {s u : State} {f g : FetchEntry} (hF : s.slotF = some f) (hG : u.slotF = some g)
    (haddr : g.addr = f.addr) (hlatched : f.latched = .outstanding ∨ g.latched = f.latched)
    (hL : g.latched ≠ .outstanding) (hD : u.slotD = s.slotD) (hpc : u.pc = s.pc) : FetchMove s (advanceFetch u) := by
  cases hl : g.latched with
  | outstanding => exact absurd hl hL
  | word w =>
    rw [hl, eq_comm (a := Latched.word w)] at hlatched
    rw [advanceFetch_word hG hl]
    by_cases hfree : u.slotD = .empty
    · rw [if_pos hfree]
      exact .word f w hF hlatched rfl (hD.symm.trans hfree) (by rw [haddr]) (congrArg (· + 1) hpc)
    · rw [if_neg hfree]
      exact .stays f _ hF rfl haddr (hlatched.imp_right fun h => hl.trans h.symm) hD hpc
  | halt =>
    rw [hl, eq_comm (a := Latched.halt)] at hlatched
    rw [advanceFetch_halt hG hl]
    by_cases hfree : u.slotD = .empty
    · rw [if_pos hfree]
      exact .halt f hF hlatched rfl (hD.symm.trans hfree) rfl hpc
    · rw [if_neg hfree]
      exact .stays f _ hF rfl haddr (hlatched.imp_right fun h => hl.trans h.symm) hD hpc

theorem fetchUpdate_moves (s : State) : FetchMove s (fetchUpdate s) := by
  cases hF : s.slotF with
  | none =>
    rw [fetchUpdate_of_none hF]
    exact .idle hF hF rfl rfl
  | some f =>
    by_cases hL : f.latched = .outstanding
    · cases hin : inRange s f.addr with
      | false =>
        rw [fetchUpdate_outside hF hL hin]
        exact advanceFetch_moves hF rfl rfl (.inl hL) nofun rfl rfl
      | true =>
        rcases haccess : access s (fetchRequest f.addr) .fetch with ⟨u, reply⟩
        have hD : u.slotD = s.slotD := by rw [same_of_access haccess]
        have hpc : u.pc = s.pc := by rw [same_of_access haccess]
        cases reply with
        | wait =>
          rw [fetchUpdate_waits hF hL hin haccess]
          exact .stays f _ hF rfl rfl (.inl hL) hD hpc
        | done w =>
          by_cases hw : w = haltWord
          · rw [fetchUpdate_of_sentinel hF hL hin (hw ▸ haccess)]
            exact advanceFetch_moves hF rfl rfl (.inl hL) nofun hD hpc
          · rw [fetchUpdate_reads_word hF hL hin haccess hw]
            exact advanceFetch_moves hF rfl rfl (.inl hL) nofun hD hpc
    · rw [fetchUpdate_of_latched hF hL]
      exact advanceFetch_moves hF hF rfl (.inr rfl) hL rfl rfl

/-- Part 6 leaves F, or fills an empty one at the pc (R172). -/
theorem injectPart_moves (s : State) :
    (injectPart s).slotF = s.slotF ∨ (s.slotF = none ∧ (injectPart s).slotF = fetchAt s.pc) := by
  rw [injectPart_eq]
  split
  · next h => exact .inr ⟨h.1, rfl⟩
  · exact .inl rfl

/-! ### The slots after a step -/

/-- The state in which part 5 of a step finds the machine. -/
def beforeFetch (s : State) : State := decodeUpdate (executeUpdate (beforeExecute s))

section
variable {s : State}

theorem stepUpdate_slotX (s : State) : (stepUpdate s).slotX = (beforeFetch s).slotX := by
  rw [stepUpdate, injectPart_frame, fetchUpdate_same, beforeFetch]

theorem stepUpdate_slotD (s : State) : (stepUpdate s).slotD = (fetchUpdate (beforeFetch s)).slotD := by
  rw [stepUpdate, injectPart_frame, beforeFetch]

theorem stepUpdate_pc (s : State) : (stepUpdate s).pc = (fetchUpdate (beforeFetch s)).pc := by
  rw [stepUpdate, injectPart_frame, beforeFetch]

theorem stepUpdate_slotF (s : State) : (stepUpdate s).slotF = (fetchUpdate (beforeFetch s)).slotF ∨
    ((fetchUpdate (beforeFetch s)).slotF = none ∧ (stepUpdate s).slotF = fetchAt (stepUpdate s).pc) := by
  rw [stepUpdate_pc]
  exact injectPart_moves (fetchUpdate (beforeFetch s))

/-- Before Execute nothing touches D, F or the pc, and Execute does only for a taken control instruction. -/
theorem executeUpdate_front (h : takenInX s = none) :
    (executeUpdate (beforeExecute s)).slotD = s.slotD ∧ (executeUpdate (beforeExecute s)).slotF = s.slotF ∧
      (executeUpdate (beforeExecute s)).pc = s.pc := by
  rw [executeUpdate_frame_of_not_taken ((takenInX_beforeExecute s).trans h), beforeExecute_frame, writebackUpdate_frame]
  exact ⟨rfl, rfl, rfl⟩

theorem executeUpdate_squashed {target : Word} (h : takenInX s = some target) :
    (executeUpdate (beforeExecute s)).slotM = (beforeExecute s).slotM ∧
      (executeUpdate (beforeExecute s)).slotX = .empty ∧ (executeUpdate (beforeExecute s)).slotD = .empty ∧
      (executeUpdate (beforeExecute s)).slotF = none := by
  rw [executeUpdate_of_taken ((takenInX_beforeExecute s).trans h), takeControl_eq]
  exact ⟨rfl, rfl, rfl, rfl⟩

theorem beforeFetch_front (h : takenInX s = none) : (beforeFetch s).slotF = s.slotF ∧ (beforeFetch s).pc = s.pc := by
  obtain ⟨-, hF, hpc⟩ := executeUpdate_front h
  rw [beforeFetch, decodeUpdate_frame]
  exact ⟨hF, hpc⟩

theorem beforeFetch_slotF_of_taken {target : Word} (h : takenInX s = some target) : (beforeFetch s).slotF = none := by
  obtain ⟨-, -, -, hF⟩ := executeUpdate_squashed h
  rw [beforeFetch, decodeUpdate_frame]
  exact hF

variable {p : Word × Word}

/-! ### Where each slot's instruction comes from -/

theorem slotW_from (hp : tagged (stepUpdate s).slotW = some p) : tagged s.slotM = some p := by
  rw [stepUpdate_slotW] at hp
  rcases beforeExecute_moves s with ⟨-, hW⟩ | ⟨hW, -⟩
  · exact hW.symm.trans hp
  · rw [hW] at hp
    cases hp

/-- What Execute finds in M stayed there. -/
theorem stayed_in_memory (hp : tagged (beforeExecute s).slotM = some p) :
    tagged s.slotM = some p ∧ (stepUpdate s).slotW = .empty := by
  rw [stepUpdate_slotW]
  rcases beforeExecute_moves s with ⟨hM, -⟩ | ⟨hW, hM, -⟩
  · rw [hM] at hp
    cases hp
  · exact ⟨hM.symm.trans hp, hW⟩

theorem slotM_from (hp : tagged (stepUpdate s).slotM = some p) :
    tagged s.slotM = some p ∧ (stepUpdate s).slotW = .empty ∨ tagged s.slotX = some p := by
  rw [stepUpdate_slotM] at hp
  cases htaken : takenInX s with
  | some target =>
    obtain ⟨hM, -⟩ := executeUpdate_squashed htaken
    exact .inl (stayed_in_memory (hM ▸ hp))
  | none =>
    rcases executeUpdate_moves ((takenInX_beforeExecute s).trans htaken) with ⟨-, -, hM⟩ | ⟨hM, -⟩
    · rw [hM, beforeExecute_slotX] at hp
      exact .inr hp
    · exact .inl (stayed_in_memory (hM ▸ hp))

/-- What Execute leaves in X stayed there, behind an instruction that stayed in M. -/
theorem stayed_in_execute (hp : tagged (executeUpdate (beforeExecute s)).slotX = some p) :
    stayedInX s (stepUpdate s) p := by
  cases htaken : takenInX s with
  | some target =>
    obtain ⟨-, hX, -⟩ := executeUpdate_squashed htaken
    rw [hX] at hp
    cases hp
  | none =>
    rcases executeUpdate_moves ((takenInX_beforeExecute s).trans htaken) with ⟨-, hX, -⟩ | ⟨hM, hX, hbehind⟩
    · rw [hX] at hp
      cases hp
    · rw [hX] at hp
      have hoccupied := hbehind.resolve_left (by rw [hp]; nofun)
      rw [beforeExecute_slotX] at hp
      rcases beforeExecute_moves s with ⟨hempty, -⟩ | ⟨hW, hM', hsome⟩
      · exact absurd hempty hoccupied
      · refine ⟨hp, hsome, ?_, (stepUpdate_slotW s).trans hW⟩
        rw [stepUpdate_slotM, hM, hM']

theorem slotX_from (hp : tagged (stepUpdate s).slotX = some p) :
    stayedInX s (stepUpdate s) p ∨ taggedD s.slotD = some p := by
  rw [stepUpdate_slotX] at hp
  cases decodeUpdate_moves (executeUpdate (beforeExecute s)) with
  | issued q hD hX hclear hD' hX' =>
    cases htaken : takenInX s with
    | some target =>
      obtain ⟨-, -, hempty, -⟩ := executeUpdate_squashed htaken
      exact absurd (hempty.symm.trans hD) nofun
    | none =>
      obtain ⟨hfront, -⟩ := executeUpdate_front htaken
      rw [beforeFetch, hX'] at hp
      rw [← hfront, hD]
      exact .inr hp
  | marker hD hX hD' hX' =>
    rw [beforeFetch, hX'] at hp
    cases hp
  | stays hD hX =>
    rw [beforeFetch, hX] at hp
    exact .inl (stayed_in_execute hp)

/-- What Decode leaves in D stayed there, and what X holds stayed too. -/
theorem stayed_in_decode (hp : taggedD (beforeFetch s).slotD = some p) : stayedInD s (stepUpdate s) p := by
  cases decodeUpdate_moves (executeUpdate (beforeExecute s)) with
  | issued q hD hX hclear hD' hX' =>
    rw [beforeFetch, hD'] at hp
    cases hp
  | marker hD hX hD' hX' =>
    rw [beforeFetch, hD'] at hp
    cases hp
  | stays hD hX =>
    rw [beforeFetch, hD] at hp
    cases htaken : takenInX s with
    | some target =>
      obtain ⟨-, -, hempty, -⟩ := executeUpdate_squashed htaken
      rw [hempty] at hp
      cases hp
    | none =>
      obtain ⟨hfront, -⟩ := executeUpdate_front htaken
      refine ⟨hfront ▸ hp, fun x hx => ?_⟩
      rw [stepUpdate_slotX, beforeFetch, hX] at hx
      exact stayed_in_execute hx

/-- An entry in F before part 5 is the one in F before the step. -/
theorem slotF_from {f : FetchEntry} (h : (beforeFetch s).slotF = some f) : s.slotF = some f := by
  cases htaken : takenInX s with
  | some target => exact absurd ((beforeFetch_slotF_of_taken htaken).symm.trans h) nofun
  | none =>
    obtain ⟨hF, -⟩ := beforeFetch_front htaken
    exact hF.symm.trans h

theorem slotD_from (hp : taggedD (stepUpdate s).slotD = some p) :
    stayedInD s (stepUpdate s) p ∨ handedToD s (stepUpdate s) p := by
  rw [stepUpdate_slotD] at hp
  cases fetchUpdate_moves (beforeFetch s) with
  | idle hF hF' hD hpc =>
    rw [hD] at hp
    exact .inl (stayed_in_decode hp)
  | stays f g hF hF' haddr hlatched hD hpc =>
    rw [hD] at hp
    exact .inl (stayed_in_decode hp)
  | word f w hF hlatched hF' hD hD' hpc =>
    rw [hD'] at hp
    cases hp
    refine .inr ⟨⟨f, slotF_from hF, rfl, hlatched⟩, ?_⟩
    exact (stepUpdate_slotF s).imp (fun h => h.trans hF') And.right
  | halt f hF hlatched hF' hD hD' hpc =>
    rw [hD'] at hp
    cases hp

theorem latched_from {g : FetchEntry} {w : Word} (hg : (stepUpdate s).slotF = some g) (hl : g.latched = .word w) :
    (∃ f, s.slotF = some f ∧ f.addr = g.addr ∧ (f.latched = .outstanding ∨ f.latched = .word w)) ∧
      ∀ p, taggedD (stepUpdate s).slotD = some p → stayedInD s (stepUpdate s) p := by
  have hkept : (fetchUpdate (beforeFetch s)).slotF = some g := by
    rcases stepUpdate_slotF s with h | ⟨-, h⟩
    · exact h.symm.trans hg
    · cases h.symm.trans hg
      cases hl
  rw [stepUpdate_slotD]
  cases fetchUpdate_moves (beforeFetch s) with
  | idle hF hF' hD hpc => exact absurd (hF'.symm.trans hkept) nofun
  | stays f g' hF hF' haddr hlatched hD hpc =>
    cases hF'.symm.trans hkept
    exact ⟨⟨f, slotF_from hF, haddr.symm, hlatched.imp_right fun h => h.symm.trans hl⟩,
      fun p hp => stayed_in_decode (hD ▸ hp)⟩
  | word f w' hF hlatched hF' hD hD' hpc => exact absurd (hF'.symm.trans hkept) nofun
  | halt f hF hlatched hF' hD hD' hpc => exact absurd (hF'.symm.trans hkept) nofun

/-! ### Where each instruction goes -/

theorem slotM_goes (hp : tagged s.slotM = some p) :
    tagged (stepUpdate s).slotW = some p ∨ tagged (stepUpdate s).slotM = some p := by
  rw [stepUpdate_slotW, stepUpdate_slotM]
  rcases beforeExecute_moves s with ⟨-, hW⟩ | ⟨-, hM, -⟩
  · exact .inl (hW.trans hp)
  · have hoccupied : (beforeExecute s).slotM ≠ .empty := fun h => by
      rw [h, hp] at hM
      cases hM
    rw [executeUpdate_slotM_of_occupied hoccupied]
    exact .inr (hM.trans hp)

/-- An entry of F that stays is the one there after the step. -/
theorem slotF_kept {g : FetchEntry} (h : (fetchUpdate (beforeFetch s)).slotF = some g) :
    (stepUpdate s).slotF = some g := by
  rcases stepUpdate_slotF s with h' | ⟨h', -⟩
  · exact h'.trans h
  · exact absurd (h'.symm.trans h) nofun

variable (htaken : takenInX s = none)
include htaken

theorem slotX_goes (hp : tagged s.slotX = some p) :
    tagged (stepUpdate s).slotM = some p ∨ tagged (stepUpdate s).slotX = some p := by
  rw [stepUpdate_slotM, stepUpdate_slotX]
  rcases executeUpdate_moves ((takenInX_beforeExecute s).trans htaken) with ⟨-, -, hM⟩ | ⟨-, hX, -⟩
  · rw [beforeExecute_slotX] at hM
    exact .inl (hM.trans hp)
  · rw [beforeExecute_slotX, hp] at hX
    refine .inr ?_
    cases decodeUpdate_moves (executeUpdate (beforeExecute s)) with
    | issued q hD hempty hclear hD' hX' =>
      rw [hempty] at hX
      cases hX
    | marker hD hempty hD' hX' =>
      rw [hempty] at hX
      cases hX
    | stays hD hX' => rw [beforeFetch, hX', hX]

theorem slotD_goes (hp : taggedD s.slotD = some p) :
    tagged (stepUpdate s).slotX = some p ∨ taggedD (stepUpdate s).slotD = some p := by
  obtain ⟨hfront, -⟩ := executeUpdate_front htaken
  rw [← hfront] at hp
  rw [stepUpdate_slotX, stepUpdate_slotD]
  cases decodeUpdate_moves (executeUpdate (beforeExecute s)) with
  | issued q hD hX hclear hD' hX' =>
    rw [hD] at hp
    rw [beforeFetch, hX']
    exact .inl hp
  | marker hD hX hD' hX' =>
    rw [hD] at hp
    cases hp
  | stays hD hX =>
    rw [← hD] at hp
    have hoccupied : (beforeFetch s).slotD ≠ .empty := fun h => by
      rw [← beforeFetch, h] at hp
      cases hp
    refine .inr ?_
    cases fetchUpdate_moves (beforeFetch s) with
    | idle hF hF' hD' hpc => exact (congrArg taggedD hD').trans hp
    | stays f g hF hF' haddr hlatched hD' hpc => exact (congrArg taggedD hD').trans hp
    | word f w hF hlatched hF' hfree hD' hpc => exact absurd hfree hoccupied
    | halt f hF hlatched hF' hfree hD' hpc => exact absurd hfree hoccupied

theorem latched_goes {f : FetchEntry} {w : Word} (hf : s.slotF = some f) (hl : f.latched = .word w) :
    taggedD (stepUpdate s).slotD = some (f.addr, w) ∨
      ∃ g, (stepUpdate s).slotF = some g ∧ g.addr = f.addr ∧ g.latched = .word w := by
  obtain ⟨hfront, -⟩ := beforeFetch_front htaken
  rw [← hfront] at hf
  rw [stepUpdate_slotD]
  cases fetchUpdate_moves (beforeFetch s) with
  | idle hF hF' hD hpc => exact absurd (hF.symm.trans hf) nofun
  | stays f' g hF hF' haddr hlatched hD hpc =>
    cases hF.symm.trans hf
    refine .inr ⟨g, slotF_kept hF', haddr, ?_⟩
    rcases hlatched with h | h
    · cases hl.symm.trans h
    · exact h.trans hl
  | word f' w' hF hlatched hF' hD hD' hpc =>
    cases hF.symm.trans hf
    rcases hlatched with h | h
    · cases hl.symm.trans h
    · cases hl.symm.trans h
      exact .inl (congrArg taggedD hD')
  | halt f' hF hlatched hF' hD hD' hpc =>
    cases hF.symm.trans hf
    rcases hlatched with h | h <;> cases hl.symm.trans h

theorem outstanding_goes {f : FetchEntry} (hf : s.slotF = some f) :
    (∃ w, taggedD (stepUpdate s).slotD = some (f.addr, w)) ∨ (stepUpdate s).slotD = .haltMarker ∨
      ∃ g, (stepUpdate s).slotF = some g ∧ g.addr = f.addr := by
  obtain ⟨hfront, -⟩ := beforeFetch_front htaken
  rw [← hfront] at hf
  rw [stepUpdate_slotD]
  cases fetchUpdate_moves (beforeFetch s) with
  | idle hF hF' hD hpc => exact absurd (hF.symm.trans hf) nofun
  | stays f' g hF hF' haddr hlatched hD hpc =>
    cases hF.symm.trans hf
    exact .inr (.inr ⟨g, slotF_kept hF', haddr⟩)
  | word f' w' hF hlatched hF' hD hD' hpc =>
    cases hF.symm.trans hf
    exact .inl ⟨w', congrArg taggedD hD'⟩
  | halt f' hF hlatched hF' hD hD' hpc => exact .inr (.inl hD')

end

/-- Settles O37: each part moves its occupant at most into the next slot, and the parts run from the last stage to the
first, so nothing moves twice. -/
theorem noOvertaking : Obligations.NoOvertaking := by
  intro s t hr hstep
  cases eq_stepUpdate_of_step hr hstep
  exact ⟨fun _ => slotW_from, fun _ => slotM_from, fun _ => slotX_from, fun _ => slotD_from,
    fun _ _ => latched_from, fun _ => slotM_goes, fun htaken =>
      ⟨fun _ => slotX_goes htaken, fun _ => slotD_goes htaken, fun _ _ => latched_goes htaken,
        fun _ hf _ => outstanding_goes htaken hf⟩⟩

/-- Settles O36: what Execute keeps is stalled, so an instruction in X with status normal was issued in this step, past
the hazard scan of M and W and with the registers that the step leaves. -/
theorem operandsAreCommitted : Obligations.OperandsAreCommitted := by
  intro s t r hr hstep hX hnormal
  cases eq_stepUpdate_of_step hr hstep
  rw [stepUpdate_slotX] at hX
  have hx : (stepUpdate s).x = (executeUpdate (beforeExecute s)).x := by
    rw [stepUpdate, injectPart_frame, fetchUpdate_same, decodeUpdate_frame]
  have hread (i : RegIdx) : readReg (stepUpdate s) i = readReg (executeUpdate (beforeExecute s)) i := by
    rw [readReg, hx, readReg]
  cases decodeUpdate_moves (executeUpdate (beforeExecute s)) with
  | issued q hD hfree hclear hD' hX' =>
    cases hX'.symm.trans hX
    refine ⟨(hread _).symm, (hread _).symm, (hread _).symm, fun p hslot hw hmem => ?_⟩
    rw [stepUpdate_slotM, stepUpdate_slotW, ← executeUpdate_slotW] at hslot
    exact absurd (hclear.symm.trans (hazard_iff.2 ⟨p, .inr hslot, hw, hmem⟩)) Bool.false_ne_true
  | marker hD hfree hD' hX' => exact absurd (hX'.symm.trans hX) nofun
  | stays hD hX' =>
    have hstalled := status_of_executeUpdate_slotX (hX'.symm.trans hX)
    exact absurd (hnormal.symm.trans hstalled) nofun

/-- Settles O35: Execute writes the pc with a squash, after which Fetch has nothing to hand on; else Fetch alone does,
with the word it hands to D. -/
theorem pcIsWrittenInTwoPlaces : Obligations.PcIsWrittenInTwoPlaces := by
  intro s t h hr hstep
  have hinv := inv_step h hstep
  cases eq_stepUpdate_of_step hr hstep
  refine ⟨hinv.slots.fetchAtPc, fun target htaken => ?_, fun htaken => ?_⟩
  · rw [stepUpdate_taken htaken, injectPart_frame, takeControl_eq]
  · obtain ⟨hfront, hpc'⟩ := beforeFetch_front htaken
    obtain ⟨hfrontD, -⟩ := executeUpdate_front htaken
    have hstays (p : Word × Word) (hp : taggedD (beforeFetch s).slotD = some p) : taggedD s.slotD = some p :=
      (stayed_in_decode hp).1
    have hD := stepUpdate_slotD s
    have hpc := stepUpdate_pc s
    cases fetchUpdate_moves (beforeFetch s) with
    | idle hF hF' hD' hpc'' =>
      exact .inr ⟨hpc.trans (hpc''.trans hpc'), fun p hp => hstays p (by rwa [hD, hD'] at hp)⟩
    | stays f g hF hF' haddr hlatched hD' hpc'' =>
      exact .inr ⟨hpc.trans (hpc''.trans hpc'), fun p hp => hstays p (by rwa [hD, hD'] at hp)⟩
    | halt f hF hlatched hF' hfree hD' hpc'' =>
      exact .inr ⟨hpc.trans (hpc''.trans hpc'), fun p hp => by rw [hD, hD'] at hp; cases hp⟩
    | word f w hF hlatched hF' hfree hD' hpc'' =>
      have hf : s.slotF = some f := hfront.symm.trans hF
      have haddr : f.addr = s.pc := h.slots.fetchAtPc f hf
      have hslot := hD.trans hD'
      rw [haddr] at hslot
      have hw : w ≠ haltWord := hinv.records.wordD _ (record_of_inFlight hslot)
      exact .inl ⟨hpc.trans (hpc''.trans (congrArg (· + 1) hpc')), w, hw, by rw [hf]; rfl, hslot⟩

end Sys2Proof.Machine
end
